-- ==== Sys2Proof/Word.lean ====
section
/-!
DEFINITION. The word and byte types of the engine (spec/00_scope.md section 5: a word is 32 bits, a byte is 8 bits, every
quantity is unsigned). Addition `+` and the bitwise operations of `BitVec` are `+32`, `&`, `|`, `^`, `~` of rule R99.
-/

namespace Sys2Proof

/-- A 32-bit word (R4, section 5 of 00_scope.md). -/
abbrev Word := BitVec 32

/-- An 8-bit byte, the smallest addressable unit (R40). -/
abbrev Byte := BitVec 8

end Sys2Proof
end

