-- ==== Sys2Proof/Config.lean ====
section
/-!
DEFINITION. What the spec leaves to an instance of the engine (R5: the two slot counts, D2) and the free values (R12, R13,
93_implementation_defined.md U5: the working registers and the step index outside a `COMPRESS`).
-/

namespace Sys2Proof

/-- The two open parameters of the engine (R5): the number of Digest Context slots and of HMAC Context slots. -/
structure Config where
  nDctx : Nat
  nHctx : Nat
  deriving DecidableEq, Repr

/-- R5, D2: each slot count is from 1 to 16. -/
abbrev Config.wf (c : Config) : Prop := (1 ≤ c.nDctx ∧ c.nDctx ≤ 16) ∧ (1 ≤ c.nHctx ∧ c.nHctx ≤ 16)

/-- The test instance of R5, `N_DCTX = 2` and `N_HCTX = 1`, which `State.reset` takes (notes/assumptions/1.md). -/
def Config.testInstance : Config := { nDctx := 2, nHctx := 1 }

/-- Free value (R12, U5): what a working register holds once the `COMPRESS` that used it has ended. The first argument is
the state's draw counter, the second the register's index (notes/assumptions/3.md). -/
opaque Config.freeWord : Nat → Fin 4 → Word

/-- Free value within R13's bound (`t` never exceeds 48; U5): what the step index holds once the `COMPRESS` that used it has
ended (notes/assumptions/3.md). -/
opaque Config.freeIndex : Nat → Fin 49

end Sys2Proof
end

