-- ==== Sys2Proof/Syntax.lean ====
section
/-!
DEFINITION. The instructions: one constructor per row of spec/opcode_table.json, the eight host commands (R67) and the 48
internal steps of the compression core (R74), and the five error codes a command can end with (R202).
-/

namespace Sys2Proof

/-- The error codes of R202 (code 0, `OK`, is no error). -/
inductive ErrCode where
  | illegalOp
  | reserved
  | ctxIndex
  | ctxState
  | framing
  deriving DecidableEq, Repr

/-- The instructions. `ctx` is the 4-bit CTX field (R61, R62); the byte strings are the operands of formats B and K (R63). -/
inductive Instr where
  /-- `INIT`, R161 -/
  | init (ctx : BitVec 4)
  /-- `UPDATE`, R162 -/
  | update (ctx : BitVec 4) (data : List Byte)
  /-- `FINISH`, R164 -/
  | finish (ctx : BitVec 4)
  /-- `DIGEST`, R180 -/
  | digest (data : List Byte)
  /-- `HMAC_INIT`, R186 -/
  | hmacInit (ctx : BitVec 4) (key : List Byte)
  /-- `HMAC_UPDATE`, R187 -/
  | hmacUpdate (ctx : BitVec 4) (data : List Byte)
  /-- `HMAC_FINISH`, R188 -/
  | hmacFinish (ctx : BitVec 4)
  /-- `HMAC`, R190 -/
  | hmac (key : List Byte) (data : List Byte)
  /-- `STEP 0`, R110 -/
  | step0
  /-- `STEP 1`, R111 -/
  | step1
  /-- `STEP 2`, R112 -/
  | step2
  /-- `STEP 3`, R113 -/
  | step3
  /-- `STEP 4`, R114 -/
  | step4
  /-- `STEP 5`, R115 -/
  | step5
  /-- `STEP 6`, R116 -/
  | step6
  /-- `STEP 7`, R117 -/
  | step7
  /-- `STEP 8`, R118 -/
  | step8
  /-- `STEP 9`, R119 -/
  | step9
  /-- `STEP 10`, R120 -/
  | step10
  /-- `STEP 11`, R121 -/
  | step11
  /-- `STEP 12`, R122 -/
  | step12
  /-- `STEP 13`, R123 -/
  | step13
  /-- `STEP 14`, R124 -/
  | step14
  /-- `STEP 15`, R125 -/
  | step15
  /-- `STEP 16`, R126 -/
  | step16
  /-- `STEP 17`, R127 -/
  | step17
  /-- `STEP 18`, R128 -/
  | step18
  /-- `STEP 19`, R129 -/
  | step19
  /-- `STEP 20`, R130 -/
  | step20
  /-- `STEP 21`, R131 -/
  | step21
  /-- `STEP 22`, R132 -/
  | step22
  /-- `STEP 23`, R133 -/
  | step23
  /-- `STEP 24`, R134 -/
  | step24
  /-- `STEP 25`, R135 -/
  | step25
  /-- `STEP 26`, R136 -/
  | step26
  /-- `STEP 27`, R137 -/
  | step27
  /-- `STEP 28`, R138 -/
  | step28
  /-- `STEP 29`, R139 -/
  | step29
  /-- `STEP 30`, R140 -/
  | step30
  /-- `STEP 31`, R141 -/
  | step31
  /-- `STEP 32`, R142 -/
  | step32
  /-- `STEP 33`, R143 -/
  | step33
  /-- `STEP 34`, R144 -/
  | step34
  /-- `STEP 35`, R145 -/
  | step35
  /-- `STEP 36`, R146 -/
  | step36
  /-- `STEP 37`, R147 -/
  | step37
  /-- `STEP 38`, R148 -/
  | step38
  /-- `STEP 39`, R149 -/
  | step39
  /-- `STEP 40`, R150 -/
  | step40
  /-- `STEP 41`, R151 -/
  | step41
  /-- `STEP 42`, R152 -/
  | step42
  /-- `STEP 43`, R153 -/
  | step43
  /-- `STEP 44`, R154 -/
  | step44
  /-- `STEP 45`, R155 -/
  | step45
  /-- `STEP 46`, R156 -/
  | step46
  /-- `STEP 47`, R157 -/
  | step47
  deriving DecidableEq, Repr

end Sys2Proof
end

