-- ==== Sys2Proof/WellFormed.lean ====
section
/-!
DEFINITION. What an instruction must satisfy to have an encoding: its slot index is in range (R62, R205) and its byte strings
have a length a 32-bit length field can hold (R64). The steps have no operands.
-/

namespace Sys2Proof

/-- R64: a byte string's length fits `LEN` or `KLEN`, 32 bits unsigned. -/
def lenOk (data : List Byte) : Bool := decide (data.length < 2 ^ 32)

/-- R62: a Digest slot index is below `N_DCTX`. -/
def digestSlotOk (cfg : Config) (ctx : BitVec 4) : Bool := decide (ctx.toNat < cfg.nDctx)

/-- R62: an HMAC slot index is below `N_HCTX`. -/
def hmacSlotOk (cfg : Config) (ctx : BitVec 4) : Bool := decide (ctx.toNat < cfg.nHctx)

/-- Well-formedness of an instruction on an engine with the slot counts `cfg`. -/
def Instr.wf (cfg : Config) (i : Instr) : Bool :=
  match i with
  | .init ctx => digestSlotOk cfg ctx
  | .update ctx data => digestSlotOk cfg ctx && lenOk data
  | .finish ctx => digestSlotOk cfg ctx
  | .digest data => lenOk data
  | .hmacInit ctx key => hmacSlotOk cfg ctx && lenOk key
  | .hmacUpdate ctx data => hmacSlotOk cfg ctx && lenOk data
  | .hmacFinish ctx => hmacSlotOk cfg ctx
  | .hmac key data => lenOk key && lenOk data
  | .step0 => true
  | .step1 => true
  | .step2 => true
  | .step3 => true
  | .step4 => true
  | .step5 => true
  | .step6 => true
  | .step7 => true
  | .step8 => true
  | .step9 => true
  | .step10 => true
  | .step11 => true
  | .step12 => true
  | .step13 => true
  | .step14 => true
  | .step15 => true
  | .step16 => true
  | .step17 => true
  | .step18 => true
  | .step19 => true
  | .step20 => true
  | .step21 => true
  | .step22 => true
  | .step23 => true
  | .step24 => true
  | .step25 => true
  | .step26 => true
  | .step27 => true
  | .step28 => true
  | .step29 => true
  | .step30 => true
  | .step31 => true
  | .step32 => true
  | .step33 => true
  | .step34 => true
  | .step35 => true
  | .step36 => true
  | .step37 => true
  | .step38 => true
  | .step39 => true
  | .step40 => true
  | .step41 => true
  | .step42 => true
  | .step43 => true
  | .step44 => true
  | .step45 => true
  | .step46 => true
  | .step47 => true

end Sys2Proof
end

