-- ==== Sys2Proof/Decode.lean ====
section
/-!
DEFINITION. Command packets and step indices to instructions and back: the byte-order helpers (R43, R64), the header fields
(R61), the opcode map (R67), the total decode procedure (R73), the step decode (R74), the encoder, and the reading of an
opcode-table word that the host asks for.
-/

namespace Sys2Proof

/-! ### Byte order (R43; 00_scope.md section 5) -/

/-- Byte `i` of a word, byte 0 the least significant. -/
def byteOf (v : Word) (i : Nat) : Byte := v.extractLsb' (8 * i) 8

/-- `le32(v)`: the four bytes of a word, least significant first. -/
def le32 (v : Word) : List Byte := [byteOf v 0, byteOf v 1, byteOf v 2, byteOf v 3]

/-- `from_le32(s)` on the first four bytes of `s`: `s[0] + 256*s[1] + 65536*s[2] + 16777216*s[3]`. (Every use has four bytes;
a shorter string gives 0.) -/
def fromLe32 : List Byte → Word
  | b0 :: b1 :: b2 :: b3 :: _ =>
    BitVec.ofNat 32 (b0.toNat + 256 * b1.toNat + 65536 * b2.toNat + 16777216 * b3.toNat)
  | _ => 0

/-! ### The header (R61) -/

/-- `OP = hdr[3:0]`. -/
def hdrOp (hdr : Word) : BitVec 4 := hdr.extractLsb' 0 4

/-- `CTX = hdr[7:4]`. -/
def hdrCtx (hdr : Word) : BitVec 4 := hdr.extractLsb' 4 4

/-- `RSVD = hdr[31:8]`. -/
def hdrRsvd (hdr : Word) : BitVec 24 := hdr.extractLsb' 8 24

/-! ### The opcode map (R67) -/

/-- The eight commands of R67. -/
inductive Opcode where
  | init | update | finish | digest | hmacInit | hmacUpdate | hmacFinish | hmac
  deriving DecidableEq, Repr

/-- R67: the command of an `OP` value; 0 and 9 to 15 are illegal. -/
def opcodeOf (op : BitVec 4) : Option Opcode :=
  match op.toNat with
  | 1 => some .init
  | 2 => some .update
  | 3 => some .finish
  | 4 => some .digest
  | 5 => some .hmacInit
  | 6 => some .hmacUpdate
  | 7 => some .hmacFinish
  | 8 => some .hmac
  | _ => none

/-- R67: the number of a command. -/
def opcodeNumber (op : Opcode) : BitVec 4 :=
  match op with
  | .init => 1
  | .update => 2
  | .finish => 3
  | .digest => 4
  | .hmacInit => 5
  | .hmacUpdate => 6
  | .hmacFinish => 7
  | .hmac => 8

/-- R62: `DIGEST` and `HMAC` name no slot; their `CTX` must be 0. -/
def namesNoSlot (op : Opcode) : Bool :=
  match op with
  | .digest => true
  | .hmac => true
  | _ => false

/-- R62, R205: whether `ctx` is an index the command may use (the Digest and the HMAC slots are separate spaces). -/
def ctxInRange (cfg : Config) (op : Opcode) (ctx : BitVec 4) : Bool :=
  match op with
  | .init => digestSlotOk cfg ctx
  | .update => digestSlotOk cfg ctx
  | .finish => digestSlotOk cfg ctx
  | .hmacInit => hmacSlotOk cfg ctx
  | .hmacUpdate => hmacSlotOk cfg ctx
  | .hmacFinish => hmacSlotOk cfg ctx
  | .digest => true
  | .hmac => true

/-! ### Operands and framing (R63 to R66) -/

/-- Format N is well framed: the packet is its header. -/
def framedN (p : List Byte) : Option Unit :=
  if p.length = 4 then some () else none

/-- Format B: `data = packet[8..8+LEN)` where `LEN = from_le32(packet[4..8))`, if the packet has exactly that length. -/
def operandB (p : List Byte) : Option (List Byte) :=
  if 8 ≤ p.length ∧ p.length = 8 + (fromLe32 (p.drop 4)).toNat then some (p.drop 8) else none

/-- Format K: `key` of `KLEN = from_le32(packet[4..8))` bytes at 12 and `data` of `LEN = from_le32(packet[8..12))` bytes after
it, if the packet has exactly that length; the sum is one of natural numbers and does not wrap. -/
def operandsK (p : List Byte) : Option (List Byte × List Byte) :=
  let klen := (fromLe32 (p.drop 4)).toNat
  let len := (fromLe32 (p.drop 8)).toNat
  if 12 ≤ p.length ∧ p.length = 12 + klen + len
  then some ((p.drop 12).take klen, p.drop (12 + klen)) else none

/-- The command with its operands, `none` when the body is not well framed (R66). -/
def assemble (op : Opcode) (ctx : BitVec 4) (p : List Byte) : Option Instr :=
  match op with
  | .init => (framedN p).map fun _ => .init ctx
  | .update => (operandB p).map fun data => .update ctx data
  | .finish => (framedN p).map fun _ => .finish ctx
  | .digest => (operandB p).map fun data => .digest data
  | .hmacInit => (operandB p).map fun key => .hmacInit ctx key
  | .hmacUpdate => (operandB p).map fun data => .hmacUpdate ctx data
  | .hmacFinish => (framedN p).map fun _ => .hmacFinish ctx
  | .hmac => (operandsK p).map fun kd => .hmac kd.1 kd.2

/-! ### Decoding -/

/-- R73: the total decode procedure of a command packet, in its order (R208: the first error found is the one reported). -/
def decodePacket (cfg : Config) (p : List Byte) : Except ErrCode Instr :=
  if p.length < 4 then .error .framing
  else
    let hdr := fromLe32 p
    match opcodeOf (hdrOp hdr) with
    | none => .error .illegalOp
    | some op =>
      if hdrRsvd hdr ≠ 0 then .error .reserved
      else if namesNoSlot op = true ∧ hdrCtx hdr ≠ 0 then .error .reserved
      else if ctxInRange cfg op (hdrCtx hdr) = false then .error .ctxIndex
      else
        match assemble op (hdrCtx hdr) p with
        | none => .error .framing
        | some i => .ok i

/-- R74, R96: the 16 steps of round 1, in the order of the step index. -/
def round1Instrs : List Instr :=
  [.step0, .step1, .step2, .step3, .step4, .step5, .step6, .step7,
   .step8, .step9, .step10, .step11, .step12, .step13, .step14, .step15]

/-- R74, R96: the 16 steps of round 2, in the order of the step index. -/
def round2Instrs : List Instr :=
  [.step16, .step17, .step18, .step19, .step20, .step21, .step22, .step23,
   .step24, .step25, .step26, .step27, .step28, .step29, .step30, .step31]

/-- R74, R96: the 16 steps of round 3, in the order of the step index. -/
def round3Instrs : List Instr :=
  [.step32, .step33, .step34, .step35, .step36, .step37, .step38, .step39,
   .step40, .step41, .step42, .step43, .step44, .step45, .step46, .step47]

/-- R74, R96: the 48 steps in the order of the step index. -/
def stepInstrs : List Instr := List.append round1Instrs (List.append round2Instrs round3Instrs)

/-- R74: the step selected by the step index; 48 to 63 (`t[5:4] = 3`) select none. -/
def decodeStep (t : BitVec 6) : Option Instr := stepInstrs[t.toNat]?

/-- What the engine takes an instruction from: the command stream's next packet, or the step index of the compression core. -/
inductive Fetched where
  | packet (bytes : List Byte)
  | index (t : BitVec 6)
  deriving DecidableEq, Repr

/-- Why nothing is decoded: an error the response reports (R202), or a step index that selects no step (R74). -/
inductive DecodeError where
  | err (code : ErrCode)
  | noStep
  deriving DecidableEq, Repr

/-- Decoding of either kind of instruction, total. -/
def decode (cfg : Config) (f : Fetched) : Except DecodeError Instr :=
  match f with
  | .packet p =>
    match decodePacket cfg p with
    | .ok i => .ok i
    | .error e => .error (.err e)
  | .index t =>
    match decodeStep t with
    | some i => .ok i
    | none => .error .noStep

/-! ### Encoding, from the same tables -/

/-- R61: the header's four bytes, `packet[0] = OP + 16*CTX` and three zeros. -/
def headerBytes (op : Opcode) (ctx : BitVec 4) : List Byte := [ctx ++ opcodeNumber op, 0, 0, 0]

/-- R64: a byte string's length field. -/
def lenField (data : List Byte) : List Byte := le32 (BitVec.ofNat 32 data.length)

/-- R63: a format-B packet. -/
def packetB (op : Opcode) (ctx : BitVec 4) (data : List Byte) : List Byte :=
  headerBytes op ctx ++ lenField data ++ data

/-- The packet of a command, or the index of a step. -/
def encode (i : Instr) : Fetched :=
  match i with
  | .init ctx => .packet (headerBytes .init ctx)
  | .update ctx data => .packet (packetB .update ctx data)
  | .finish ctx => .packet (headerBytes .finish ctx)
  | .digest data => .packet (packetB .digest 0 data)
  | .hmacInit ctx key => .packet (packetB .hmacInit ctx key)
  | .hmacUpdate ctx data => .packet (packetB .hmacUpdate ctx data)
  | .hmacFinish ctx => .packet (headerBytes .hmacFinish ctx)
  | .hmac key data => .packet (headerBytes .hmac 0 ++ lenField key ++ lenField data ++ key ++ data)
  | .step0 => .index 0
  | .step1 => .index 1
  | .step2 => .index 2
  | .step3 => .index 3
  | .step4 => .index 4
  | .step5 => .index 5
  | .step6 => .index 6
  | .step7 => .index 7
  | .step8 => .index 8
  | .step9 => .index 9
  | .step10 => .index 10
  | .step11 => .index 11
  | .step12 => .index 12
  | .step13 => .index 13
  | .step14 => .index 14
  | .step15 => .index 15
  | .step16 => .index 16
  | .step17 => .index 17
  | .step18 => .index 18
  | .step19 => .index 19
  | .step20 => .index 20
  | .step21 => .index 21
  | .step22 => .index 22
  | .step23 => .index 23
  | .step24 => .index 24
  | .step25 => .index 25
  | .step26 => .index 26
  | .step27 => .index 27
  | .step28 => .index 28
  | .step29 => .index 29
  | .step30 => .index 30
  | .step31 => .index 31
  | .step32 => .index 32
  | .step33 => .index 33
  | .step34 => .index 34
  | .step35 => .index 35
  | .step36 => .index 36
  | .step37 => .index 37
  | .step38 => .index 38
  | .step39 => .index 39
  | .step40 => .index 40
  | .step41 => .index 41
  | .step42 => .index 42
  | .step43 => .index 43
  | .step44 => .index 44
  | .step45 => .index 45
  | .step46 => .index 46
  | .step47 => .index 47

/-! ### The opcode table's words -/

/-- The first `n` bytes of the number `w`, least significant first. -/
def numberBytes (n : Nat) (w : Nat) : List Byte :=
  match n with
  | 0 => []
  | n + 1 => BitVec.ofNat 8 (w % 256) :: numberBytes n (w / 256)

/-- How many bytes the packet has whose bits, from its first byte on, are those of the number `w` (R63); 4 where the opcode
selects no command. -/
def packetLength (w : Nat) : Nat :=
  match opcodeOf (BitVec.ofNat 4 (w % 16)) with
  | some .init => 4
  | some .finish => 4
  | some .hmacFinish => 4
  | some .update => 8 + (w / 2 ^ 32) % 2 ^ 32
  | some .digest => 8 + (w / 2 ^ 32) % 2 ^ 32
  | some .hmacInit => 8 + (w / 2 ^ 32) % 2 ^ 32
  | some .hmacUpdate => 8 + (w / 2 ^ 32) % 2 ^ 32
  | some .hmac => 12 + (w / 2 ^ 32) % 2 ^ 32 + (w / 2 ^ 64) % 2 ^ 32
  | none => 4

/-- The packet of a table word: the `nbits` bits of `w`, every bit above them 0. -/
def packetOfWord (nbits w : Nat) : List Byte :=
  numberBytes (packetLength (w % 2 ^ nbits)) (w % 2 ^ nbits)

/-- What a word of spec/opcode_table.json stands for. A command row is a 32-bit header; a step row's match and mask are over
the 6-bit step index (R74), so a row of fewer than 32 bits is an index, its six low bits (notes/assumptions/9.md). -/
def fetchedOfWord (nbits w : Nat) : Fetched :=
  if nbits < 32 then .index (BitVec.ofNat 6 w) else .packet (packetOfWord nbits w)

/-- The instruction the decoder reads from a table word, on the test instance. -/
def decodeTableWord (nbits w : Nat) : Option Instr :=
  match decode Config.testInstance (fetchedOfWord nbits w) with
  | .ok i => some i
  | .error _ => none

end Sys2Proof
end

