-- ==== Sys2Proof/Machine/State.lean ====
section
/-!
DEFINITION. The state of the engine, all of it (10_state.md R10): the Digest and HMAC Context slots, the sticky `FAULT` flag,
the compression core's working registers and step index, the two streams to and from the host, and the model's own draw counter
for free values. Then the reasons a step can stop, and the state after reset (R31, R230).
-/

namespace Sys2Proof.Machine

/-- Four words: the working registers `x[0..3]` = `a, b, c, d` (R12) or the running state words `H[0..3]` (R15). -/
structure Quad where
  a : Word
  b : Word
  c : Word
  d : Word
  deriving DecidableEq, Repr

/-- The lifecycle of a Digest Context (R19), encoded 0, 1, 2. -/
inductive Phase where
  | uninit
  | active
  | terminal
  deriving DecidableEq, Repr

/-- A 64-byte store (R40: a context's `BUF`, an HMAC Context's `OPAD`): the cells that do not read as an unlisted one does, by
rising byte index. -/
abbrev Memory := List Host.Cell

/-- A Digest Context (R15 to R19). -/
structure DigestCtx where
  /-- `H[0..3]`, the running state words, R15 -/
  h : Quad
  /-- `LO`, the low word of the message byte count, R16 -/
  lo : Word
  /-- `HI`, the high word of the message byte count, R16 -/
  hi : Word
  /-- `BUF[0..63]`, the input buffer, R17 -/
  buf : Memory
  /-- `FILL`, the fill count, R18 (the instant value 64 inside an `ABSORB` is `State.job`, notes/assumptions/6.md) -/
  fill : BitVec 6
  /-- `PHASE`, R19 -/
  phase : Phase
  deriving DecidableEq, Repr

/-- An HMAC Context (R22 to R25). -/
structure HmacCtx where
  /-- `INNER`, R22, R24 -/
  inner : DigestCtx
  /-- `OUTER`, R22, R24 -/
  outer : DigestCtx
  /-- `OPAD[0..63]`, R23 -/
  opad : Memory
  deriving DecidableEq, Repr

/-- A Digest Context of the engine, by its place: `DC[n]`, `HC[n].INNER`, `HC[n].OUTER` (R21, R22). -/
inductive CtxRef where
  | digest (n : Nat)
  | inner (n : Nat)
  | outer (n : Nat)
  deriving DecidableEq, Repr

/-- What the host does to the engine (R8, R242): it sends a command packet, or it asserts reset. -/
inductive HostEvent where
  | packet (bytes : List Byte)
  | reset
  deriving DecidableEq, Repr

/-- The state of the engine. -/
structure State where
  /-- `DC[0..N_DCTX-1]`, R21; the length of the list is `N_DCTX` (R5) -/
  dc : List DigestCtx
  /-- `HC[0..N_HCTX-1]`, R22; the length of the list is `N_HCTX` (R5) -/
  hc : List HmacCtx
  /-- `FAULT`, the sticky flag, R26 -/
  fault : Bool
  /-- `x[0..3]`, the working registers of the compression core, R12 -/
  x : Quad
  /-- `t`, the step index, R13 -/
  t : BitVec 6
  /-- the context whose `COMPRESS` is in progress; its `BUF` is the block (R14), and none outside a `COMPRESS` (R12) -/
  job : Option CtxRef
  /-- what the host has sent and the engine has not yet taken, oldest first: the command stream (R60) and reset (R230) -/
  inputs : List HostEvent
  /-- the response packets the host has not yet taken, oldest first (R60, R68) -/
  responses : List (List Byte)
  /-- the model's own: how many free values have been drawn (notes/assumptions/3.md) -/
  free : Nat
  deriving DecidableEq, Repr

/-- Why a step stops. Neither is reached from a state that meets `State.Inv` (Sys2Proof/Safety.lean). -/
inductive Fault where
  /-- Raised by the 48 `STEP` meanings where no `COMPRESS` is in progress, or where the one in progress names a context the
  engine does not have: no step is selected there ("No step can be issued by the host", 41_compression_steps.md; R74), and
  there is no block to read. Safe: the model stops where the hardware executes nothing. -/
  | stepOutsideCompress
  /-- Raised by `step` where a `COMPRESS` is in progress and the step index is 49 to 63 ("49 to 63 never occur", R74), or is 48
  and the context does not exist. Safe: the hardware has no such state. -/
  | noStepSelected
  deriving DecidableEq, Repr

/-- Why an instruction has no meaning. -/
inductive Refusal where
  /-- Raised by `exec` for an instruction the model does not give a meaning to yet, by its mnemonic. Safe. None is left. -/
  | notModelled (mnemonic : String)
  deriving DecidableEq, Repr

/-- The slot counts of this engine (R5). -/
def State.config (s : State) : Config := { nDctx := s.dc.length, nHctx := s.hc.length }

/-- A Digest Context as reset leaves it (R31): `PHASE = UNINIT`; every other field is unspecified there, and is 0 here
(notes/assumptions/2.md). -/
def DigestCtx.reset : DigestCtx :=
  { h := { a := 0, b := 0, c := 0, d := 0 }, lo := 0, hi := 0, buf := [], fill := 0, phase := .uninit }

/-- An HMAC Context as reset leaves it (R31): both phases `UNINIT`; the rest is unspecified there, and is 0 here
(notes/assumptions/2.md). -/
def HmacCtx.reset : HmacCtx := { inner := DigestCtx.reset, outer := DigestCtx.reset, opad := [] }

/-- The state right after reset (R31, R230) of an engine with the slot counts `cfg`: `FAULT = 0`, every `PHASE` `UNINIT`, both
streams empty, the engine idle. `x` and `t` are unspecified there, and are 0 here (notes/assumptions/2.md). -/
def State.resetOf (cfg : Config) : State :=
  { dc := List.replicate cfg.nDctx DigestCtx.reset
    hc := List.replicate cfg.nHctx HmacCtx.reset
    fault := false
    x := { a := 0, b := 0, c := 0, d := 0 }
    t := 0
    job := none
    inputs := []
    responses := []
    free := 0 }

/-- The state right after reset of the test instance (R5). -/
def State.reset : State := State.resetOf Config.testInstance

end Sys2Proof.Machine
end

