-- ==== Sys2Proof/Machine/Flags.lean ====
section
/-!
DEFINITION. The flags and the status word: `FAULT` (R26), the codes (R202), the status word of a response (R70), the phase
check (R206). The engine has no arithmetic flags (R99).
-/

namespace Sys2Proof.Machine

/-- R202: the number of an error code. -/
def errNumber (e : ErrCode) : BitVec 4 :=
  match e with
  | .illegalOp => 1
  | .reserved => 2
  | .ctxIndex => 3
  | .ctxState => 4
  | .framing => 5

/-- R202: the number of `OK`. -/
def okNumber : BitVec 4 := 0

/-- R70: the status word, `CODE` in bits 3:0, `FAULT` in bit 4, the rest 0. -/
def statusWord (code : BitVec 4) (fault : Bool) : Word := code.setWidth 32 ||| (if fault then 0x10 else 0)

/-- R206: whether `UPDATE`, `FINISH` and their HMAC forms may run on a context. -/
def isActive (c : DigestCtx) : Bool := c.phase == .active

end Sys2Proof.Machine
end

