-- ==== Sys2Proof/Machine/Ops.lean ====
section
/-!
DEFINITION. The named operations over the stores, the slots and the streams: reading and writing one byte (R41, R42), the slots
of a command (R21, R22), the response (R68), raising an error (R203), the end of a `COMPRESS` (R12, R13), and the reset event
(R230).
-/

namespace Sys2Proof.Machine

/-! ### 64-byte stores -/

/-- What a byte that is not listed reads as: every reset value of a store is unspecified (R31) and is named 0
(notes/assumptions/2.md). -/
def Memory.unlisted : Byte := 0

/-- `MemRead(addr, 1)`, R41. -/
def Memory.read (m : Memory) (addr : Nat) : Byte :=
  match m with
  | [] => Memory.unlisted
  | cell :: rest => if cell.1 = addr then cell.2 else Memory.read rest addr

/-- A store without the byte at `addr`. -/
def Memory.erase (m : Memory) (addr : Nat) : Memory :=
  match m with
  | [] => []
  | cell :: rest => if cell.1 = addr then Memory.erase rest addr else cell :: Memory.erase rest addr

/-- A store with a cell put in its place among those of other addresses. -/
def Memory.insert (m : Memory) (addr : Nat) (v : Byte) : Memory :=
  match m with
  | [] => [(addr, v)]
  | cell :: rest => if cell.1 < addr then cell :: Memory.insert rest addr v else (addr, v) :: cell :: rest

/-- `MemWrite(addr, 1, v)`, R42: the byte at `addr` becomes `v` and no other byte changes. -/
def Memory.write (m : Memory) (addr : Nat) (v : Byte) : Memory :=
  if v = Memory.unlisted then Memory.erase m addr else Memory.insert (Memory.erase m addr) addr v

/-- The canonical form of a 64-byte store: byte indices 0 to 63 (R40), strictly rising, no cell equal to an unlisted one. -/
abbrev Memory.wf (m : Memory) : Prop :=
  m.Pairwise (fun p q => p.1 < q.1) ∧ ∀ cell ∈ m, cell.1 < 64 ∧ cell.2 ≠ Memory.unlisted

/-- The bytes of `vs` written from index `addr` on. -/
def Memory.writeBytes (m : Memory) (addr : Nat) (vs : List Byte) : Memory :=
  match vs with
  | [] => m
  | v :: rest => Memory.writeBytes (Memory.write m addr v) (addr + 1) rest

/-- The `n` bytes from index `addr` on. -/
def Memory.readBytes (m : Memory) (addr n : Nat) : List Byte :=
  match n with
  | 0 => []
  | n + 1 => Memory.read m addr :: Memory.readBytes m (addr + 1) n

/-! ### Slots (R21, R22) -/

/-- `DC[n] <- c`. -/
def State.setDigest (s : State) (n : Nat) (c : DigestCtx) : State := { s with dc := s.dc.set n c }

/-- `HC[n] <- h`. -/
def State.setHmac (s : State) (n : Nat) (h : HmacCtx) : State := { s with hc := s.hc.set n h }

/-- The Digest Context at a place of the engine, if the engine has it. -/
def State.ctxAt (s : State) (r : CtxRef) : Option DigestCtx :=
  match r with
  | .digest n => s.dc[n]?
  | .inner n => (s.hc[n]?).map fun h => h.inner
  | .outer n => (s.hc[n]?).map fun h => h.outer

/-- The engine with another Digest Context at a place. -/
def State.setCtxAt (s : State) (r : CtxRef) (c : DigestCtx) : State :=
  match r with
  | .digest n => s.setDigest n c
  | .inner n =>
    match s.hc[n]? with
    | some h => s.setHmac n { h with inner := c }
    | none => s
  | .outer n =>
    match s.hc[n]? with
    | some h => s.setHmac n { h with outer := c }
    | none => s

/-! ### Responses and errors -/

/-- A command that ends with `OK` answers the status word and its digest bytes, if it has any (R68 to R70). -/
def State.respondOk (s : State) (digest : List Byte) : State :=
  { s with responses := s.responses ++ [le32 (statusWord okNumber s.fault) ++ digest] }

/-- `raise Err(CODE)`, R203: no slot changes, `FAULT <- 1`, and the response is the status word alone. (The packet is already
taken from the stream, and the engine goes on.) -/
def State.raise (s : State) (e : ErrCode) : State :=
  { s with fault := true, responses := s.responses ++ [le32 (statusWord (errNumber e) true)] }

/-! ### The compression core around a `COMPRESS` -/

/-- Four words that the spec leaves open (R12, U5). -/
def freeQuad (n : Nat) : Quad :=
  { a := Config.freeWord n 0, b := Config.freeWord n 1, c := Config.freeWord n 2, d := Config.freeWord n 3 }

/-- A `COMPRESS` has ended: "Outside a `COMPRESS` their value is not defined" (R12), so the working registers and the step index
hold free values from here on, the index within R13's bound (notes/assumptions/3.md). -/
def State.retireCore (s : State) : State :=
  { s with
    x := freeQuad s.free
    t := BitVec.ofNat 6 (Config.freeIndex s.free).val
    job := none
    free := s.free + 1 }

/-- The core after a command: used by it (`retireCore`) if the command ran `COMPRESS` at least once, and otherwise untouched. -/
def State.retireCoreIf (s : State) (used : Bool) : State := if used then s.retireCore else s

/-! ### Reset (R230, R231) -/

/-- The reset event: every field as R31's table has it, both streams emptied of what came before (`rest` is what the host has
sent after it), a command in progress abandoned. The slot counts stay, and so does the model's draw counter. -/
def State.resetEvent (s : State) (rest : List HostEvent) : State :=
  { State.resetOf s.config with inputs := rest, free := s.free }

/-- What stands behind the first reset in the host's events, `none` where there is no reset among them. -/
def pendingReset (es : List HostEvent) : Option (List HostEvent) :=
  match es with
  | [] => none
  | .reset :: rest => some rest
  | .packet _ :: rest => pendingReset rest

end Sys2Proof.Machine
end

