-- ==== Sys2Proof/Machine/Operands.lean ====
section
/-!
DEFINITION. The operand forms of the engine's operations: message words of a block (R14, R41), the serialised digest (R43),
and byte strings made of repeated bytes and of key and pad byte (00_scope.md section 5, R185, R186).
-/

namespace Sys2Proof.Machine

/-- `MemRead(addr, 4)`, R41: the byte at the lowest index is the least significant. -/
def Memory.read4 (m : Memory) (addr : Nat) : Word :=
  fromLe32 [m.read addr, m.read (addr + 1), m.read (addr + 2), m.read (addr + 3)]

/-- `X[k] = MemRead(4k, 4)` of the block (R14, R41). -/
def msgWord (block : Memory) (k : Nat) : Word := block.read4 (4 * k)

/-- The 16 digest bytes of four state words: bytes `4j..4j+3` are `le32(H[j])` (R43). -/
def digestBytes (h : Quad) : List Byte := le32 h.a ++ le32 h.b ++ le32 h.c ++ le32 h.d

/-- `rep(b, n)`. -/
def rep (b : Byte) (n : Nat) : List Byte := List.replicate n b

/-- `zeros(n)`. -/
def zeros (n : Nat) : List Byte := rep 0x00 n

/-- `s xor rep(b, len(s))`. -/
def xorByte (s : List Byte) (b : Byte) : List Byte := s.map fun v => v ^^^ b

/-- The block of the `COMPRESS` in progress: the `BUF` of the context it is for (R14). -/
def State.jobBlock (s : State) : Option Memory :=
  match s.job with
  | none => none
  | some r => (s.ctxAt r).map fun c => c.buf

end Sys2Proof.Machine
end

