-- ==== Sys2Proof/Machine/Compression.lean ====
section
/-!
DEFINITION. The Block Compression Core: rotation and the three round functions (R90 to R92), the 48 steps with the meaning of
each as an instruction (R110 to R157), and `COMPRESS` (R97).
-/

namespace Sys2Proof.Machine

/-! ### Functions -/

/-- `rotl32(v, s)`, `1 <= s <= 31` (00_scope.md section 5). -/
def rotl32 (v : Word) (s : Nat) : Word := (v <<< s) ||| (v >>> (32 - s))

/-- `F(x, y, z) = (x & y) | (~x & z)`, R90. -/
def roundF (x y z : Word) : Word := (x &&& y) ||| (~~~x &&& z)

/-- `G(x, y, z) = (x & y) | (x & z) | (y & z)`, R91. -/
def roundG (x y z : Word) : Word := (x &&& y) ||| (x &&& z) ||| (y &&& z)

/-- `H_(x, y, z) = x ^ y ^ z`, R92. -/
def roundH (x y z : Word) : Word := x ^^^ y ^^^ z

/-- `IV[0..3]`, R11. -/
def initialWords : Quad := { a := 0x67452301, b := 0xEFCDAB89, c := 0x98BADCFE, d := 0x10325476 }

/-! ### The steps on the working registers: `X` gives the block's message words -/

/-- `STEP 0`, R110. -/
def coreStep0 (X : Nat → Word) (x : Quad) : Quad :=
  { x with a := rotl32 (x.a + roundF x.b x.c x.d + X 0) 3 }

/-- `STEP 1`, R111. -/
def coreStep1 (X : Nat → Word) (x : Quad) : Quad :=
  { x with d := rotl32 (x.d + roundF x.a x.b x.c + X 1) 7 }

/-- `STEP 2`, R112. -/
def coreStep2 (X : Nat → Word) (x : Quad) : Quad :=
  { x with c := rotl32 (x.c + roundF x.d x.a x.b + X 2) 11 }

/-- `STEP 3`, R113. -/
def coreStep3 (X : Nat → Word) (x : Quad) : Quad :=
  { x with b := rotl32 (x.b + roundF x.c x.d x.a + X 3) 19 }

/-- `STEP 4`, R114. -/
def coreStep4 (X : Nat → Word) (x : Quad) : Quad :=
  { x with a := rotl32 (x.a + roundF x.b x.c x.d + X 4) 3 }

/-- `STEP 5`, R115. -/
def coreStep5 (X : Nat → Word) (x : Quad) : Quad :=
  { x with d := rotl32 (x.d + roundF x.a x.b x.c + X 5) 7 }

/-- `STEP 6`, R116. -/
def coreStep6 (X : Nat → Word) (x : Quad) : Quad :=
  { x with c := rotl32 (x.c + roundF x.d x.a x.b + X 6) 11 }

/-- `STEP 7`, R117. -/
def coreStep7 (X : Nat → Word) (x : Quad) : Quad :=
  { x with b := rotl32 (x.b + roundF x.c x.d x.a + X 7) 19 }

/-- `STEP 8`, R118. -/
def coreStep8 (X : Nat → Word) (x : Quad) : Quad :=
  { x with a := rotl32 (x.a + roundF x.b x.c x.d + X 8) 3 }

/-- `STEP 9`, R119. -/
def coreStep9 (X : Nat → Word) (x : Quad) : Quad :=
  { x with d := rotl32 (x.d + roundF x.a x.b x.c + X 9) 7 }

/-- `STEP 10`, R120. -/
def coreStep10 (X : Nat → Word) (x : Quad) : Quad :=
  { x with c := rotl32 (x.c + roundF x.d x.a x.b + X 10) 11 }

/-- `STEP 11`, R121. -/
def coreStep11 (X : Nat → Word) (x : Quad) : Quad :=
  { x with b := rotl32 (x.b + roundF x.c x.d x.a + X 11) 19 }

/-- `STEP 12`, R122. -/
def coreStep12 (X : Nat → Word) (x : Quad) : Quad :=
  { x with a := rotl32 (x.a + roundF x.b x.c x.d + X 12) 3 }

/-- `STEP 13`, R123. -/
def coreStep13 (X : Nat → Word) (x : Quad) : Quad :=
  { x with d := rotl32 (x.d + roundF x.a x.b x.c + X 13) 7 }

/-- `STEP 14`, R124. -/
def coreStep14 (X : Nat → Word) (x : Quad) : Quad :=
  { x with c := rotl32 (x.c + roundF x.d x.a x.b + X 14) 11 }

/-- `STEP 15`, R125. -/
def coreStep15 (X : Nat → Word) (x : Quad) : Quad :=
  { x with b := rotl32 (x.b + roundF x.c x.d x.a + X 15) 19 }

/-- `STEP 16`, R126. -/
def coreStep16 (X : Nat → Word) (x : Quad) : Quad :=
  { x with a := rotl32 (x.a + roundG x.b x.c x.d + X 0 + 0x5A827999) 3 }

/-- `STEP 17`, R127. -/
def coreStep17 (X : Nat → Word) (x : Quad) : Quad :=
  { x with d := rotl32 (x.d + roundG x.a x.b x.c + X 4 + 0x5A827999) 5 }

/-- `STEP 18`, R128. -/
def coreStep18 (X : Nat → Word) (x : Quad) : Quad :=
  { x with c := rotl32 (x.c + roundG x.d x.a x.b + X 8 + 0x5A827999) 9 }

/-- `STEP 19`, R129. -/
def coreStep19 (X : Nat → Word) (x : Quad) : Quad :=
  { x with b := rotl32 (x.b + roundG x.c x.d x.a + X 12 + 0x5A827999) 13 }

/-- `STEP 20`, R130. -/
def coreStep20 (X : Nat → Word) (x : Quad) : Quad :=
  { x with a := rotl32 (x.a + roundG x.b x.c x.d + X 1 + 0x5A827999) 3 }

/-- `STEP 21`, R131. -/
def coreStep21 (X : Nat → Word) (x : Quad) : Quad :=
  { x with d := rotl32 (x.d + roundG x.a x.b x.c + X 5 + 0x5A827999) 5 }

/-- `STEP 22`, R132. -/
def coreStep22 (X : Nat → Word) (x : Quad) : Quad :=
  { x with c := rotl32 (x.c + roundG x.d x.a x.b + X 9 + 0x5A827999) 9 }

/-- `STEP 23`, R133. -/
def coreStep23 (X : Nat → Word) (x : Quad) : Quad :=
  { x with b := rotl32 (x.b + roundG x.c x.d x.a + X 13 + 0x5A827999) 13 }

/-- `STEP 24`, R134. -/
def coreStep24 (X : Nat → Word) (x : Quad) : Quad :=
  { x with a := rotl32 (x.a + roundG x.b x.c x.d + X 2 + 0x5A827999) 3 }

/-- `STEP 25`, R135. -/
def coreStep25 (X : Nat → Word) (x : Quad) : Quad :=
  { x with d := rotl32 (x.d + roundG x.a x.b x.c + X 6 + 0x5A827999) 5 }

/-- `STEP 26`, R136. -/
def coreStep26 (X : Nat → Word) (x : Quad) : Quad :=
  { x with c := rotl32 (x.c + roundG x.d x.a x.b + X 10 + 0x5A827999) 9 }

/-- `STEP 27`, R137. -/
def coreStep27 (X : Nat → Word) (x : Quad) : Quad :=
  { x with b := rotl32 (x.b + roundG x.c x.d x.a + X 14 + 0x5A827999) 13 }

/-- `STEP 28`, R138. -/
def coreStep28 (X : Nat → Word) (x : Quad) : Quad :=
  { x with a := rotl32 (x.a + roundG x.b x.c x.d + X 3 + 0x5A827999) 3 }

/-- `STEP 29`, R139. -/
def coreStep29 (X : Nat → Word) (x : Quad) : Quad :=
  { x with d := rotl32 (x.d + roundG x.a x.b x.c + X 7 + 0x5A827999) 5 }

/-- `STEP 30`, R140. -/
def coreStep30 (X : Nat → Word) (x : Quad) : Quad :=
  { x with c := rotl32 (x.c + roundG x.d x.a x.b + X 11 + 0x5A827999) 9 }

/-- `STEP 31`, R141. -/
def coreStep31 (X : Nat → Word) (x : Quad) : Quad :=
  { x with b := rotl32 (x.b + roundG x.c x.d x.a + X 15 + 0x5A827999) 13 }

/-- `STEP 32`, R142. -/
def coreStep32 (X : Nat → Word) (x : Quad) : Quad :=
  { x with a := rotl32 (x.a + roundH x.b x.c x.d + X 0 + 0x6ED9EBA1) 3 }

/-- `STEP 33`, R143. -/
def coreStep33 (X : Nat → Word) (x : Quad) : Quad :=
  { x with d := rotl32 (x.d + roundH x.a x.b x.c + X 8 + 0x6ED9EBA1) 9 }

/-- `STEP 34`, R144. -/
def coreStep34 (X : Nat → Word) (x : Quad) : Quad :=
  { x with c := rotl32 (x.c + roundH x.d x.a x.b + X 4 + 0x6ED9EBA1) 11 }

/-- `STEP 35`, R145. -/
def coreStep35 (X : Nat → Word) (x : Quad) : Quad :=
  { x with b := rotl32 (x.b + roundH x.c x.d x.a + X 12 + 0x6ED9EBA1) 15 }

/-- `STEP 36`, R146. -/
def coreStep36 (X : Nat → Word) (x : Quad) : Quad :=
  { x with a := rotl32 (x.a + roundH x.b x.c x.d + X 2 + 0x6ED9EBA1) 3 }

/-- `STEP 37`, R147. -/
def coreStep37 (X : Nat → Word) (x : Quad) : Quad :=
  { x with d := rotl32 (x.d + roundH x.a x.b x.c + X 10 + 0x6ED9EBA1) 9 }

/-- `STEP 38`, R148. -/
def coreStep38 (X : Nat → Word) (x : Quad) : Quad :=
  { x with c := rotl32 (x.c + roundH x.d x.a x.b + X 6 + 0x6ED9EBA1) 11 }

/-- `STEP 39`, R149. -/
def coreStep39 (X : Nat → Word) (x : Quad) : Quad :=
  { x with b := rotl32 (x.b + roundH x.c x.d x.a + X 14 + 0x6ED9EBA1) 15 }

/-- `STEP 40`, R150. -/
def coreStep40 (X : Nat → Word) (x : Quad) : Quad :=
  { x with a := rotl32 (x.a + roundH x.b x.c x.d + X 1 + 0x6ED9EBA1) 3 }

/-- `STEP 41`, R151. -/
def coreStep41 (X : Nat → Word) (x : Quad) : Quad :=
  { x with d := rotl32 (x.d + roundH x.a x.b x.c + X 9 + 0x6ED9EBA1) 9 }

/-- `STEP 42`, R152. -/
def coreStep42 (X : Nat → Word) (x : Quad) : Quad :=
  { x with c := rotl32 (x.c + roundH x.d x.a x.b + X 5 + 0x6ED9EBA1) 11 }

/-- `STEP 43`, R153. -/
def coreStep43 (X : Nat → Word) (x : Quad) : Quad :=
  { x with b := rotl32 (x.b + roundH x.c x.d x.a + X 13 + 0x6ED9EBA1) 15 }

/-- `STEP 44`, R154. -/
def coreStep44 (X : Nat → Word) (x : Quad) : Quad :=
  { x with a := rotl32 (x.a + roundH x.b x.c x.d + X 3 + 0x6ED9EBA1) 3 }

/-- `STEP 45`, R155. -/
def coreStep45 (X : Nat → Word) (x : Quad) : Quad :=
  { x with d := rotl32 (x.d + roundH x.a x.b x.c + X 11 + 0x6ED9EBA1) 9 }

/-- `STEP 46`, R156. -/
def coreStep46 (X : Nat → Word) (x : Quad) : Quad :=
  { x with c := rotl32 (x.c + roundH x.d x.a x.b + X 7 + 0x6ED9EBA1) 11 }

/-- `STEP 47`, R157. -/
def coreStep47 (X : Nat → Word) (x : Quad) : Quad :=
  { x with b := rotl32 (x.b + roundH x.c x.d x.a + X 15 + 0x6ED9EBA1) 15 }

/-- The 16 steps of round 1, in order (R96). -/
def round1Steps : List ((Nat → Word) → Quad → Quad) :=
  [coreStep0, coreStep1, coreStep2, coreStep3,
   coreStep4, coreStep5, coreStep6, coreStep7,
   coreStep8, coreStep9, coreStep10, coreStep11,
   coreStep12, coreStep13, coreStep14, coreStep15]

/-- The 16 steps of round 2, in order (R96). -/
def round2Steps : List ((Nat → Word) → Quad → Quad) :=
  [coreStep16, coreStep17, coreStep18, coreStep19,
   coreStep20, coreStep21, coreStep22, coreStep23,
   coreStep24, coreStep25, coreStep26, coreStep27,
   coreStep28, coreStep29, coreStep30, coreStep31]

/-- The 16 steps of round 3, in order (R96). -/
def round3Steps : List ((Nat → Word) → Quad → Quad) :=
  [coreStep32, coreStep33, coreStep34, coreStep35,
   coreStep36, coreStep37, coreStep38, coreStep39,
   coreStep40, coreStep41, coreStep42, coreStep43,
   coreStep44, coreStep45, coreStep46, coreStep47]

/-- Steps run one after the other on the working registers. -/
def runSteps (fs : List ((Nat → Word) → Quad → Quad)) (X : Nat → Word) (x : Quad) : Quad :=
  match fs with
  | [] => x
  | f :: rest => runSteps rest X (f X x)

/-- The feed-forward of R97: the word-wise sum of the input state and the working registers. -/
def feedForward (s x : Quad) : Quad := { a := s.a + x.a, b := s.b + x.b, c := s.c + x.c, d := s.d + x.d }

/-- The 48 steps in the fixed order t = 0, ..., 47 (R100). -/
def allSteps (X : Nat → Word) (x : Quad) : Quad :=
  runSteps round3Steps X (runSteps round2Steps X (runSteps round1Steps X x))

/-- `COMPRESS(S, B)` given the message words of `B` (R97): seed the working registers from `S`, run the 48 steps, add. -/
def compressWords (s : Quad) (X : Nat → Word) : Quad := feedForward s (allSteps X s)

/-- `COMPRESS(S, B)`, R97. -/
def compress (s : Quad) (block : Memory) : Quad := compressWords s (msgWord block)

/-! ### The core as a machine of steps -/

/-- The start of a `COMPRESS` for the context at `r` (R97): `x[j] <- H[j]`, `t <- 0`. -/
def State.beginCompress (s : State) (r : CtxRef) : State :=
  match s.ctxAt r with
  | some c => { s with x := c.h, t := 0, job := some r }
  | none => s

/-- One step as an instruction (R94): it needs a `COMPRESS` in progress, whose block it reads; it writes one working register
and the step index. -/
def runStep (f : (Nat → Word) → Quad → Quad) (tNext : BitVec 6) (s : State) : Host.Outcome State Fault Refusal :=
  match s.jobBlock with
  | none => .fault .stepOutsideCompress
  | some block => .next { s with x := f (msgWord block) s.x, t := tNext }

/-- The end of the sequence, `t = 48` (R13, R97): the feed-forward into the context's `H`, `FILL <- 0` (R160), and the core is
free again. -/
def endCompress (s : State) (r : CtxRef) : Host.Outcome State Fault Refusal :=
  match s.ctxAt r with
  | none => .fault .noStepSelected
  | some c => .next (s.setCtxAt r { c with h := feedForward c.h s.x, fill := 0 }).retireCore

/-! ### The meanings of the 48 steps -/

/-- `STEP 0`, R110: then `t <- 1`. -/
def execStep0 (s : State) : Host.Outcome State Fault Refusal := runStep coreStep0 1 s

/-- `STEP 1`, R111: then `t <- 2`. -/
def execStep1 (s : State) : Host.Outcome State Fault Refusal := runStep coreStep1 2 s

/-- `STEP 2`, R112: then `t <- 3`. -/
def execStep2 (s : State) : Host.Outcome State Fault Refusal := runStep coreStep2 3 s

/-- `STEP 3`, R113: then `t <- 4`. -/
def execStep3 (s : State) : Host.Outcome State Fault Refusal := runStep coreStep3 4 s

/-- `STEP 4`, R114: then `t <- 5`. -/
def execStep4 (s : State) : Host.Outcome State Fault Refusal := runStep coreStep4 5 s

/-- `STEP 5`, R115: then `t <- 6`. -/
def execStep5 (s : State) : Host.Outcome State Fault Refusal := runStep coreStep5 6 s

/-- `STEP 6`, R116: then `t <- 7`. -/
def execStep6 (s : State) : Host.Outcome State Fault Refusal := runStep coreStep6 7 s

/-- `STEP 7`, R117: then `t <- 8`. -/
def execStep7 (s : State) : Host.Outcome State Fault Refusal := runStep coreStep7 8 s

/-- `STEP 8`, R118: then `t <- 9`. -/
def execStep8 (s : State) : Host.Outcome State Fault Refusal := runStep coreStep8 9 s

/-- `STEP 9`, R119: then `t <- 10`. -/
def execStep9 (s : State) : Host.Outcome State Fault Refusal := runStep coreStep9 10 s

/-- `STEP 10`, R120: then `t <- 11`. -/
def execStep10 (s : State) : Host.Outcome State Fault Refusal := runStep coreStep10 11 s

/-- `STEP 11`, R121: then `t <- 12`. -/
def execStep11 (s : State) : Host.Outcome State Fault Refusal := runStep coreStep11 12 s

/-- `STEP 12`, R122: then `t <- 13`. -/
def execStep12 (s : State) : Host.Outcome State Fault Refusal := runStep coreStep12 13 s

/-- `STEP 13`, R123: then `t <- 14`. -/
def execStep13 (s : State) : Host.Outcome State Fault Refusal := runStep coreStep13 14 s

/-- `STEP 14`, R124: then `t <- 15`. -/
def execStep14 (s : State) : Host.Outcome State Fault Refusal := runStep coreStep14 15 s

/-- `STEP 15`, R125: then `t <- 16`. -/
def execStep15 (s : State) : Host.Outcome State Fault Refusal := runStep coreStep15 16 s

/-- `STEP 16`, R126: then `t <- 17`. -/
def execStep16 (s : State) : Host.Outcome State Fault Refusal := runStep coreStep16 17 s

/-- `STEP 17`, R127: then `t <- 18`. -/
def execStep17 (s : State) : Host.Outcome State Fault Refusal := runStep coreStep17 18 s

/-- `STEP 18`, R128: then `t <- 19`. -/
def execStep18 (s : State) : Host.Outcome State Fault Refusal := runStep coreStep18 19 s

/-- `STEP 19`, R129: then `t <- 20`. -/
def execStep19 (s : State) : Host.Outcome State Fault Refusal := runStep coreStep19 20 s

/-- `STEP 20`, R130: then `t <- 21`. -/
def execStep20 (s : State) : Host.Outcome State Fault Refusal := runStep coreStep20 21 s

/-- `STEP 21`, R131: then `t <- 22`. -/
def execStep21 (s : State) : Host.Outcome State Fault Refusal := runStep coreStep21 22 s

/-- `STEP 22`, R132: then `t <- 23`. -/
def execStep22 (s : State) : Host.Outcome State Fault Refusal := runStep coreStep22 23 s

/-- `STEP 23`, R133: then `t <- 24`. -/
def execStep23 (s : State) : Host.Outcome State Fault Refusal := runStep coreStep23 24 s

/-- `STEP 24`, R134: then `t <- 25`. -/
def execStep24 (s : State) : Host.Outcome State Fault Refusal := runStep coreStep24 25 s

/-- `STEP 25`, R135: then `t <- 26`. -/
def execStep25 (s : State) : Host.Outcome State Fault Refusal := runStep coreStep25 26 s

/-- `STEP 26`, R136: then `t <- 27`. -/
def execStep26 (s : State) : Host.Outcome State Fault Refusal := runStep coreStep26 27 s

/-- `STEP 27`, R137: then `t <- 28`. -/
def execStep27 (s : State) : Host.Outcome State Fault Refusal := runStep coreStep27 28 s

/-- `STEP 28`, R138: then `t <- 29`. -/
def execStep28 (s : State) : Host.Outcome State Fault Refusal := runStep coreStep28 29 s

/-- `STEP 29`, R139: then `t <- 30`. -/
def execStep29 (s : State) : Host.Outcome State Fault Refusal := runStep coreStep29 30 s

/-- `STEP 30`, R140: then `t <- 31`. -/
def execStep30 (s : State) : Host.Outcome State Fault Refusal := runStep coreStep30 31 s

/-- `STEP 31`, R141: then `t <- 32`. -/
def execStep31 (s : State) : Host.Outcome State Fault Refusal := runStep coreStep31 32 s

/-- `STEP 32`, R142: then `t <- 33`. -/
def execStep32 (s : State) : Host.Outcome State Fault Refusal := runStep coreStep32 33 s

/-- `STEP 33`, R143: then `t <- 34`. -/
def execStep33 (s : State) : Host.Outcome State Fault Refusal := runStep coreStep33 34 s

/-- `STEP 34`, R144: then `t <- 35`. -/
def execStep34 (s : State) : Host.Outcome State Fault Refusal := runStep coreStep34 35 s

/-- `STEP 35`, R145: then `t <- 36`. -/
def execStep35 (s : State) : Host.Outcome State Fault Refusal := runStep coreStep35 36 s

/-- `STEP 36`, R146: then `t <- 37`. -/
def execStep36 (s : State) : Host.Outcome State Fault Refusal := runStep coreStep36 37 s

/-- `STEP 37`, R147: then `t <- 38`. -/
def execStep37 (s : State) : Host.Outcome State Fault Refusal := runStep coreStep37 38 s

/-- `STEP 38`, R148: then `t <- 39`. -/
def execStep38 (s : State) : Host.Outcome State Fault Refusal := runStep coreStep38 39 s

/-- `STEP 39`, R149: then `t <- 40`. -/
def execStep39 (s : State) : Host.Outcome State Fault Refusal := runStep coreStep39 40 s

/-- `STEP 40`, R150: then `t <- 41`. -/
def execStep40 (s : State) : Host.Outcome State Fault Refusal := runStep coreStep40 41 s

/-- `STEP 41`, R151: then `t <- 42`. -/
def execStep41 (s : State) : Host.Outcome State Fault Refusal := runStep coreStep41 42 s

/-- `STEP 42`, R152: then `t <- 43`. -/
def execStep42 (s : State) : Host.Outcome State Fault Refusal := runStep coreStep42 43 s

/-- `STEP 43`, R153: then `t <- 44`. -/
def execStep43 (s : State) : Host.Outcome State Fault Refusal := runStep coreStep43 44 s

/-- `STEP 44`, R154: then `t <- 45`. -/
def execStep44 (s : State) : Host.Outcome State Fault Refusal := runStep coreStep44 45 s

/-- `STEP 45`, R155: then `t <- 46`. -/
def execStep45 (s : State) : Host.Outcome State Fault Refusal := runStep coreStep45 46 s

/-- `STEP 46`, R156: then `t <- 47`. -/
def execStep46 (s : State) : Host.Outcome State Fault Refusal := runStep coreStep46 47 s

/-- `STEP 47`, R157: then `t <- 48`. -/
def execStep47 (s : State) : Host.Outcome State Fault Refusal := runStep coreStep47 48 s

end Sys2Proof.Machine
end

