-- ==== Sys2Proof/Machine/Accumulator.lean ====
section
/-!
DEFINITION. The Streaming Accumulator (42_accumulator.md): `ABSORB` and the block scheduler (R160), the length counter (R163),
the padding and the bit length (R164, R165), and the meanings of `INIT`, `UPDATE` and `FINISH`.
-/

namespace Sys2Proof.Machine

/-- `ABSORB(c, v)`, R160: the byte goes to `BUF[FILL]`; when the buffer holds 64 bytes it is compressed and emptied. -/
def absorb (c : DigestCtx) (v : Byte) : DigestCtx :=
  let buf := c.buf.write c.fill.toNat v
  if c.fill.toNat + 1 = 64 then { c with buf := buf, h := compress c.h buf, fill := 0 }
  else { c with buf := buf, fill := c.fill + 1 }

/-- The bytes of a string absorbed in order (R162). -/
def absorbAll (c : DigestCtx) (data : List Byte) : DigestCtx :=
  match data with
  | [] => c
  | v :: rest => absorbAll (absorb c v) rest

/-- R163: `LEN` added to the counter `HI:LO`, with the carry out of the low word. -/
def addLength (c : DigestCtx) (n : Word) : DigestCtx :=
  let lo := c.lo + n
  if lo < n then { c with lo := lo, hi := c.hi + 1 } else { c with lo := lo }

/-- R165: `BLO`, the low word of the bit length. -/
def bitLengthLo (c : DigestCtx) : Word := c.lo <<< 3

/-- R165: `BHI`, the high word of the bit length. -/
def bitLengthHi (c : DigestCtx) : Word := (c.hi <<< 3) ||| (c.lo >>> 29)

/-- R164: `while c.FILL != 56: ABSORB(c, 0x00)`, at most `n` times. -/
def padZeros (n : Nat) (c : DigestCtx) : DigestCtx :=
  match n with
  | 0 => c
  | n + 1 => if c.fill.toNat = 56 then c else padZeros n (absorb c 0x00)

/-- The body of `INIT`, R161. `BUF` is not written. -/
def initOp (c : DigestCtx) : DigestCtx :=
  { c with h := initialWords, lo := 0, hi := 0, fill := 0, phase := .active }

/-- The body of `UPDATE`, R162, on an active context. -/
def updateOp (c : DigestCtx) (data : List Byte) : DigestCtx :=
  absorbAll (addLength c (BitVec.ofNat 32 data.length)) data

/-- The context after the body of `FINISH`, R164, on an active context: `0x80`, the zero bytes (at most 63, R166), the bit length
taken before them, low word first; then the context is terminal. -/
def finishOp (c : DigestCtx) : DigestCtx :=
  let padded := padZeros 64 (absorb c 0x80)
  let full := absorbAll (absorbAll padded (le32 (bitLengthLo c))) (le32 (bitLengthHi c))
  { full with phase := .terminal }

/-- The digest that `FINISH` returns: the state words it leaves (R164, R43). -/
def digestOf (c : DigestCtx) : List Byte := digestBytes c.h

/-- Whether absorbing `n` bytes runs `COMPRESS` (R162: `floor((FILL + LEN) / 64)` times). -/
def compresses (c : DigestCtx) (n : Nat) : Bool := decide (64 ≤ c.fill.toNat + n)

/-- `INIT`, R161: legal in every phase. -/
def execInit (ctx : BitVec 4) (s : State) : Host.Outcome State Fault Refusal :=
  match s.dc[ctx.toNat]? with
  | none => .next (s.raise .ctxIndex)
  | some c => .next ((s.setDigest ctx.toNat (initOp c)).respondOk [])

/-- `UPDATE`, R162. -/
def execUpdate (ctx : BitVec 4) (data : List Byte) (s : State) : Host.Outcome State Fault Refusal :=
  match s.dc[ctx.toNat]? with
  | none => .next (s.raise .ctxIndex)
  | some c =>
    if isActive c then
      .next (((s.setDigest ctx.toNat (updateOp c data)).retireCoreIf (compresses c data.length)).respondOk [])
    else .next (s.raise .ctxState)

/-- `FINISH`, R164. -/
def execFinish (ctx : BitVec 4) (s : State) : Host.Outcome State Fault Refusal :=
  match s.dc[ctx.toNat]? with
  | none => .next (s.raise .ctxIndex)
  | some c =>
    if isActive c then
      .next ((s.setDigest ctx.toNat (finishOp c)).retireCore.respondOk (digestOf (finishOp c)))
    else .next (s.raise .ctxState)

end Sys2Proof.Machine
end

