-- ==== Sys2Proof/Machine/OneShot.lean ====
section
/-!
DEFINITION. The One-Shot Wrapper (43_oneshot.md): a digest on a transient context (R180, R181), and the meaning of `DIGEST`.
-/

namespace Sys2Proof.Machine

/-- A transient context as a command creates it (R180, R181): `PHASE = UNINIT`. Its other fields are those of a context after
reset; no rule reads one before `INIT` or `ABSORB` has written it (R29). -/
def transientCtx : DigestCtx := DigestCtx.reset

/-- The context at the end of `init; update(data); finish` on a transient context (R180). -/
def digestRun (data : List Byte) : DigestCtx := finishOp (updateOp (initOp transientCtx) data)

/-- The digest of a byte string, by `init; update(data); finish` on a transient context (R180). -/
def md4 (data : List Byte) : List Byte := digestOf (digestRun data)

/-- `DIGEST`, R180: no slot is read or written. -/
def execDigest (data : List Byte) (s : State) : Host.Outcome State Fault Refusal :=
  .next (s.retireCore.respondOk (md4 data))

end Sys2Proof.Machine
end

