-- ==== Sys2Proof/Machine/Hmac.lean ====
section
/-!
DEFINITION. The HMAC Wrapper (44_hmac.md): the effective key and the pads (R185, R186), the bodies of the three streaming
operations (R186 to R188), and the meanings of `HMAC_INIT`, `HMAC_UPDATE`, `HMAC_FINISH` and `HMAC`.
-/

namespace Sys2Proof.Machine

/-- `K0(key)`, R185: the effective key, always 64 bytes; a key longer than 64 bytes is digested first. -/
def effectiveKey (key : List Byte) : List Byte :=
  if 64 < key.length then md4 key ++ zeros 48 else key ++ zeros (64 - key.length)

/-- `IPAD = K0 xor rep(0x36, 64)`, R186. -/
def ipadBlock (key : List Byte) : List Byte := xorByte (effectiveKey key) 0x36

/-- `K0 xor rep(0x5C, 64)`, R186. -/
def opadBlock (key : List Byte) : List Byte := xorByte (effectiveKey key) 0x5C

/-- The body of `HMAC_INIT`, R186: `OPAD` is stored whole, `INNER` is initialised and absorbs `IPAD`, `OUTER` is unchanged. -/
def hmacInitOp (h : HmacCtx) (key : List Byte) : HmacCtx :=
  { h with
    opad := h.opad.writeBytes 0 (opadBlock key)
    inner := updateOp (initOp h.inner) (ipadBlock key) }

/-- The body of `HMAC_UPDATE`, R187. -/
def hmacUpdateOp (h : HmacCtx) (data : List Byte) : HmacCtx := { h with inner := updateOp h.inner data }

/-- The body of `HMAC_FINISH`, R188: the inner digest `D`, then `OPAD || D` through a fresh `OUTER`. -/
def hmacFinishOp (h : HmacCtx) : HmacCtx :=
  let inner := finishOp h.inner
  let fed := updateOp (updateOp (initOp h.outer) (h.opad.readBytes 0 64)) (digestOf inner)
  { h with inner := inner, outer := finishOp fed }

/-- The tag that `HMAC_FINISH` returns: the digest of `OUTER` (R188). -/
def tagOf (h : HmacCtx) : List Byte := digestOf h.outer

/-- A transient HMAC context as `HMAC` creates it (R190): both phases `UNINIT`. -/
def transientHmac : HmacCtx := { inner := transientCtx, outer := transientCtx, opad := [] }

/-- The tag of a key and a message, by the three bodies on a transient HMAC context (R190). -/
def hmacMd4 (key data : List Byte) : List Byte :=
  tagOf (hmacFinishOp (hmacUpdateOp (hmacInitOp transientHmac key) data))

/-- `HMAC_INIT`, R186: legal in every phase. The pad block always runs `COMPRESS`. -/
def execHmacInit (ctx : BitVec 4) (key : List Byte) (s : State) : Host.Outcome State Fault Refusal :=
  match s.hc[ctx.toNat]? with
  | none => .next (s.raise .ctxIndex)
  | some h => .next ((s.setHmac ctx.toNat (hmacInitOp h key)).retireCore.respondOk [])

/-- `HMAC_UPDATE`, R187. -/
def execHmacUpdate (ctx : BitVec 4) (data : List Byte) (s : State) : Host.Outcome State Fault Refusal :=
  match s.hc[ctx.toNat]? with
  | none => .next (s.raise .ctxIndex)
  | some h =>
    if isActive h.inner then
      .next (((s.setHmac ctx.toNat (hmacUpdateOp h data)).retireCoreIf (compresses h.inner data.length)).respondOk [])
    else .next (s.raise .ctxState)

/-- `HMAC_FINISH`, R188. -/
def execHmacFinish (ctx : BitVec 4) (s : State) : Host.Outcome State Fault Refusal :=
  match s.hc[ctx.toNat]? with
  | none => .next (s.raise .ctxIndex)
  | some h =>
    if isActive h.inner then
      .next ((s.setHmac ctx.toNat (hmacFinishOp h)).retireCore.respondOk (tagOf (hmacFinishOp h)))
    else .next (s.raise .ctxState)

/-- `HMAC`, R190: no slot is read or written. -/
def execHmac (key : List Byte) (data : List Byte) (s : State) : Host.Outcome State Fault Refusal :=
  .next (s.retireCore.respondOk (hmacMd4 key data))

end Sys2Proof.Machine
end

