-- ==== Sys2Proof/Machine/Engine.lean ====
section
/-!
DEFINITION. What the engine does next: a pending reset (R230, R231), a step of the `COMPRESS` in progress or its end (R13, R97),
or the next command packet (R48, R60, R73); and how an instruction is placed where the engine takes its next one.
-/

namespace Sys2Proof.Machine

/-- A command packet taken from the stream (R73): a decode error is raised (R203), a command is executed. -/
def runPacket (p : List Byte) (s : State) : Host.Outcome State Fault Refusal :=
  match decodePacket s.config p with
  | .error e => .next (s.raise e)
  | .ok i => exec i s

/-- The core inside a `COMPRESS` for the context at `r` (R13): the step that `t` selects; at `t = 48` the end of the sequence;
49 to 63 never occur (R74). -/
def runCore (r : CtxRef) (s : State) : Host.Outcome State Fault Refusal :=
  match decodeStep s.t with
  | some i => exec i s
  | none => if s.t.toNat = 48 then endCompress s r else .fault .noStepSelected

/-- The engine without a reset pending: the core if a `COMPRESS` is in progress, else the oldest command, else it waits
(R230: "the engine is idle and waits for the first command packet"). -/
def runEngine (s : State) : Host.Outcome State Fault Refusal :=
  match s.job with
  | some r => runCore r s
  | none =>
    match s.inputs with
    | [] => .next s
    | .packet p :: rest => runPacket p { s with inputs := rest }
    | .reset :: rest => .next (s.resetEvent rest)

/-- One turn of the engine. Reset comes first, whatever the engine is doing (R231). -/
def engineTurn (s : State) : Host.Outcome State Fault Refusal :=
  match pendingReset s.inputs with
  | some rest => .next (s.resetEvent rest)
  | none => runEngine s

/-- Whether a host event is a packet. -/
def isPacket (e : HostEvent) : Bool :=
  match e with
  | .packet _ => true
  | .reset => false

/-- The state with an instruction where the engine takes its next one: a packet at the head of the command stream of an idle
engine with no reset pending, or a step index in a core that compresses the buffer of `DC[0]` (notes/assumptions/8.md). -/
def placeFetched (s : State) (f : Fetched) : State :=
  match f with
  | .packet p => { s with inputs := .packet p :: s.inputs.filter isPacket, job := none }
  | .index t => { s with inputs := s.inputs.filter isPacket, t := t, job := some (.digest 0) }

end Sys2Proof.Machine
end

