-- ==== Sys2Proof/Machine/Step.lean ====
section
/-!
DEFINITION. One step of the machine, and the placing of an opcode-table word where a step fetches it.
-/

namespace Sys2Proof.Machine

/-- One step: one turn of the engine (R7: one command is one atomic transition; inside a `COMPRESS` one step of the core). -/
def step (s : State) : Host.Outcome State Fault Refusal := engineTurn s

/-- The state with the instruction of an opcode-table word placed where the next step fetches it. -/
def State.withFetchWord (s : State) (nbits w : Nat) : State := placeFetched s (fetchedOfWord nbits w)

end Sys2Proof.Machine
end

