-- ==== Sys2Proof/Machine/ClosedForm.lean ====
section
/-!
DEFINITION. The closed forms the spec gives beside its procedures: the step table in components and the step formula (R93 to
R95), the padded message and `MD4(m)` (R169), and `HMAC_MD4(key, m)` (R189). The meanings do not use this file; statements hold
the meanings against it.
-/

namespace Sys2Proof.Machine

/-! ### The step table (R95) and the step formula (R94, R93) -/

/-- Register `x[i]`, R12. -/
def Quad.reg (q : Quad) (i : Nat) : Word :=
  match i with
  | 0 => q.a
  | 1 => q.b
  | 2 => q.c
  | _ => q.d

/-- `x[i] <- v`. -/
def Quad.setReg (q : Quad) (i : Nat) (v : Word) : Quad :=
  match i with
  | 0 => { q with a := v }
  | 1 => { q with b := v }
  | 2 => { q with c := v }
  | _ => { q with d := v }

/-- A number of four bits with its bits in reverse order. -/
def reverse4 (p : Nat) : Nat := 8 * (p % 2) + 4 * (p / 2 % 2) + 2 * (p / 4 % 2) + p / 8 % 2

/-- `ORDER[r][p]`, R95: in order, by columns of the 4-by-4 array of words, by bit reversal of the position. -/
def wordOrder (r p : Nat) : Nat :=
  match r with
  | 0 => p
  | 1 => 4 * (p % 4) + p / 4
  | _ => reverse4 p

/-- `SHIFT[r][p mod 4]`, R95. -/
def shiftAmount (r p : Nat) : Nat :=
  match r, p % 4 with
  | 0, 0 => 3
  | 0, 1 => 7
  | 0, 2 => 11
  | 0, _ => 19
  | 1, 0 => 3
  | 1, 1 => 5
  | 1, 2 => 9
  | 1, _ => 13
  | _, 0 => 3
  | _, 1 => 9
  | _, 2 => 11
  | _, _ => 15

/-- `K[r]`, R95, R11. -/
def roundConstant (r : Nat) : Word :=
  match r with
  | 0 => 0x00000000
  | 1 => 0x5A827999
  | _ => 0x6ED9EBA1

/-- The function of round `r`, R90 to R92. -/
def roundFunction (r : Nat) (x y z : Word) : Word :=
  match r with
  | 0 => roundF x y z
  | 1 => roundG x y z
  | _ => roundH x y z

/-- The destination of step `t`, R94: `x[(4 - (t mod 4)) mod 4]`. -/
def destReg (t : Nat) : Nat := (4 - t % 4) % 4

/-- Step `t` without moving data, R94. -/
def stepFormula (t : Nat) (X : Nat → Word) (x : Quad) : Quad :=
  let i := destReg t
  x.setReg i
    (rotl32 (x.reg i + roundFunction (t / 16) (x.reg ((i + 1) % 4)) (x.reg ((i + 2) % 4)) (x.reg ((i + 3) % 4))
        + X (wordOrder (t / 16) (t % 16)) + roundConstant (t / 16))
      (shiftAmount (t / 16) (t % 16)))

/-- Step `t` in the source's form, R93, on the four roles: update the first role, then rotate the roles. -/
def roleStep (t : Nat) (X : Nat → Word) (x : Quad) : Quad :=
  let first :=
    rotl32 (x.a + roundFunction (t / 16) x.b x.c x.d + X (wordOrder (t / 16) (t % 16)) + roundConstant (t / 16))
      (shiftAmount (t / 16) (t % 16))
  { a := x.d, b := first, c := x.b, d := x.c }

/-- The first `n` steps of a form, from step 0 on. -/
def firstSteps (form : Nat → (Nat → Word) → Quad → Quad) (n : Nat) (X : Nat → Word) (x : Quad) : Quad :=
  match n with
  | 0 => x
  | n + 1 => form n X (firstSteps form n X x)

/-! ### `MD4(m)` (R169) -/

/-- The bit length `b = (8 * L) mod 2^64` of a message of `L` bytes, R169. -/
def bitCount (len : Nat) : Nat := (8 * len) % 2 ^ 64

/-- `z = (55 - L) mod 64`, R169. -/
def zeroCount (len : Nat) : Nat := (55 + 64 - len % 64) % 64

/-- The length bytes `le32(b mod 2^32) || le32(floor(b / 2^32))`, R169. -/
def lengthBytes (len : Nat) : List Byte :=
  le32 (BitVec.ofNat 32 (bitCount len % 2 ^ 32)) ++ le32 (BitVec.ofNat 32 (bitCount len / 2 ^ 32))

/-- The padded message `P`, R169. -/
def paddedMessage (m : List Byte) : List Byte := m ++ [0x80] ++ zeros (zeroCount m.length) ++ lengthBytes m.length

/-- Message word `k` of a block given as 64 bytes, R41. -/
def blockWord (block : List Byte) (k : Nat) : Word := fromLe32 (block.drop (4 * k))

/-- The chain of R169: `S_(i+1) = COMPRESS(S_i, P_i)` over the first `n` blocks of 64 bytes. -/
def blockChain (n : Nat) (s : Quad) (p : List Byte) : Quad :=
  match n with
  | 0 => s
  | n + 1 => blockChain n (compressWords s (blockWord (p.take 64))) (p.drop 64)

/-- `MD4(m)`, R169. -/
def md4Closed (m : List Byte) : List Byte :=
  digestBytes (blockChain ((m.length + 8) / 64 + 1) initialWords (paddedMessage m))

/-! ### `HMAC_MD4(key, m)` (R185, R189) -/

/-- `K0(key)`, R185, over the closed form. -/
def effectiveKeyClosed (key : List Byte) : List Byte :=
  if 64 < key.length then md4Closed key ++ zeros 48 else key ++ zeros (64 - key.length)

/-- `HMAC_MD4(key, m)`, R189. -/
def hmacClosed (key m : List Byte) : List Byte :=
  md4Closed (xorByte (effectiveKeyClosed key) 0x5C ++ md4Closed (xorByte (effectiveKeyClosed key) 0x36 ++ m))

end Sys2Proof.Machine
end

