-- ==== Sys2Proof/Machine/HostMoves.lean ====
section
/-!
DEFINITION. The host's moves (R8, R242): it sends a packet, it asserts reset, it takes a response. They are functions on the
state beside `step`, which is the engine's move; a run alternates them in any order (notes/assumptions/7.md).
-/

namespace Sys2Proof.Machine

/-- The host sends a command packet (R60). -/
def State.hostSend (s : State) (p : List Byte) : State := { s with inputs := s.inputs ++ [.packet p] }

/-- The host asserts reset (R230). DESIGN CHOICE (notes/assumptions/7.md): the move only puts the event on the list; the engine
empties both streams at its next step, so the response stream keeps its old responses until then. -/
def State.hostReset (s : State) : State := { s with inputs := s.inputs ++ [.reset] }

/-- The host takes the oldest response, if there is one (R240: responses come back in command order).
DESIGN CHOICE (notes/assumptions/7.md): between `hostReset` and the next step it can still take a response from before the reset. -/
def State.hostReceive (s : State) : Option (List Byte) × State :=
  match s.responses with
  | [] => (none, s)
  | r :: rest => (some r, { s with responses := rest })

end Sys2Proof.Machine
end

