-- ==== Sys2Proof/Safety.lean ====
section
/-!
DEFINITION. The terms claims are made in: the invariant of the engine (R18 to R20, R24, R13), the message a context holds (R20,
R25), the response bytes of R70, sequences of commands, and when two engines look the same to their host (R30, R31).
-/

namespace Sys2Proof.Machine

/-! ### The invariant -/

/-- R20 (i), (ii): between commands an active context has `FILL = LO mod 64`, a terminal one `FILL = 0`; `BUF` keeps its
canonical form. -/
abbrev DigestCtx.Inv (c : DigestCtx) : Prop :=
  c.buf.wf ∧ (c.phase = .active → c.fill.toNat = c.lo.toNat % 64) ∧ (c.phase = .terminal → c.fill = 0)

/-- R24: `OUTER` is `UNINIT` or `TERMINAL` between commands; `OPAD` keeps its canonical form. -/
abbrev HmacCtx.Inv (h : HmacCtx) : Prop :=
  h.inner.Inv ∧ h.outer.Inv ∧ h.opad.wf ∧ h.outer.phase ≠ .active

/-- A `COMPRESS` in progress is for a context of the engine, whose buffer is full: `FILL` is at the instant value 64, whose low
six bits are 0 (R18, notes/assumptions/6.md). -/
abbrev State.JobInv (s : State) : Prop :=
  ∀ r, s.job = some r → ∃ c, s.ctxAt r = some c ∧ c.fill = 0

/-- The invariant of the engine: slot counts (R5), every context's, the step index (R13), the `COMPRESS` in progress, and
responses of 4 or 20 bytes (R68). -/
abbrev State.Inv (s : State) : Prop :=
  s.config.wf ∧ (∀ c ∈ s.dc, c.Inv) ∧ (∀ h ∈ s.hc, h.Inv) ∧ s.t.toNat ≤ 48 ∧ s.JobInv ∧
    ∀ r ∈ s.responses, r.length = 4 ∨ r.length = 20

/-- R217: no contract violation has been recorded since reset. -/
abbrev State.NoFaultRecorded (s : State) : Prop := s.fault = false

/-! ### What a command does to a context -/

/-- The 64-bit message byte count `HI * 2^32 + LO` (R16). -/
def DigestCtx.count (c : DigestCtx) : Nat := c.hi.toNat * 2 ^ 32 + c.lo.toNat

/-- `UPDATE` of `data` takes `c` to `d` (R160, R162, R163): the count grows by the length modulo 2^64, the bytes join those of
`BUF[0..FILL)`, every whole block among them is compressed in order and the rest is buffered; `BUF` changes only at the indices
the bytes are stored to. -/
abbrev DigestCtx.AbsorbsTo (c : DigestCtx) (data : List Byte) (d : DigestCtx) : Prop :=
  let all := c.buf.readBytes 0 c.fill.toNat ++ data
  d.phase = c.phase ∧ d.count = (c.count + data.length) % 2 ^ 64 ∧ d.fill.toNat = all.length % 64 ∧
    d.h = blockChain (all.length / 64) c.h all ∧
    d.buf.readBytes 0 d.fill.toNat = all.drop (64 * (all.length / 64)) ∧
    ∀ a, (∀ i, i < data.length → (c.fill.toNat + i) % 64 ≠ a) → d.buf.read a = c.buf.read a

/-- `FINISH` takes `c` to `d` (R164 to R166): `0x80`, zeros and the bit length join the buffered bytes and make one or two
blocks, which are compressed; the count stays, and `BUF` holds the last block. -/
abbrev DigestCtx.FinishesTo (c d : DigestCtx) : Prop :=
  let all := c.buf.readBytes 0 c.fill.toNat ++ [0x80] ++ zeros ((55 + 64 - c.fill.toNat) % 64) ++ lengthBytes c.count
  d.phase = .terminal ∧ d.lo = c.lo ∧ d.hi = c.hi ∧ d.fill = 0 ∧
    all.length = (if c.fill.toNat ≤ 55 then 64 else 128) ∧
    d.h = blockChain (if c.fill.toNat ≤ 55 then 1 else 2) c.h all ∧
    d.buf.readBytes 0 64 = all.drop (all.length - 64)

/-- The compression core is as it was: the working registers, the step index, the `COMPRESS` in progress (R12, R13), and the
model's draw counter (notes/assumptions/3.md). -/
abbrev State.SameCore (s t : State) : Prop := t.x = s.x ∧ t.t = s.t ∧ t.job = s.job ∧ t.free = s.free

/-! ### What a context holds -/

/-- An active context holds the message `m` (R16, R20): the counter is the length, `H` is the chain over the whole blocks, and
`BUF[0..FILL)` is what is left. -/
abbrev DigestCtx.Holds (c : DigestCtx) (m : List Byte) : Prop :=
  c.phase = .active ∧ c.count = m.length % 2 ^ 64 ∧ c.fill.toNat = m.length % 64 ∧
    c.h = blockChain (m.length / 64) initialWords m ∧
    c.buf.readBytes 0 (m.length % 64) = m.drop (64 * (m.length / 64))

/-- An active HMAC context holds the message `m` under `key` (R23, R189): `INNER` holds `IPAD || m`, and `OPAD` is the outer pad
block. -/
abbrev HmacCtx.Holds (h : HmacCtx) (key m : List Byte) : Prop :=
  h.inner.Holds (xorByte (effectiveKeyClosed key) 0x36 ++ m) ∧
    h.opad.readBytes 0 64 = xorByte (effectiveKeyClosed key) 0x5C

/-! ### Packets -/

/-- The number in the four bytes of a packet from offset `k` on, least significant first (R64). -/
def numberAt (p : List Byte) (k : Nat) : Nat :=
  (p.getD k 0).toNat + 2 ^ 8 * (p.getD (k + 1) 0).toNat + 2 ^ 16 * (p.getD (k + 2) 0).toNat +
    2 ^ 24 * (p.getD (k + 3) 0).toNat

/-- R66: a packet has exactly the length that the format of opcode `op` and its length fields give; the sums do not wrap. -/
abbrev WellFramed (op : Nat) (p : List Byte) : Prop :=
  (op = 1 ∨ op = 3 ∨ op = 7 → p.length = 4) ∧
    (op = 2 ∨ op = 4 ∨ op = 5 ∨ op = 6 → 8 ≤ p.length ∧ p.length = 8 + numberAt p 4) ∧
    (op = 8 → 12 ≤ p.length ∧ p.length = 12 + numberAt p 4 + numberAt p 8)

/-- R62: the slot index `ctx` is one that opcode `op` may name. -/
abbrev SlotNamed (cfg : Config) (op ctx : Nat) : Prop :=
  (op = 4 ∨ op = 8 → ctx = 0) ∧ (op = 1 ∨ op = 2 ∨ op = 3 → ctx < cfg.nDctx) ∧
    (op = 5 ∨ op = 6 ∨ op = 7 → ctx < cfg.nHctx)

/-- The Digest slot an instruction names (R62). -/
def digestSlotOf (i : Instr) : Option Nat :=
  match i with
  | .init ctx => some ctx.toNat
  | .update ctx _ => some ctx.toNat
  | .finish ctx => some ctx.toNat
  | _ => none

/-- The HMAC slot an instruction names (R62). -/
def hmacSlotOf (i : Instr) : Option Nat :=
  match i with
  | .hmacInit ctx _ => some ctx.toNat
  | .hmacUpdate ctx _ => some ctx.toNat
  | .hmacFinish ctx => some ctx.toNat
  | _ => none

/-- The bytes that the packets `ps` feed to Digest slot `ctx`, in order: the operands of the `UPDATE`s of that slot among them
(R168). -/
def messageTo (cfg : Config) (ctx : BitVec 4) (ps : List (List Byte)) : List Byte :=
  match ps with
  | [] => []
  | p :: rest =>
    match decodePacket cfg p with
    | .ok (.update slot data) => (if slot = ctx then data else []) ++ messageTo cfg ctx rest
    | _ => messageTo cfg ctx rest

/-! ### Responses and sequences -/

/-- The status bytes of an `OK` (R70): `00 00 00 00`, or `10 00 00 00` once `FAULT` is 1. -/
def okBytes (fault : Bool) : List Byte := [if fault then 0x10 else 0x00, 0x00, 0x00, 0x00]

/-- The status bytes of an error (R70, R202): `1c 00 00 00` with `c` its code. -/
def errBytes (e : ErrCode) : List Byte :=
  match e with
  | .illegalOp => [0x11, 0x00, 0x00, 0x00]
  | .reserved => [0x12, 0x00, 0x00, 0x00]
  | .ctxIndex => [0x13, 0x00, 0x00, 0x00]
  | .ctxState => [0x14, 0x00, 0x00, 0x00]
  | .framing => [0x15, 0x00, 0x00, 0x00]

/-- Instructions executed one after the other, stopping at the first that gives no next state (R48). -/
def execAll (is : List Instr) (s : State) : Host.Outcome State Fault Refusal :=
  match is with
  | [] => .next s
  | i :: rest =>
    match exec i s with
    | .next t => execAll rest t
    | .fault f => .fault f
    | .refused r => .refused r

/-- Whether a successful instruction returns digest bytes (R68). -/
def returnsDigest (i : Instr) : Bool :=
  match i with
  | .finish _ => true
  | .digest _ => true
  | .hmacFinish _ => true
  | .hmac _ _ => true
  | _ => false

/-! ### What the host can tell apart -/

/-- Two Digest Contexts that no later command can tell apart (R29, R30): the same phase, and where that is active the same
state words, counter, fill count and valid buffer bytes. -/
abbrev DigestCtx.Same (c d : DigestCtx) : Prop :=
  c.phase = d.phase ∧
    (c.phase = .active →
      c.h = d.h ∧ c.lo = d.lo ∧ c.hi = d.hi ∧ c.fill = d.fill ∧
        c.buf.readBytes 0 c.fill.toNat = d.buf.readBytes 0 c.fill.toNat)

/-- Two HMAC Contexts that no later command can tell apart (R24, R29, R30): `OUTER` is never read before it is initialised. -/
abbrev HmacCtx.Same (h k : HmacCtx) : Prop :=
  h.inner.Same k.inner ∧ (h.inner.phase = .active → h.opad.readBytes 0 64 = k.opad.readBytes 0 64)

/-- Two idle engines that their host cannot tell apart (R30): the working registers, the step index and the draw counter may
differ, and so may everything in a slot that no later command reads. -/
abbrev State.Same (s t : State) : Prop :=
  List.Forall₂ DigestCtx.Same s.dc t.dc ∧ List.Forall₂ HmacCtx.Same s.hc t.hc ∧ s.fault = t.fault ∧
    s.job = none ∧ t.job = none ∧ s.inputs = t.inputs ∧ s.responses = t.responses

/-- A state right after reset, whatever the fields hold that R31 leaves unspecified. -/
abbrev State.AfterReset (s : State) : Prop :=
  s.config.wf ∧ s.fault = false ∧ (∀ c ∈ s.dc, c.phase = .uninit) ∧
    (∀ h ∈ s.hc, h.inner.phase = .uninit ∧ h.outer.phase = .uninit) ∧
    s.job = none ∧ s.inputs = [] ∧ s.responses = []

end Sys2Proof.Machine
end

