-- ==== Sys2Proof/Certificates/Slice0/Obligations.lean ====
section
/-!
DEFINITION. The statements for the provers, one definition each; OBLIGATIONS.json lists them with the rules they rest on.
-/

open Sys2Proof Sys2Proof.Machine

/-- On the test instance (2 Digest slots, 1 HMAC slot), one packet of each command written out byte by byte from R61 to R67, and
three step indices, decode to the instructions they stand for. [30_encoding.md section 1, 30_encoding.md section 3,
95_test_vectors.md section 6] -/
def Obligations.WordsDecodeToTheirInstructions : Prop :=
  decode Config.testInstance (.packet [0x11, 0x00, 0x00, 0x00]) = .ok (.init 1) ∧
  decode Config.testInstance (.packet [0x12, 0x00, 0x00, 0x00, 0x03, 0x00, 0x00, 0x00, 0x61, 0x62, 0x63]) =
    .ok (.update 1 [0x61, 0x62, 0x63]) ∧
  decode Config.testInstance (.packet [0x03, 0x00, 0x00, 0x00]) = .ok (.finish 0) ∧
  decode Config.testInstance (.packet [0x04, 0x00, 0x00, 0x00, 0x01, 0x00, 0x00, 0x00, 0x61]) = .ok (.digest [0x61]) ∧
  decode Config.testInstance (.packet [0x05, 0x00, 0x00, 0x00, 0x04, 0x00, 0x00, 0x00, 0x4a, 0x65, 0x66, 0x65]) =
    .ok (.hmacInit 0 [0x4a, 0x65, 0x66, 0x65]) ∧
  decode Config.testInstance (.packet [0x06, 0x00, 0x00, 0x00, 0x01, 0x00, 0x00, 0x00, 0x78]) = .ok (.hmacUpdate 0 [0x78]) ∧
  decode Config.testInstance (.packet [0x07, 0x00, 0x00, 0x00]) = .ok (.hmacFinish 0) ∧
  decode Config.testInstance
      (.packet [0x08, 0x00, 0x00, 0x00, 0x02, 0x00, 0x00, 0x00, 0x01, 0x00, 0x00, 0x00, 0x6b, 0x65, 0x61]) =
    .ok (.hmac [0x6b, 0x65] [0x61]) ∧
  decode Config.testInstance (.index 0b000000) = .ok .step0 ∧
  decode Config.testInstance (.index 0b010101) = .ok .step21 ∧
  decode Config.testInstance (.index 0b101111) = .ok .step47

/-- For every pair of slot counts and every well-formed instruction, the eight commands with every operand the encoding admits
and the 48 steps, decode of encode gives the instruction back. [30_encoding.md sections 1 to 3, 30_encoding.md section 6] -/
def Obligations.DecodeOfEncodeIsTheInstruction : Prop :=
  ∀ (cfg : Config) (i : Instr), i.wf cfg = true → decode cfg (encode i) = .ok i

/-- For every pair of slot counts and every packet, if the decoder reads an instruction from it then the encoder gives that very
packet back, so no byte of a packet is dropped and no two packets decode to one instruction; and the instruction is well
formed. [30_encoding.md section 2, 30_encoding.md section 5] -/
def Obligations.EncodeOfDecodedIsThePacket : Prop :=
  ∀ (cfg : Config) (p : List Byte) (i : Instr), decodePacket cfg p = .ok i → encode i = .packet p ∧ i.wf cfg = true

/-- For every packet: under 4 bytes it is a framing error; then an opcode 0 or 9 to 15 is illegal; then non-zero reserved bits
are a reserved error; then a non-zero CTX of DIGEST or HMAC is a reserved error; then a slot index not below its count is an
index error; then a body that is not well framed (R66, sums of natural numbers) is a framing error; and every other packet
decodes to the instruction whose encoding it is. [R66, R72, R73] -/
def Obligations.DecodingFollowsTheProcedure : Prop :=
  ∀ (cfg : Config) (p : List Byte),
    (p.length < 4 → decodePacket cfg p = .error .framing) ∧
    (4 ≤ p.length →
      ∀ op ctx : Nat, op = (p.getD 0 0).toNat % 16 → ctx = (p.getD 0 0).toNat / 16 →
        (op = 0 ∨ 9 ≤ op → decodePacket cfg p = .error .illegalOp) ∧
        (1 ≤ op → op ≤ 8 → ¬(p.getD 1 0 = 0 ∧ p.getD 2 0 = 0 ∧ p.getD 3 0 = 0) → decodePacket cfg p = .error .reserved) ∧
        (1 ≤ op → op ≤ 8 → p.getD 1 0 = 0 → p.getD 2 0 = 0 → p.getD 3 0 = 0 →
          ((op = 4 ∨ op = 8) → ctx ≠ 0 → decodePacket cfg p = .error .reserved) ∧
          ((op = 1 ∨ op = 2 ∨ op = 3) → cfg.nDctx ≤ ctx → decodePacket cfg p = .error .ctxIndex) ∧
          ((op = 5 ∨ op = 6 ∨ op = 7) → cfg.nHctx ≤ ctx → decodePacket cfg p = .error .ctxIndex) ∧
          (SlotNamed cfg op ctx → ¬WellFramed op p → decodePacket cfg p = .error .framing) ∧
          (SlotNamed cfg op ctx → WellFramed op p → ∃ i, decodePacket cfg p = .ok i ∧ encode i = .packet p)))

/-- For every 6-bit step index: it selects no step exactly when it is 48 or more, and the step it selects is the one whose
encoding is that index. [30_encoding.md section 6, 10_state.md section 2] -/
def Obligations.StepIndexSelectsItsStep : Prop :=
  ∀ t : BitVec 6, (decodeStep t = none ↔ 48 ≤ t.toNat) ∧ ∀ i, decodeStep t = some i → encode i = .index t

/-- For all words and every bit position n: bit n of F is bit n of y where bit n of x is 1 and of z where it is 0; bit n of G is
the majority of the three bits; bit n of H_ is their parity. [R90, R91, R92] -/
def Obligations.RoundFunctionsBitByBit : Prop :=
  ∀ (x y z : Word) (n : Nat), n < 32 →
    (roundF x y z).getLsbD n = (if x.getLsbD n then y.getLsbD n else z.getLsbD n) ∧
    (roundG x y z).getLsbD n =
      decide (2 ≤ (x.getLsbD n).toNat + (y.getLsbD n).toNat + (z.getLsbD n).toNat) ∧
    (roundH x y z).getLsbD n =
      decide (((x.getLsbD n).toNat + (y.getLsbD n).toNat + (z.getLsbD n).toNat) % 2 = 1)

/-- For every word, every rotation amount from 1 to 31 and every bit position i, bit (i + s) mod 32 of rotl32(v, s) is bit i of
v. [00_scope.md section 5] -/
def Obligations.RotationMovesEveryBit : Prop :=
  ∀ (v : Word) (s i : Nat), 1 ≤ s → s ≤ 31 → i < 32 → (rotl32 v s).getLsbD ((i + s) % 32) = v.getLsbD i

/-- For each of the steps 0 to 11: the step index selects it, and while a COMPRESS is in progress for a context, executing it
answers the state in which the one destination register holds the rotated sum of the rule, t is the next index, and
everything else is unchanged. [R110, R111, R112, R113, R114, R115, R116, R117, R118, R119, R120, R121] -/
def Obligations.StepsRunQuarterOne : Prop :=
  ∀ (s : State) (r : CtxRef) (c : DigestCtx), s.job = some r → s.ctxAt r = some c →
    (decodeStep 0 = some .step0 ∧
      exec .step0 s =
        .next { s with
          x := { s.x with a := rotl32 (s.x.a + roundF s.x.b s.x.c s.x.d + msgWord c.buf 0) 3 }
          t := 1 }) ∧
    (decodeStep 1 = some .step1 ∧
      exec .step1 s =
        .next { s with
          x := { s.x with d := rotl32 (s.x.d + roundF s.x.a s.x.b s.x.c + msgWord c.buf 1) 7 }
          t := 2 }) ∧
    (decodeStep 2 = some .step2 ∧
      exec .step2 s =
        .next { s with
          x := { s.x with c := rotl32 (s.x.c + roundF s.x.d s.x.a s.x.b + msgWord c.buf 2) 11 }
          t := 3 }) ∧
    (decodeStep 3 = some .step3 ∧
      exec .step3 s =
        .next { s with
          x := { s.x with b := rotl32 (s.x.b + roundF s.x.c s.x.d s.x.a + msgWord c.buf 3) 19 }
          t := 4 }) ∧
    (decodeStep 4 = some .step4 ∧
      exec .step4 s =
        .next { s with
          x := { s.x with a := rotl32 (s.x.a + roundF s.x.b s.x.c s.x.d + msgWord c.buf 4) 3 }
          t := 5 }) ∧
    (decodeStep 5 = some .step5 ∧
      exec .step5 s =
        .next { s with
          x := { s.x with d := rotl32 (s.x.d + roundF s.x.a s.x.b s.x.c + msgWord c.buf 5) 7 }
          t := 6 }) ∧
    (decodeStep 6 = some .step6 ∧
      exec .step6 s =
        .next { s with
          x := { s.x with c := rotl32 (s.x.c + roundF s.x.d s.x.a s.x.b + msgWord c.buf 6) 11 }
          t := 7 }) ∧
    (decodeStep 7 = some .step7 ∧
      exec .step7 s =
        .next { s with
          x := { s.x with b := rotl32 (s.x.b + roundF s.x.c s.x.d s.x.a + msgWord c.buf 7) 19 }
          t := 8 }) ∧
    (decodeStep 8 = some .step8 ∧
      exec .step8 s =
        .next { s with
          x := { s.x with a := rotl32 (s.x.a + roundF s.x.b s.x.c s.x.d + msgWord c.buf 8) 3 }
          t := 9 }) ∧
    (decodeStep 9 = some .step9 ∧
      exec .step9 s =
        .next { s with
          x := { s.x with d := rotl32 (s.x.d + roundF s.x.a s.x.b s.x.c + msgWord c.buf 9) 7 }
          t := 10 }) ∧
    (decodeStep 10 = some .step10 ∧
      exec .step10 s =
        .next { s with
          x := { s.x with c := rotl32 (s.x.c + roundF s.x.d s.x.a s.x.b + msgWord c.buf 10) 11 }
          t := 11 }) ∧
    (decodeStep 11 = some .step11 ∧
      exec .step11 s =
        .next { s with
          x := { s.x with b := rotl32 (s.x.b + roundF s.x.c s.x.d s.x.a + msgWord c.buf 11) 19 }
          t := 12 })

/-- For each of the steps 12 to 23: the step index selects it, and while a COMPRESS is in progress for a context, executing it
answers the state in which the one destination register holds the rotated sum of the rule, t is the next index, and
everything else is unchanged. [R122, R123, R124, R125, R126, R127, R128, R129, R130, R131, R132, R133] -/
def Obligations.StepsRunQuarterTwo : Prop :=
  ∀ (s : State) (r : CtxRef) (c : DigestCtx), s.job = some r → s.ctxAt r = some c →
    (decodeStep 12 = some .step12 ∧
      exec .step12 s =
        .next { s with
          x := { s.x with a := rotl32 (s.x.a + roundF s.x.b s.x.c s.x.d + msgWord c.buf 12) 3 }
          t := 13 }) ∧
    (decodeStep 13 = some .step13 ∧
      exec .step13 s =
        .next { s with
          x := { s.x with d := rotl32 (s.x.d + roundF s.x.a s.x.b s.x.c + msgWord c.buf 13) 7 }
          t := 14 }) ∧
    (decodeStep 14 = some .step14 ∧
      exec .step14 s =
        .next { s with
          x := { s.x with c := rotl32 (s.x.c + roundF s.x.d s.x.a s.x.b + msgWord c.buf 14) 11 }
          t := 15 }) ∧
    (decodeStep 15 = some .step15 ∧
      exec .step15 s =
        .next { s with
          x := { s.x with b := rotl32 (s.x.b + roundF s.x.c s.x.d s.x.a + msgWord c.buf 15) 19 }
          t := 16 }) ∧
    (decodeStep 16 = some .step16 ∧
      exec .step16 s =
        .next { s with
          x := { s.x with a := rotl32 (s.x.a + roundG s.x.b s.x.c s.x.d + msgWord c.buf 0 + 0x5A827999) 3 }
          t := 17 }) ∧
    (decodeStep 17 = some .step17 ∧
      exec .step17 s =
        .next { s with
          x := { s.x with d := rotl32 (s.x.d + roundG s.x.a s.x.b s.x.c + msgWord c.buf 4 + 0x5A827999) 5 }
          t := 18 }) ∧
    (decodeStep 18 = some .step18 ∧
      exec .step18 s =
        .next { s with
          x := { s.x with c := rotl32 (s.x.c + roundG s.x.d s.x.a s.x.b + msgWord c.buf 8 + 0x5A827999) 9 }
          t := 19 }) ∧
    (decodeStep 19 = some .step19 ∧
      exec .step19 s =
        .next { s with
          x := { s.x with b := rotl32 (s.x.b + roundG s.x.c s.x.d s.x.a + msgWord c.buf 12 + 0x5A827999) 13 }
          t := 20 }) ∧
    (decodeStep 20 = some .step20 ∧
      exec .step20 s =
        .next { s with
          x := { s.x with a := rotl32 (s.x.a + roundG s.x.b s.x.c s.x.d + msgWord c.buf 1 + 0x5A827999) 3 }
          t := 21 }) ∧
    (decodeStep 21 = some .step21 ∧
      exec .step21 s =
        .next { s with
          x := { s.x with d := rotl32 (s.x.d + roundG s.x.a s.x.b s.x.c + msgWord c.buf 5 + 0x5A827999) 5 }
          t := 22 }) ∧
    (decodeStep 22 = some .step22 ∧
      exec .step22 s =
        .next { s with
          x := { s.x with c := rotl32 (s.x.c + roundG s.x.d s.x.a s.x.b + msgWord c.buf 9 + 0x5A827999) 9 }
          t := 23 }) ∧
    (decodeStep 23 = some .step23 ∧
      exec .step23 s =
        .next { s with
          x := { s.x with b := rotl32 (s.x.b + roundG s.x.c s.x.d s.x.a + msgWord c.buf 13 + 0x5A827999) 13 }
          t := 24 })

/-- For each of the steps 24 to 35: the step index selects it, and while a COMPRESS is in progress for a context, executing it
answers the state in which the one destination register holds the rotated sum of the rule, t is the next index, and
everything else is unchanged. [R134, R135, R136, R137, R138, R139, R140, R141, R142, R143, R144, R145] -/
def Obligations.StepsRunQuarterThree : Prop :=
  ∀ (s : State) (r : CtxRef) (c : DigestCtx), s.job = some r → s.ctxAt r = some c →
    (decodeStep 24 = some .step24 ∧
      exec .step24 s =
        .next { s with
          x := { s.x with a := rotl32 (s.x.a + roundG s.x.b s.x.c s.x.d + msgWord c.buf 2 + 0x5A827999) 3 }
          t := 25 }) ∧
    (decodeStep 25 = some .step25 ∧
      exec .step25 s =
        .next { s with
          x := { s.x with d := rotl32 (s.x.d + roundG s.x.a s.x.b s.x.c + msgWord c.buf 6 + 0x5A827999) 5 }
          t := 26 }) ∧
    (decodeStep 26 = some .step26 ∧
      exec .step26 s =
        .next { s with
          x := { s.x with c := rotl32 (s.x.c + roundG s.x.d s.x.a s.x.b + msgWord c.buf 10 + 0x5A827999) 9 }
          t := 27 }) ∧
    (decodeStep 27 = some .step27 ∧
      exec .step27 s =
        .next { s with
          x := { s.x with b := rotl32 (s.x.b + roundG s.x.c s.x.d s.x.a + msgWord c.buf 14 + 0x5A827999) 13 }
          t := 28 }) ∧
    (decodeStep 28 = some .step28 ∧
      exec .step28 s =
        .next { s with
          x := { s.x with a := rotl32 (s.x.a + roundG s.x.b s.x.c s.x.d + msgWord c.buf 3 + 0x5A827999) 3 }
          t := 29 }) ∧
    (decodeStep 29 = some .step29 ∧
      exec .step29 s =
        .next { s with
          x := { s.x with d := rotl32 (s.x.d + roundG s.x.a s.x.b s.x.c + msgWord c.buf 7 + 0x5A827999) 5 }
          t := 30 }) ∧
    (decodeStep 30 = some .step30 ∧
      exec .step30 s =
        .next { s with
          x := { s.x with c := rotl32 (s.x.c + roundG s.x.d s.x.a s.x.b + msgWord c.buf 11 + 0x5A827999) 9 }
          t := 31 }) ∧
    (decodeStep 31 = some .step31 ∧
      exec .step31 s =
        .next { s with
          x := { s.x with b := rotl32 (s.x.b + roundG s.x.c s.x.d s.x.a + msgWord c.buf 15 + 0x5A827999) 13 }
          t := 32 }) ∧
    (decodeStep 32 = some .step32 ∧
      exec .step32 s =
        .next { s with
          x := { s.x with a := rotl32 (s.x.a + roundH s.x.b s.x.c s.x.d + msgWord c.buf 0 + 0x6ED9EBA1) 3 }
          t := 33 }) ∧
    (decodeStep 33 = some .step33 ∧
      exec .step33 s =
        .next { s with
          x := { s.x with d := rotl32 (s.x.d + roundH s.x.a s.x.b s.x.c + msgWord c.buf 8 + 0x6ED9EBA1) 9 }
          t := 34 }) ∧
    (decodeStep 34 = some .step34 ∧
      exec .step34 s =
        .next { s with
          x := { s.x with c := rotl32 (s.x.c + roundH s.x.d s.x.a s.x.b + msgWord c.buf 4 + 0x6ED9EBA1) 11 }
          t := 35 }) ∧
    (decodeStep 35 = some .step35 ∧
      exec .step35 s =
        .next { s with
          x := { s.x with b := rotl32 (s.x.b + roundH s.x.c s.x.d s.x.a + msgWord c.buf 12 + 0x6ED9EBA1) 15 }
          t := 36 })

/-- For each of the steps 36 to 47: the step index selects it, and while a COMPRESS is in progress for a context, executing it
answers the state in which the one destination register holds the rotated sum of the rule, t is the next index, and
everything else is unchanged. [R146, R147, R148, R149, R150, R151, R152, R153, R154, R155, R156, R157] -/
def Obligations.StepsRunQuarterFour : Prop :=
  ∀ (s : State) (r : CtxRef) (c : DigestCtx), s.job = some r → s.ctxAt r = some c →
    (decodeStep 36 = some .step36 ∧
      exec .step36 s =
        .next { s with
          x := { s.x with a := rotl32 (s.x.a + roundH s.x.b s.x.c s.x.d + msgWord c.buf 2 + 0x6ED9EBA1) 3 }
          t := 37 }) ∧
    (decodeStep 37 = some .step37 ∧
      exec .step37 s =
        .next { s with
          x := { s.x with d := rotl32 (s.x.d + roundH s.x.a s.x.b s.x.c + msgWord c.buf 10 + 0x6ED9EBA1) 9 }
          t := 38 }) ∧
    (decodeStep 38 = some .step38 ∧
      exec .step38 s =
        .next { s with
          x := { s.x with c := rotl32 (s.x.c + roundH s.x.d s.x.a s.x.b + msgWord c.buf 6 + 0x6ED9EBA1) 11 }
          t := 39 }) ∧
    (decodeStep 39 = some .step39 ∧
      exec .step39 s =
        .next { s with
          x := { s.x with b := rotl32 (s.x.b + roundH s.x.c s.x.d s.x.a + msgWord c.buf 14 + 0x6ED9EBA1) 15 }
          t := 40 }) ∧
    (decodeStep 40 = some .step40 ∧
      exec .step40 s =
        .next { s with
          x := { s.x with a := rotl32 (s.x.a + roundH s.x.b s.x.c s.x.d + msgWord c.buf 1 + 0x6ED9EBA1) 3 }
          t := 41 }) ∧
    (decodeStep 41 = some .step41 ∧
      exec .step41 s =
        .next { s with
          x := { s.x with d := rotl32 (s.x.d + roundH s.x.a s.x.b s.x.c + msgWord c.buf 9 + 0x6ED9EBA1) 9 }
          t := 42 }) ∧
    (decodeStep 42 = some .step42 ∧
      exec .step42 s =
        .next { s with
          x := { s.x with c := rotl32 (s.x.c + roundH s.x.d s.x.a s.x.b + msgWord c.buf 5 + 0x6ED9EBA1) 11 }
          t := 43 }) ∧
    (decodeStep 43 = some .step43 ∧
      exec .step43 s =
        .next { s with
          x := { s.x with b := rotl32 (s.x.b + roundH s.x.c s.x.d s.x.a + msgWord c.buf 13 + 0x6ED9EBA1) 15 }
          t := 44 }) ∧
    (decodeStep 44 = some .step44 ∧
      exec .step44 s =
        .next { s with
          x := { s.x with a := rotl32 (s.x.a + roundH s.x.b s.x.c s.x.d + msgWord c.buf 3 + 0x6ED9EBA1) 3 }
          t := 45 }) ∧
    (decodeStep 45 = some .step45 ∧
      exec .step45 s =
        .next { s with
          x := { s.x with d := rotl32 (s.x.d + roundH s.x.a s.x.b s.x.c + msgWord c.buf 11 + 0x6ED9EBA1) 9 }
          t := 46 }) ∧
    (decodeStep 46 = some .step46 ∧
      exec .step46 s =
        .next { s with
          x := { s.x with c := rotl32 (s.x.c + roundH s.x.d s.x.a s.x.b + msgWord c.buf 7 + 0x6ED9EBA1) 11 }
          t := 47 }) ∧
    (decodeStep 47 = some .step47 ∧
      exec .step47 s =
        .next { s with
          x := { s.x with b := rotl32 (s.x.b + roundH s.x.c s.x.d s.x.a + msgWord c.buf 15 + 0x6ED9EBA1) 15 }
          t := 48 })

/-- Where no COMPRESS is in progress, executing any of the 48 steps stops with the fault stepOutsideCompress: the host cannot
issue a step, and there is no block to read. The fault is the model's own form of it (log entry 5). [30_encoding.md section
6, 10_state.md section 2] -/
def Obligations.StepsRunOnlyInsideACompress : Prop :=
  ∀ (s : State) (t : BitVec 6) (i : Instr), decodeStep t = some i → s.job = none →
    exec i s = .fault .stepOutsideCompress

/-- The word orders are the printed lists and each is a permutation; the rotation amounts and constants are those of R95; and
for every index t below 48, the step it selects, executed while a COMPRESS is in progress, writes register x[(4 - t mod 4)
mod 4] by the formula of R94 with t's round function, word, constant and amount, sets t to t + 1 and changes nothing else.
[R95] -/
def Obligations.EveryStepIsTheStepFormula : Prop :=
  (List.range 16).map (wordOrder 0) = [0, 1, 2, 3, 4, 5, 6, 7, 8, 9, 10, 11, 12, 13, 14, 15] ∧
  (List.range 16).map (wordOrder 1) = [0, 4, 8, 12, 1, 5, 9, 13, 2, 6, 10, 14, 3, 7, 11, 15] ∧
  (List.range 16).map (wordOrder 2) = [0, 8, 4, 12, 2, 10, 6, 14, 1, 9, 5, 13, 3, 11, 7, 15] ∧
  (List.range 4).map (shiftAmount 0) = [3, 7, 11, 19] ∧
  (List.range 4).map (shiftAmount 1) = [3, 5, 9, 13] ∧
  (List.range 4).map (shiftAmount 2) = [3, 9, 11, 15] ∧
  (List.range 3).map roundConstant = [0x00000000, 0x5A827999, 0x6ED9EBA1] ∧
  ∀ (t : BitVec 6) (i : Instr) (s : State) (r : CtxRef) (c : DigestCtx),
    decodeStep t = some i → s.job = some r → s.ctxAt r = some c →
      exec i s = .next { s with x := stepFormula t.toNat (msgWord c.buf) s.x, t := t + 1 }

/-- For every message words, every input state and every number n of steps up to 48, the four roles of R93 after n steps are the
registers of R94 after n steps, read from the first role's register on: first role x[(4 - n mod 4) mod 4] and so on in
order; after 48 steps they coincide. [40_compression_core.md section 2] -/
def Obligations.RoleRotationEqualsStepFormula : Prop :=
  ∀ (X : Nat → Word) (x : Quad) (n : Nat), n ≤ 48 →
    firstSteps roleStep n X x =
      { a := (firstSteps stepFormula n X x).reg (destReg n)
        b := (firstSteps stepFormula n X x).reg ((destReg n + 1) % 4)
        c := (firstSteps stepFormula n X x).reg ((destReg n + 2) % 4)
        d := (firstSteps stepFormula n X x).reg ((destReg n + 3) % 4) } ∧
    firstSteps roleStep 48 X x = firstSteps stepFormula 48 X x

/-- For every four words S and every block, COMPRESS(S, B) is the word-wise sum modulo 2^32 of S and the working registers after
the 48 steps t = 0 to 47 of the step formula, started from S on the message words of B. [R97] -/
def Obligations.CompressIsFortyEightStepsAndFeedForward : Prop :=
  ∀ (S : Quad) (B : Memory),
    compress S B =
      { a := S.a + (firstSteps stepFormula 48 (msgWord B) S).a
        b := S.b + (firstSteps stepFormula 48 (msgWord B) S).b
        c := S.c + (firstSteps stepFormula 48 (msgWord B) S).c
        d := S.d + (firstSteps stepFormula 48 (msgWord B) S).d }

/-- For every engine with no reset pending and every context of it: 49 machine steps from the start of the COMPRESS of that
context (48 STEPs selected by t, then the end of the sequence) answer the state in which the context has H = COMPRESS(H,
BUF) and FILL = 0, the core is free, and everything else is as before; the working registers and t are left at the free
values that the commands leave (log entry 3). [40_compression_core.md section 3, 42_accumulator.md section 1, 10_state.md
section 2] -/
def Obligations.StepMachineRunsCompress : Prop :=
  ∀ (s : State) (r : CtxRef) (c : DigestCtx), pendingReset s.inputs = none → s.ctxAt r = some c →
    Host.Core.run Sys2Proof.core 49 (s.beginCompress r) =
      .next (s.setCtxAt r { c with h := compress c.h c.buf, fill := 0 }).retireCore

/-- For every four words and any two buffers whose bytes 0 to 63 are equal, COMPRESS gives the same four words, however the
buffers are held. [40_compression_core.md section 3] -/
def Obligations.CompressReadsOnlyItsArguments : Prop :=
  ∀ (S : Quad) (B B' : Memory), (∀ a, a < 64 → B.read a = B'.read a) → compress S B = compress S B'

/-- For every store, index and byte: reading after MemWrite(addr, 1, v) gives v at addr and at every other index what it gave
before. [R42] -/
def Obligations.WriteThenReadByte : Prop :=
  ∀ (m : Memory) (addr : Nat) (v : Byte),
    ∀ b, (m.write addr v).read b = if b = addr then v else m.read b

/-- A write at an index 0 to 63 keeps the canonical form of a store; and for any two stores in canonical form, if every byte 0
to 63 reads the same in both, then they are equal. (The canonical form is the model's own choice, log entry 15: the spec
gives the bytes and not how they are held.) [20_memory.md section 1] -/
def Obligations.CanonicalStoresWithEqualBytesAreEqual : Prop :=
  (∀ (m : Memory) (addr : Nat) (v : Byte), addr < 64 → m.wf → (m.write addr v).wf) ∧
  ∀ m m' : Memory, m.wf → m'.wf → (∀ a, a < 64 → m.read a = m'.read a) → m = m'

/-- For every store: the word read at addr is B[addr] + 2^8 B[addr+1] + 2^16 B[addr+2] + 2^24 B[addr+3] as a number; message
word k is the word at 4k. [R41] -/
def Obligations.MessageWordsAreLittleEndian : Prop :=
  ∀ (m : Memory) (addr k : Nat),
    (m.read4 addr).toNat =
      (m.read addr).toNat + 2 ^ 8 * (m.read (addr + 1)).toNat + 2 ^ 16 * (m.read (addr + 2)).toNat +
        2 ^ 24 * (m.read (addr + 3)).toNat ∧
    msgWord m k = m.read4 (4 * k)

/-- For every four state words and byte index i from 0 to 3, digest bytes i, 4+i, 8+i and 12+i are byte i of H[0], H[1], H[2]
and H[3]; the digest has 16 bytes. [20_memory.md section 2, 30_encoding.md section 4] -/
def Obligations.DigestBytesAreLittleEndian : Prop :=
  ∀ (h : Quad) (i : Nat), i < 4 →
    (digestBytes h)[i]? = some (BitVec.ofNat 8 (h.a.toNat / 2 ^ (8 * i))) ∧
    (digestBytes h)[4 + i]? = some (BitVec.ofNat 8 (h.b.toNat / 2 ^ (8 * i))) ∧
    (digestBytes h)[8 + i]? = some (BitVec.ofNat 8 (h.c.toNat / 2 ^ (8 * i))) ∧
    (digestBytes h)[12 + i]? = some (BitVec.ofNat 8 (h.d.toNat / 2 ^ (8 * i))) ∧
    (digestBytes h).length = 16

/-- For every context and byte: the byte goes to BUF[FILL] and no other byte of BUF changes; LO, HI and PHASE are unchanged;
with FILL below 63 the fill count grows by one and H is unchanged; with FILL at 63 it becomes 0 and H becomes COMPRESS of H
and the buffer with the byte in it. [R160] -/
def Obligations.AbsorbStoresAndCompressesAtSixtyFour : Prop :=
  ∀ (c : DigestCtx) (v : Byte),
    (∀ a, (absorb c v).buf.read a = if a = c.fill.toNat then v else c.buf.read a) ∧
    (absorb c v).lo = c.lo ∧ (absorb c v).hi = c.hi ∧ (absorb c v).phase = c.phase ∧
    (c.fill.toNat < 63 → (absorb c v).fill.toNat = c.fill.toNat + 1 ∧ (absorb c v).h = c.h) ∧
    (c.fill.toNat = 63 → (absorb c v).fill = 0 ∧ (absorb c v).h = compress c.h (absorb c v).buf)

/-- For every context and 32-bit length: the two-word addition with one carry gives the 64-bit count plus the length modulo
2^64; the high word grows exactly when the low word overflows; H, BUF, FILL and PHASE are unchanged. [R163] -/
def Obligations.CounterAdditionCarries : Prop :=
  ∀ (c : DigestCtx) (n : Word),
    (addLength c n).count = (c.count + n.toNat) % 2 ^ 64 ∧
    (addLength c n).lo = c.lo + n ∧
    (addLength c n).hi = (if 2 ^ 32 ≤ c.lo.toNat + n.toNat then c.hi + 1 else c.hi) ∧
    (addLength c n).h = c.h ∧ (addLength c n).buf = c.buf ∧ (addLength c n).fill = c.fill ∧
    (addLength c n).phase = c.phase

/-- For every context, BHI * 2^32 + BLO is 8 * (HI * 2^32 + LO) modulo 2^64, with BLO = (LO << 3) mod 2^32 and BHI = ((HI << 3)
mod 2^32) | (LO >> 29). [R165] -/
def Obligations.BitLengthIsEightTimesTheCount : Prop :=
  ∀ c : DigestCtx,
    (bitLengthHi c).toNat * 2 ^ 32 + (bitLengthLo c).toNat = (8 * c.count) % 2 ^ 64 ∧
    bitLengthLo c = c.lo <<< 3 ∧ bitLengthHi c = (c.hi <<< 3) ||| (c.lo >>> 29)

/-- For every engine and Digest slot it has, in whatever phase: INIT answers a state in which the slot has H = IV, LO = HI = 0,
FILL = 0, PHASE = ACTIVE and its BUF as before, one OK response without digest is appended, and no other slot, FAULT or the
host's stream changes. [R161] -/
def Obligations.InitCompletes : Prop :=
  ∀ (s : State) (ctx : BitVec 4) (c : DigestCtx), s.dc[ctx.toNat]? = some c →
    ∃ t : State, exec (.init ctx) s = .next t ∧
      t.dc = s.dc.set ctx.toNat
        { h := { a := 0x67452301, b := 0xEFCDAB89, c := 0x98BADCFE, d := 0x10325476 }
          lo := 0, hi := 0, buf := c.buf, fill := 0, phase := .active } ∧
      t.hc = s.hc ∧ t.fault = s.fault ∧ t.inputs = s.inputs ∧
      t.responses = s.responses ++ [okBytes s.fault] ∧ (s.job = none → t.job = none)

/-- For every engine, active Digest slot and byte string of fewer than 2^32 bytes: UPDATE answers a state in which the slot has
absorbed the bytes (the count grows by their number modulo 2^64; floor((FILL + LEN) / 64) blocks are compressed in order,
the rest is buffered, BUF changes only where bytes are stored, PHASE stays ACTIVE), one OK response without digest is
appended, and no other slot, FAULT or the host's stream changes; with no bytes at all no slot changes. On a slot that is not
active UPDATE sets FAULT, appends the response of ERR_CTX_STATE and changes nothing else. [R162] -/
def Obligations.UpdateCompletes : Prop :=
  ∀ (s : State) (ctx : BitVec 4) (data : List Byte) (c : DigestCtx),
    s.dc[ctx.toNat]? = some c → data.length < 2 ^ 32 →
    (c.phase = .active →
      ∃ (t : State) (d : DigestCtx), exec (.update ctx data) s = .next t ∧ c.AbsorbsTo data d ∧
        t.dc = s.dc.set ctx.toNat d ∧ t.hc = s.hc ∧ t.fault = s.fault ∧ t.inputs = s.inputs ∧
        t.responses = s.responses ++ [okBytes s.fault] ∧ (s.job = none → t.job = none) ∧
        (data = [] → t.dc = s.dc)) ∧
    (c.phase ≠ .active →
      exec (.update ctx data) s = .next { s with fault := true, responses := s.responses ++ [errBytes .ctxState] })

/-- For every engine and active Digest slot: FINISH answers a state in which 0x80, (55 - FILL) mod 64 zero bytes and the 8 bytes
of the bit length have joined the buffered bytes to make exactly one block (FILL at most 55) or two, which are compressed in
order; LO and HI are unchanged, FILL is 0, BUF holds the last block, PHASE is TERMINAL; one OK response with the 16 bytes of
the final H is appended; no other slot, FAULT or the host's stream changes. On a slot that is not active FINISH sets FAULT,
appends the response of ERR_CTX_STATE and changes nothing else. [R164, R166] -/
def Obligations.FinishCompletes : Prop :=
  ∀ (s : State) (ctx : BitVec 4) (c : DigestCtx), s.dc[ctx.toNat]? = some c →
    (c.phase = .active →
      ∃ (t : State) (d : DigestCtx), exec (.finish ctx) s = .next t ∧ c.FinishesTo d ∧
        t.dc = s.dc.set ctx.toNat d ∧ t.hc = s.hc ∧ t.fault = s.fault ∧ t.inputs = s.inputs ∧
        t.responses = s.responses ++ [okBytes s.fault ++ digestBytes d.h] ∧ (s.job = none → t.job = none)) ∧
    (c.phase ≠ .active →
      exec (.finish ctx) s = .next { s with fault := true, responses := s.responses ++ [errBytes .ctxState] })

/-- For every context and byte strings a and b of fewer than 2^32 bytes together, the update body on a and then b equals the
update body on a || b in every field; and executing the two UPDATEs on any engine and slot leaves every slot and FAULT as
executing the one does. [R167] -/
def Obligations.ChunkingInvariance : Prop :=
  ∀ a b : List Byte, a.length + b.length < 2 ^ 32 →
    (∀ c : DigestCtx, updateOp (updateOp c a) b = updateOp c (a ++ b)) ∧
    ∀ (s : State) (ctx : BitVec 4), ∃ t u : State,
      execAll [.update ctx a, .update ctx b] s = .next t ∧ execAll [.update ctx (a ++ b)] s = .next u ∧
      t.dc = u.dc ∧ t.hc = u.hc ∧ t.fault = u.fault

/-- INIT makes a context hold the empty message; if it holds m, the update body with d makes it hold m || d; and if it holds m,
the finish body leaves the words whose serialisation is MD4(m) in the closed form of R169. Holding m says: ACTIVE, count =
len(m) modulo 2^64, FILL = len(m) mod 64, H the chain over the whole blocks of m, and BUF[0..FILL) the rest of m.
[10_state.md section 3, 42_accumulator.md section 5] -/
def Obligations.ContextHoldsItsMessage : Prop :=
  (∀ c : DigestCtx, (initOp c).Holds []) ∧
  (∀ (c : DigestCtx) (m data : List Byte), data.length < 2 ^ 32 → c.Holds m → (updateOp c data).Holds (m ++ data)) ∧
  ∀ (c : DigestCtx) (m : List Byte), c.Holds m → digestOf (finishOp c) = md4Closed m

/-- For every engine, every Digest slot it has in whatever phase, and every list of byte strings of fewer than 2^32 bytes each:
executing INIT, one UPDATE for each and FINISH completes; the responses are one OK without digest for each command before
FINISH, then OK with MD4 of the concatenation in the closed form of R169; FAULT, the HMAC slots and the other Digest slots
are unchanged. [42_accumulator.md section 5, 43_oneshot.md] -/
def Obligations.StreamingDigestIsMd4 : Prop :=
  ∀ (s : State) (ctx : BitVec 4) (chunks : List (List Byte)), ctx.toNat < s.dc.length →
    (∀ d ∈ chunks, d.length < 2 ^ 32) →
    ∃ t : State,
      execAll (.init ctx :: (chunks.map (Instr.update ctx) ++ [.finish ctx])) s = .next t ∧
      t.responses = s.responses ++ List.replicate (chunks.length + 1) (okBytes s.fault) ++
        [okBytes s.fault ++ md4Closed chunks.flatten] ∧
      t.fault = s.fault ∧ t.hc = s.hc ∧ ∀ n, n ≠ ctx.toNat → t.dc[n]? = s.dc[n]?

/-- For every idle engine, Digest slot it has and list of packets none of which decodes to INIT or FINISH of that slot (they may
be UPDATEs of it in any split, commands on other slots, one-shot commands, and packets that fail): the machine takes INIT of
the slot, the packets and FINISH of the slot one step each, appends one response for each, and the last response is OK with
MD4, in the closed form of R169, of the concatenated operands of the UPDATEs of that slot among the packets. [R168] -/
def Obligations.DigestDependsOnlyOnTheMessage : Prop :=
  ∀ (s : State) (ctx : BitVec 4) (ps : List (List Byte)), s.job = none → ctx.toNat < s.dc.length →
    (∀ p ∈ ps, decodePacket s.config p ≠ .ok (.init ctx) ∧ decodePacket s.config p ≠ .ok (.finish ctx)) →
    ∃ t : State,
      Host.Core.run Sys2Proof.core (ps.length + 2)
          { s with inputs := .packet (headerBytes .init ctx) :: (ps.map HostEvent.packet ++ [.packet (headerBytes .finish ctx)]) } =
        .next t ∧
      t.inputs = [] ∧ t.responses.length = s.responses.length + ps.length + 2 ∧
      t.responses.getLast? = some (okBytes t.fault ++ md4Closed (messageTo s.config ctx ps))

/-- For every engine and Digest slot it has: INIT answers OK and ACTIVE in every phase; UPDATE answers OK and ACTIVE on an
active slot; FINISH answers OK, 16 digest bytes and TERMINAL on an active slot; UPDATE and FINISH on a slot that is not
active answer ERR_CTX_STATE and leave its phase. [R171] -/
def Obligations.DigestLifecycle : Prop :=
  ∀ (s : State) (ctx : BitVec 4) (data : List Byte) (c : DigestCtx), s.dc[ctx.toNat]? = some c →
    (∃ t d, exec (.init ctx) s = .next t ∧ t.dc[ctx.toNat]? = some d ∧ d.phase = .active ∧
      t.responses = s.responses ++ [okBytes s.fault]) ∧
    (c.phase = .active →
      (∃ t d, exec (.update ctx data) s = .next t ∧ t.dc[ctx.toNat]? = some d ∧ d.phase = .active ∧
        t.responses = s.responses ++ [okBytes s.fault]) ∧
      ∃ t d g, exec (.finish ctx) s = .next t ∧ t.dc[ctx.toNat]? = some d ∧ d.phase = .terminal ∧
        t.responses = s.responses ++ [okBytes s.fault ++ g] ∧ g.length = 16) ∧
    (c.phase ≠ .active →
      (∃ t d, exec (.update ctx data) s = .next t ∧ t.dc[ctx.toNat]? = some d ∧ d.phase = c.phase ∧
        t.responses = s.responses ++ [errBytes .ctxState]) ∧
      ∃ t d, exec (.finish ctx) s = .next t ∧ t.dc[ctx.toNat]? = some d ∧ d.phase = c.phase ∧
        t.responses = s.responses ++ [errBytes .ctxState])

/-- For every engine: on a Digest slot that is not ACTIVE, UPDATE (empty too) and FINISH, and on an HMAC slot whose INNER is not
ACTIVE, HMAC_UPDATE and HMAC_FINISH, set FAULT, append the 4-byte response of ERR_CTX_STATE and change nothing else. INIT,
HMAC_INIT, DIGEST and HMAC never append that response. [R206] -/
def Obligations.InactiveSlotRaisesCtxState : Prop :=
  (∀ (s : State) (ctx : BitVec 4) (data : List Byte) (c : DigestCtx), s.dc[ctx.toNat]? = some c → c.phase ≠ .active →
    exec (.update ctx data) s = .next { s with fault := true, responses := s.responses ++ [errBytes .ctxState] } ∧
    exec (.finish ctx) s = .next { s with fault := true, responses := s.responses ++ [errBytes .ctxState] }) ∧
  (∀ (s : State) (ctx : BitVec 4) (data : List Byte) (h : HmacCtx), s.hc[ctx.toNat]? = some h → h.inner.phase ≠ .active →
    exec (.hmacUpdate ctx data) s = .next { s with fault := true, responses := s.responses ++ [errBytes .ctxState] } ∧
    exec (.hmacFinish ctx) s = .next { s with fault := true, responses := s.responses ++ [errBytes .ctxState] }) ∧
  ∀ (s t : State) (ctx : BitVec 4) (key data : List Byte),
    exec (.init ctx) s = .next t ∨ exec (.hmacInit ctx key) s = .next t ∨ exec (.digest data) s = .next t ∨
      exec (.hmac key data) s = .next t →
    t.responses ≠ s.responses ++ [errBytes .ctxState]

/-- For every engine: INIT, UPDATE and FINISH on a Digest slot, and HMAC_INIT, HMAC_UPDATE and HMAC_FINISH on an HMAC slot,
whose index is not below the slot count set FAULT, append the 4-byte response of ERR_CTX_INDEX and change nothing else.
(What exec answers here is the model's choice, log entry 13: no packet decodes to such an instruction, and the packet itself
is answered with that code by the decoder.) [60_exceptions.md section 2] -/
def Obligations.AbsentSlotRaisesCtxIndex : Prop :=
  (∀ (s : State) (ctx : BitVec 4) (data : List Byte), s.dc.length ≤ ctx.toNat →
    exec (.init ctx) s = .next { s with fault := true, responses := s.responses ++ [errBytes .ctxIndex] } ∧
    exec (.update ctx data) s = .next { s with fault := true, responses := s.responses ++ [errBytes .ctxIndex] } ∧
    exec (.finish ctx) s = .next { s with fault := true, responses := s.responses ++ [errBytes .ctxIndex] }) ∧
  ∀ (s : State) (ctx : BitVec 4) (data : List Byte), s.hc.length ≤ ctx.toNat →
    exec (.hmacInit ctx data) s = .next { s with fault := true, responses := s.responses ++ [errBytes .ctxIndex] } ∧
    exec (.hmacUpdate ctx data) s = .next { s with fault := true, responses := s.responses ++ [errBytes .ctxIndex] } ∧
    exec (.hmacFinish ctx) s = .next { s with fault := true, responses := s.responses ++ [errBytes .ctxIndex] }

/-- For every engine and byte string of fewer than 2^32 bytes: DIGEST answers a state in which one OK response with MD4 of the
bytes in the closed form of R169 is appended and every slot, FAULT and the host's stream are unchanged. [R180] -/
def Obligations.DigestCompletes : Prop :=
  ∀ (s : State) (data : List Byte), data.length < 2 ^ 32 →
    ∃ t : State, exec (.digest data) s = .next t ∧
      t.responses = s.responses ++ [okBytes s.fault ++ md4Closed data] ∧
      t.dc = s.dc ∧ t.hc = s.hc ∧ t.fault = s.fault ∧ t.inputs = s.inputs ∧ (s.job = none → t.job = none)

/-- For every engine, Digest slot and split of a byte string of fewer than 2^32 bytes: the last response of INIT, the UPDATEs of
the pieces and FINISH equals the response of DIGEST of the whole, OK with 16 bytes; the sequence leaves the slot TERMINAL
with the words whose serialisation was returned, and DIGEST leaves every slot as it was. [R182] -/
def Obligations.OneShotEqualsStreaming : Prop :=
  ∀ (s : State) (ctx : BitVec 4) (chunks : List (List Byte)), ctx.toNat < s.dc.length →
    chunks.flatten.length < 2 ^ 32 →
    ∃ (t u : State) (d : DigestCtx),
      execAll (.init ctx :: (chunks.map (Instr.update ctx) ++ [.finish ctx])) s = .next t ∧
      exec (.digest chunks.flatten) s = .next u ∧
      t.responses.getLast? = some (okBytes s.fault ++ digestBytes d.h) ∧
      u.responses.getLast? = some (okBytes s.fault ++ digestBytes d.h) ∧
      t.dc[ctx.toNat]? = some d ∧ d.phase = .terminal ∧ u.dc = s.dc ∧ u.hc = s.hc

/-- For every key of fewer than 2^32 bytes: the effective key has 64 bytes; with at most 64 bytes it is the key followed by
zeros; with more it is MD4(key) in the closed form followed by 48 zeros. [R185] -/
def Obligations.EffectiveKeyIsSixtyFourBytes : Prop :=
  ∀ key : List Byte, key.length < 2 ^ 32 →
    (effectiveKey key).length = 64 ∧
    (key.length ≤ 64 → effectiveKey key = key ++ List.replicate (64 - key.length) 0x00) ∧
    (64 < key.length → effectiveKey key = md4Closed key ++ List.replicate 48 0x00)

/-- For every engine, HMAC slot it has in whatever phase and key of fewer than 2^32 bytes: HMAC_INIT answers a state in which
the slot's OPAD is K0 xor 0x5C, INNER has H = COMPRESS(IV, K0 xor 0x36), count 64, FILL = 0 and ACTIVE, OUTER is unchanged,
one OK response without digest is appended, and the Digest slots, the other HMAC slots, FAULT and the host's stream are
unchanged. [R186] -/
def Obligations.HmacInitCompletes : Prop :=
  ∀ (s : State) (ctx : BitVec 4) (key : List Byte) (h : HmacCtx), s.hc[ctx.toNat]? = some h → key.length < 2 ^ 32 →
    ∃ (t : State) (k : HmacCtx), exec (.hmacInit ctx key) s = .next t ∧
      k.opad.readBytes 0 64 = xorByte (effectiveKeyClosed key) 0x5C ∧
      k.inner.h = compressWords initialWords (blockWord (xorByte (effectiveKeyClosed key) 0x36)) ∧
      k.inner.lo = 64 ∧ k.inner.hi = 0 ∧ k.inner.fill = 0 ∧ k.inner.phase = .active ∧
      k.outer = h.outer ∧
      t.hc = s.hc.set ctx.toNat k ∧ t.dc = s.dc ∧ t.fault = s.fault ∧ t.inputs = s.inputs ∧
      t.responses = s.responses ++ [okBytes s.fault] ∧ (s.job = none → t.job = none)

/-- For every engine, active HMAC slot and byte string of fewer than 2^32 bytes: HMAC_UPDATE answers a state in which INNER has
absorbed the bytes as UPDATE does, OPAD and OUTER are unchanged, one OK response without digest is appended, and the Digest
slots, the other HMAC slots, FAULT and the host's stream are unchanged. On a slot whose INNER is not active it sets FAULT,
appends the response of ERR_CTX_STATE and changes nothing else. [R187] -/
def Obligations.HmacUpdateCompletes : Prop :=
  ∀ (s : State) (ctx : BitVec 4) (data : List Byte) (h : HmacCtx),
    s.hc[ctx.toNat]? = some h → data.length < 2 ^ 32 →
    (h.inner.phase = .active →
      ∃ (t : State) (d : DigestCtx), exec (.hmacUpdate ctx data) s = .next t ∧ h.inner.AbsorbsTo data d ∧
        t.hc = s.hc.set ctx.toNat { inner := d, outer := h.outer, opad := h.opad } ∧
        t.dc = s.dc ∧ t.fault = s.fault ∧ t.inputs = s.inputs ∧
        t.responses = s.responses ++ [okBytes s.fault] ∧ (s.job = none → t.job = none)) ∧
    (h.inner.phase ≠ .active →
      exec (.hmacUpdate ctx data) s = .next { s with fault := true, responses := s.responses ++ [errBytes .ctxState] })

/-- For every engine and active HMAC slot: HMAC_FINISH answers a state in which INNER is finished as FINISH does, giving D;
OUTER is terminal with count 80, FILL 0, the words whose serialisation is MD4(OPAD || D) and the last padded block as
residue; OPAD is unchanged; one OK response with that tag is appended; the Digest slots, the other HMAC slots, FAULT and the
host's stream are unchanged. On a slot whose INNER is not active it sets FAULT, appends the response of ERR_CTX_STATE and
changes nothing else. [R188] -/
def Obligations.HmacFinishCompletes : Prop :=
  ∀ (s : State) (ctx : BitVec 4) (h : HmacCtx), s.hc[ctx.toNat]? = some h →
    (h.inner.phase = .active →
      ∃ (t : State) (k : HmacCtx), exec (.hmacFinish ctx) s = .next t ∧ h.inner.FinishesTo k.inner ∧
        digestBytes k.outer.h = md4Closed (h.opad.readBytes 0 64 ++ digestBytes k.inner.h) ∧
        k.outer.lo = 80 ∧ k.outer.hi = 0 ∧ k.outer.fill = 0 ∧ k.outer.phase = .terminal ∧
        k.outer.buf.readBytes 0 64 = (paddedMessage (h.opad.readBytes 0 64 ++ digestBytes k.inner.h)).drop 64 ∧
        k.opad = h.opad ∧
        t.hc = s.hc.set ctx.toNat k ∧ t.dc = s.dc ∧ t.fault = s.fault ∧ t.inputs = s.inputs ∧
        t.responses = s.responses ++ [okBytes s.fault ++ digestBytes k.outer.h] ∧ (s.job = none → t.job = none)) ∧
    (h.inner.phase ≠ .active →
      exec (.hmacFinish ctx) s = .next { s with fault := true, responses := s.responses ++ [errBytes .ctxState] })

/-- For every engine and every key and byte string of fewer than 2^32 bytes each: HMAC answers a state in which one OK response
with HMAC_MD4(key, data) in the closed form of R189 is appended and every slot, FAULT and the host's stream are unchanged.
[R190] -/
def Obligations.HmacOneShotCompletes : Prop :=
  ∀ (s : State) (key data : List Byte), key.length < 2 ^ 32 → data.length < 2 ^ 32 →
    ∃ t : State, exec (.hmac key data) s = .next t ∧
      t.responses = s.responses ++ [okBytes s.fault ++ hmacClosed key data] ∧
      t.dc = s.dc ∧ t.hc = s.hc ∧ t.fault = s.fault ∧ t.inputs = s.inputs ∧ (s.job = none → t.job = none)

/-- The HMAC_INIT body makes a context hold the empty message under the key; if it holds m, the HMAC_UPDATE body with d makes it
hold m || d; and if it holds m under the key, the HMAC_FINISH body leaves the tag HMAC_MD4(key, m) of R189. [10_state.md
section 4, 44_hmac.md section 3] -/
def Obligations.HmacContextHoldsItsMessage : Prop :=
  (∀ (h : HmacCtx) (key : List Byte), key.length < 2 ^ 32 → (hmacInitOp h key).Holds key []) ∧
  (∀ (h : HmacCtx) (key m data : List Byte), data.length < 2 ^ 32 → h.Holds key m →
    (hmacUpdateOp h data).Holds key (m ++ data)) ∧
  ∀ (h : HmacCtx) (key m : List Byte), h.Holds key m → tagOf (hmacFinishOp h) = hmacClosed key m

/-- For every engine, HMAC slot it has in whatever phase, key of fewer than 2^32 bytes and list of byte strings of fewer than
2^32 bytes each: executing HMAC_INIT, one HMAC_UPDATE for each and HMAC_FINISH completes; the responses are one OK without
digest for each command before the last, then OK with HMAC_MD4(key, concatenation); FAULT, the Digest slots and the other
HMAC slots are unchanged. [44_hmac.md section 3] -/
def Obligations.HmacStreamingIsHmacMd4 : Prop :=
  ∀ (s : State) (ctx : BitVec 4) (key : List Byte) (chunks : List (List Byte)), ctx.toNat < s.hc.length →
    key.length < 2 ^ 32 → (∀ d ∈ chunks, d.length < 2 ^ 32) →
    ∃ t : State,
      execAll (.hmacInit ctx key :: (chunks.map (Instr.hmacUpdate ctx) ++ [.hmacFinish ctx])) s = .next t ∧
      t.responses = s.responses ++ List.replicate (chunks.length + 1) (okBytes s.fault) ++
        [okBytes s.fault ++ hmacClosed key chunks.flatten] ∧
      t.fault = s.fault ∧ t.dc = s.dc ∧ ∀ n, n ≠ ctx.toNat → t.hc[n]? = s.hc[n]?

/-- For every key of more than 64 and fewer than 2^32 bytes, every message and every engine: HMAC_MD4 of the key equals HMAC_MD4
of its digest padded to 64 bytes and of its digest; HMAC_INIT with the key and with its digest both answer a next state, and
the two agree in every slot, FAULT and both streams; so do HMAC with the key and with its digest. [R191] -/
def Obligations.KeyFoldingEquivalence : Prop :=
  ∀ (key m : List Byte) (s : State) (ctx : BitVec 4), 64 < key.length → key.length < 2 ^ 32 →
    hmacClosed key m = hmacClosed (md4Closed key ++ List.replicate 48 0x00) m ∧
    hmacClosed key m = hmacClosed (md4Closed key) m ∧
    (∃ t u : State, exec (.hmacInit ctx key) s = .next t ∧ exec (.hmacInit ctx (md4Closed key)) s = .next u ∧
      t.dc = u.dc ∧ t.hc = u.hc ∧ t.fault = u.fault ∧ t.inputs = u.inputs ∧ t.responses = u.responses) ∧
    ∃ t u : State, exec (.hmac key m) s = .next t ∧ exec (.hmac (md4Closed key) m) s = .next u ∧
      t.dc = u.dc ∧ t.hc = u.hc ∧ t.fault = u.fault ∧ t.inputs = u.inputs ∧ t.responses = u.responses

/-- For every engine and HMAC slot it has, the phase being that of INNER: HMAC_INIT answers OK and ACTIVE in every phase;
HMAC_UPDATE answers OK and ACTIVE on an active slot; HMAC_FINISH answers OK, 16 tag bytes and TERMINAL on an active slot;
HMAC_UPDATE and HMAC_FINISH on a slot that is not active answer ERR_CTX_STATE and leave its phase. [R192] -/
def Obligations.HmacLifecycle : Prop :=
  ∀ (s : State) (ctx : BitVec 4) (data : List Byte) (h : HmacCtx), s.hc[ctx.toNat]? = some h →
    (∃ t k, exec (.hmacInit ctx data) s = .next t ∧ t.hc[ctx.toNat]? = some k ∧ k.inner.phase = .active ∧
      t.responses = s.responses ++ [okBytes s.fault]) ∧
    (h.inner.phase = .active →
      (∃ t k, exec (.hmacUpdate ctx data) s = .next t ∧ t.hc[ctx.toNat]? = some k ∧ k.inner.phase = .active ∧
        t.responses = s.responses ++ [okBytes s.fault]) ∧
      ∃ t k g, exec (.hmacFinish ctx) s = .next t ∧ t.hc[ctx.toNat]? = some k ∧ k.inner.phase = .terminal ∧
        t.responses = s.responses ++ [okBytes s.fault ++ g] ∧ g.length = 16) ∧
    (h.inner.phase ≠ .active →
      (∃ t k, exec (.hmacUpdate ctx data) s = .next t ∧ t.hc[ctx.toNat]? = some k ∧ k.inner.phase = h.inner.phase ∧
        t.responses = s.responses ++ [errBytes .ctxState]) ∧
      ∃ t k, exec (.hmacFinish ctx) s = .next t ∧ t.hc[ctx.toNat]? = some k ∧ k.inner.phase = h.inner.phase ∧
        t.responses = s.responses ++ [errBytes .ctxState])

/-- With no reset pending: on an idle engine whose oldest input is a packet that decodes to an instruction, the step takes the
packet from the stream and executes the instruction; while a COMPRESS is in progress, the step executes the step that t
selects, and at t = 48 it ends the COMPRESS (the values it leaves in x and t are the model's free values, log entry 3).
[20_memory.md section 5, 30_encoding.md section 5, 10_state.md section 2] -/
def Obligations.StepExecutesTheDecodedInstruction : Prop :=
  (∀ (s : State) (p : List Byte) (rest : List HostEvent) (i : Instr),
    s.job = none → pendingReset s.inputs = none → s.inputs = .packet p :: rest → decodePacket s.config p = .ok i →
      step s = exec i { s with inputs := rest }) ∧
  (∀ (s : State) (r : CtxRef) (i : Instr),
    s.job = some r → pendingReset s.inputs = none → decodeStep s.t = some i → step s = exec i s) ∧
  ∀ (s : State) (r : CtxRef) (c : DigestCtx),
    s.job = some r → pendingReset s.inputs = none → s.t = 48 → s.ctxAt r = some c →
      step s = .next (s.setCtxAt r { c with h := feedForward c.h s.x, fill := 0 }).retireCore

/-- For every idle engine with no reset pending whose oldest input is a packet: if it decodes to an error, or to UPDATE or
FINISH on a slot that is not active, or to HMAC_UPDATE or HMAC_FINISH on a slot whose INNER is not active, the step takes
the packet whole from the stream, sets FAULT, appends the 4-byte response of the code with FAULT = 1, and changes nothing
else; the engine goes on from there. [R203] -/
def Obligations.FailingPacketIsRaised : Prop :=
  ∀ (s : State) (p : List Byte) (rest : List HostEvent) (ctx : BitVec 4) (data : List Byte),
    s.job = none → pendingReset s.inputs = none → s.inputs = .packet p :: rest →
    (∀ e, decodePacket s.config p = .error e →
      step s = .next { s with inputs := rest, fault := true, responses := s.responses ++ [errBytes e] }) ∧
    (∀ c, decodePacket s.config p = .ok (.update ctx data) ∨ decodePacket s.config p = .ok (.finish ctx) →
      s.dc[ctx.toNat]? = some c → c.phase ≠ .active →
      step s = .next { s with inputs := rest, fault := true, responses := s.responses ++ [errBytes .ctxState] }) ∧
    (∀ h, decodePacket s.config p = .ok (.hmacUpdate ctx data) ∨ decodePacket s.config p = .ok (.hmacFinish ctx) →
      s.hc[ctx.toNat]? = some h → h.inner.phase ≠ .active →
      step s = .next { s with inputs := rest, fault := true, responses := s.responses ++ [errBytes .ctxState] })

/-- For every engine with no reset pending, idle or inside a COMPRESS, and whatever packets wait: when the host asserts reset
(and then sends anything else), the next step gives FAULT = 0, every phase UNINIT, no COMPRESS in progress, an empty
response stream, a command stream that holds only what the host sent after the reset, and the same slot counts. For every
step with no reset pending that answers a next state: FAULT stays set if it was, and a phase that changes becomes TERMINAL,
unless it is the phase of a Digest slot and the packet taken is INIT of that slot, or of an INNER and the packet taken is
HMAC_INIT of that slot. (That the next step obeys a reset behind waiting packets, drops what stood before it and keeps what
follows it is the model's choice, log entry 7.) [70_reset_and_hazards.md section 1, 10_state.md section 7] -/
def Obligations.ResetIsTheOnlyWayBack : Prop :=
  (∀ (s : State) (later : List HostEvent), pendingReset s.inputs = none →
    ∃ t : State, step { s.hostReset with inputs := s.hostReset.inputs ++ later } = .next t ∧
      t.fault = false ∧ t.job = none ∧ t.inputs = later ∧ t.responses = [] ∧
      t.dc.length = s.dc.length ∧ t.hc.length = s.hc.length ∧ (∀ c ∈ t.dc, c.phase = .uninit) ∧
      ∀ h ∈ t.hc, h.inner.phase = .uninit ∧ h.outer.phase = .uninit) ∧
  ∀ s t : State, pendingReset s.inputs = none → step s = .next t →
    (s.fault = true → t.fault = true) ∧
    (∀ n c d, s.dc[n]? = some c → t.dc[n]? = some d → d.phase ≠ c.phase →
      d.phase = .terminal ∨
        ∃ p rest ctx, s.inputs = .packet p :: rest ∧ decodePacket s.config p = .ok (.init ctx) ∧ ctx.toNat = n) ∧
    (∀ n h k, s.hc[n]? = some h → t.hc[n]? = some k →
      (k.inner.phase ≠ h.inner.phase →
        k.inner.phase = .terminal ∨
          ∃ p rest ctx key, s.inputs = .packet p :: rest ∧ decodePacket s.config p = .ok (.hmacInit ctx key) ∧
            ctx.toNat = n) ∧
      (k.outer.phase ≠ h.outer.phase → k.outer.phase = .terminal))

/-- For every legal pair of slot counts the reset state has that many slots, FAULT = 0, every phase UNINIT, no COMPRESS in
progress and both streams empty; the machine's reset state is that of the test instance, two Digest slots and one HMAC slot
(the instance is the model's choice, log entry 1). [10_state.md section 7, 70_reset_and_hazards.md section 1] -/
def Obligations.ResetStateMeetsTheTable : Prop :=
  (∀ cfg : Config, cfg.wf → (State.resetOf cfg).AfterReset ∧ (State.resetOf cfg).config = cfg) ∧
    State.reset = State.resetOf { nDctx := 2, nHctx := 1 } ∧ Sys2Proof.core.reset = State.reset

/-- Where no COMPRESS is in progress and the host has sent nothing, a step leaves the state as it is. (A step of a waiting
engine is the model's form of waiting, log entry 7.) [70_reset_and_hazards.md section 1] -/
def Obligations.IdleEngineWaits : Prop :=
  ∀ s : State, s.job = none → s.inputs = [] → step s = .next s

/-- For every idle engine with no reset pending whose oldest input is a packet: the step completes, takes the packet, and
appends exactly one response, whose first byte is CODE plus 16 times FAULT after the command and whose next three bytes are
0; CODE is 0 to 5; FAULT is set exactly when it was set or CODE is not 0; 16 digest bytes follow when and only when CODE is
0 and the decoded command is FINISH, DIGEST, HMAC_FINISH or HMAC, and else nothing; where CODE is not 0 no slot changes; a
packet that decodes has CODE 0 or 4 (ERR_CTX_STATE), and the decode errors have CODE 1 ERR_ILLEGAL_OP, 2 ERR_RESERVED, 3
ERR_CTX_INDEX and 5 ERR_FRAMING. [R68, R70, R201] -/
def Obligations.EveryPacketGetsItsResponse : Prop :=
  ∀ (s : State) (p : List Byte) (rest : List HostEvent),
    s.job = none → pendingReset s.inputs = none → s.inputs = .packet p :: rest →
      ∃ (t : State) (code : Nat) (digest : List Byte), step s = .next t ∧ t.inputs = rest ∧ code ≤ 5 ∧
        t.responses = s.responses ++ [BitVec.ofNat 8 (code + 16 * t.fault.toNat) :: 0x00 :: 0x00 :: 0x00 :: digest] ∧
        t.fault = (s.fault || decide (code ≠ 0)) ∧
        (digest.length = 16 ↔ code = 0 ∧ ∃ i, decodePacket s.config p = .ok i ∧ returnsDigest i = true) ∧
        (digest.length = 16 ∨ digest = []) ∧
        (code ≠ 0 → t.dc = s.dc ∧ t.hc = s.hc) ∧
        (decodePacket s.config p = .error .illegalOp → code = 1) ∧ (decodePacket s.config p = .error .reserved → code = 2) ∧
        (decodePacket s.config p = .error .ctxIndex → code = 3) ∧ (decodePacket s.config p = .error .framing → code = 5) ∧
        (∀ i, decodePacket s.config p = .ok i → code = 0 ∨ code = 4)

/-- For every instruction and state: with FAULT set instead of clear the outcome is of the same kind, every slot, the core and
the host's stream come out equal, as many responses are appended, and the last response's bytes after the status word, and
the CODE of a response appended, are equal. (That x and t come out equal is the model's choice of free values, log entry 3.)
[10_state.md section 5] -/
def Obligations.FaultFlagChangesNoBehaviour : Prop :=
  ∀ (i : Instr) (s t : State), exec i { s with fault := false } = .next t →
    ∃ u : State, exec i { s with fault := true } = .next u ∧
      u.dc = t.dc ∧ u.hc = t.hc ∧ u.x = t.x ∧ u.t = t.t ∧ u.job = t.job ∧ u.inputs = t.inputs ∧ u.free = t.free ∧
      u.responses.length = t.responses.length ∧
      u.responses.getLast?.map (List.drop 4) = t.responses.getLast?.map (List.drop 4) ∧
      (u.responses.length ≠ s.responses.length →
        u.responses.getLast?.map (fun r => (r.getD 0 0).toNat % 16) =
          t.responses.getLast?.map (fun r => (r.getD 0 0).toNat % 16))

/-- For every instruction, when it answers a next state: every Digest slot it does not name and every HMAC slot it does not name
is unchanged in every field and every byte of BUF and OPAD; INIT, UPDATE and FINISH name one Digest slot, the HMAC slot
commands name one HMAC slot, DIGEST, HMAC and the 48 steps name none; the slot counts and the host's stream are unchanged.
INIT, and UPDATE and HMAC_UPDATE that complete no block, also leave x, t, the COMPRESS in progress and the draw counter as
they are (this last sentence is the model's choice, log entry 3: the spec gives x and t no value there). [10_state.md
section 2, 10_state.md section 3, 10_state.md section 4, 20_memory.md section 4] -/
def Obligations.InstructionsTouchOnlyTheirSlot : Prop :=
  ∀ (i : Instr) (s t : State), exec i s = .next t →
    (∀ n, digestSlotOf i ≠ some n → t.dc[n]? = s.dc[n]?) ∧
    (∀ n, hmacSlotOf i ≠ some n → t.hc[n]? = s.hc[n]?) ∧
    t.dc.length = s.dc.length ∧ t.hc.length = s.hc.length ∧ t.inputs = s.inputs ∧
    (∀ ctx, i = .init ctx → s.SameCore t) ∧
    (∀ ctx data c, i = .update ctx data → s.dc[ctx.toNat]? = some c → c.fill.toNat + data.length < 64 → s.SameCore t) ∧
    (∀ ctx data h, i = .hmacUpdate ctx data → s.hc[ctx.toNat]? = some h → h.inner.fill.toNat + data.length < 64 →
      s.SameCore t)

/-- For any two slot commands that name different slots: both orders complete and leave the same state but for the responses;
each command's response has the same CODE and the same digest bytes in both orders, and the responses are equal byte for
byte where neither command raises FAULT. (The FAULT bit of a response may differ when the other command of the pair fails
first: log entry 10. That the core and the draw counter come out equal too is the model's choice of free values, log entry
3.) [20_memory.md section 5] -/
def Obligations.CommandsOnDifferentSlotsCommute : Prop :=
  ∀ (i j : Instr) (s : State),
    digestSlotOf i ≠ none ∨ hmacSlotOf i ≠ none → digestSlotOf j ≠ none ∨ hmacSlotOf j ≠ none →
    (digestSlotOf i ≠ digestSlotOf j ∨ hmacSlotOf i ≠ hmacSlotOf j) →
    ∃ (t u : State) (ri rj ri' rj' : List Byte),
      execAll [i, j] s = .next t ∧ execAll [j, i] s = .next u ∧
      u = { t with responses := u.responses } ∧
      t.responses = s.responses ++ [ri, rj] ∧ u.responses = s.responses ++ [rj', ri'] ∧
      (ri.getD 0 0).toNat % 16 = (ri'.getD 0 0).toNat % 16 ∧ (rj.getD 0 0).toNat % 16 = (rj'.getD 0 0).toNat % 16 ∧
      ri.drop 1 = ri'.drop 1 ∧ rj.drop 1 = rj'.drop 1 ∧
      (t.fault = s.fault → ri = ri' ∧ rj = rj')

/-- For every legal pair of slot counts the reset state meets the invariant of the engine; so does the machine's reset state.
(The zero values of the fields the spec leaves unspecified are the model's, log entry 2; the invariant does not depend on
them but for the stores' canonical form, log entry 15, and t at most 48.) [10_state.md section 3, 10_state.md section 7] -/
def Obligations.InvariantHoldsAtReset : Prop :=
  (∀ cfg : Config, cfg.wf → (State.resetOf cfg).Inv) ∧ State.reset.Inv

/-- For every state that meets the invariant (legal slot counts; FILL = LO mod 64 in every active context and 0 in every
terminal one; OUTER never active; t at most 48; a COMPRESS in progress is for a context of the engine with a full buffer;
stores in canonical form; responses of 4 or 20 bytes), a step that answers a next state answers one that meets it. (The
canonical form of the stores is the model's choice, log entry 15; the full buffer of a COMPRESS is held as log entry 6
says.) [10_state.md section 2, 10_state.md section 3, 10_state.md section 4, 30_encoding.md section 4] -/
def Obligations.EveryStepKeepsTheInvariant : Prop :=
  ∀ s t : State, s.Inv → step s = .next t → t.Inv

/-- For every state that meets the invariant, whatever packets the host has sent, the step answers a next state: no packet, no
operand value and no phase stops the engine. [30_encoding.md section 5, 60_exceptions.md section 1, 70_reset_and_hazards.md
section 4] -/
def Obligations.EngineNeverStops : Prop :=
  ∀ s : State, s.Inv → ∃ t, step s = .next t

/-- For any two idle engines that agree on FAULT, both streams, every phase and, in active contexts, on H, the counter, FILL,
BUF[0..FILL) and OPAD: a step of the one that answers a next state has a step of the other that does, and the two next
states agree in the same way, the responses among it. Residue, OUTER, the working registers and t do not matter.
[10_state.md section 6, 93_implementation_defined.md part 1] -/
def Obligations.SameEnginesStaySame : Prop :=
  ∀ s t s' : State, s.Same t → step s = .next s' → ∃ t', step t = .next t' ∧ s'.Same t'

/-- For any two engines right after reset with the same slot counts, whatever their unspecified fields hold, and every sequence
of host events sent to both (packets and resets): after any number of steps both are running, and their responses and FAULT
flags are equal. [10_state.md section 7, 70_reset_and_hazards.md section 5] -/
def Obligations.UnspecifiedResetValuesAreNeverObserved : Prop :=
  ∀ (s t : State) (events : List HostEvent) (n : Nat), s.AfterReset → t.AfterReset → s.config = t.config →
    ∃ s' t' : State,
      Host.Core.run Sys2Proof.core n { s with inputs := events } = .next s' ∧
      Host.Core.run Sys2Proof.core n { t with inputs := events } = .next t' ∧
      s'.responses = t'.responses ∧ s'.fault = t'.fault

/-- For every state in which the engine has something to do, and every packet: sending the packet and then taking the step gives
what taking the step and then sending the packet gives, if the step answers a next state; and taking the oldest response
never changes the rest of the state. (The host's moves beside the step are the model's form of it, log entry 7.)
[70_reset_and_hazards.md section 3] -/
def Obligations.SendingAheadChangesNoResult : Prop :=
  (∀ (s t : State) (p : List Byte), s.job ≠ none ∨ s.inputs ≠ [] → step s = .next t →
    step (s.hostSend p) = .next (t.hostSend p)) ∧
  ∀ (s : State) (r : List Byte), s.hostReceive.1 = some r →
    s.responses = r :: s.hostReceive.2.responses ∧
      s.hostReceive.2 = { s with responses := s.hostReceive.2.responses }
end

