-- ==== Sys2Proof/Laws/Bytes.lean ====
section
/-!
SUPPORT. Laws of the byte-order helpers and of the header fields: each reads back what the other wrote (R43, R61, R64).
-/

namespace Sys2Proof

theorem byteOf_toNat (v : Word) (i : Nat) : (byteOf v i).toNat = v.toNat / 2 ^ (8 * i) % 256 := by
  simp [byteOf, BitVec.extractLsb'_toNat, Nat.shiftRight_eq_div_pow]

@[simp] theorem length_le32 (v : Word) : (le32 v).length = 4 := rfl

/-- `from_le32` reads back what `le32` wrote, whatever follows. -/
@[simp] theorem fromLe32_le32_append (v : Word) (rest : List Byte) : fromLe32 (le32 v ++ rest) = v := by
  apply BitVec.eq_of_toNat_eq
  have hv := v.isLt
  simp only [le32, List.cons_append, fromLe32, BitVec.toNat_ofNat, byteOf_toNat]
  omega

@[simp] theorem fromLe32_le32 (v : Word) : fromLe32 (le32 v) = v := by
  simpa using fromLe32_le32_append v []

theorem fromLe32_toNat (b0 b1 b2 b3 : Byte) (rest : List Byte) :
    (fromLe32 (b0 :: b1 :: b2 :: b3 :: rest)).toNat =
      b0.toNat + 256 * b1.toNat + 65536 * b2.toNat + 16777216 * b3.toNat := by
  have h0 := b0.isLt
  have h1 := b1.isLt
  have h2 := b2.isLt
  have h3 := b3.isLt
  simp only [fromLe32, BitVec.toNat_ofNat]
  omega

/-- `le32` writes back what `from_le32` read. -/
theorem le32_fromLe32 (b0 b1 b2 b3 : Byte) (rest : List Byte) :
    le32 (fromLe32 (b0 :: b1 :: b2 :: b3 :: rest)) = [b0, b1, b2, b3] := by
  have h := fromLe32_toNat b0 b1 b2 b3 rest
  have h0 := b0.isLt
  have h1 := b1.isLt
  have h2 := b2.isLt
  have h3 := b3.isLt
  simp only [le32, List.cons.injEq, and_true]
  refine ⟨?_, ?_, ?_, ?_⟩ <;> apply BitVec.eq_of_toNat_eq <;> rw [byteOf_toNat, h] <;> omega

/-! ### The header (R61) -/

theorem hdrOp_toNat (h : Word) : (hdrOp h).toNat = h.toNat % 16 := by
  simp [hdrOp, BitVec.extractLsb'_toNat]

theorem hdrCtx_toNat (h : Word) : (hdrCtx h).toNat = h.toNat / 16 % 16 := by
  simp [hdrCtx, BitVec.extractLsb'_toNat, Nat.shiftRight_eq_div_pow]

theorem hdrRsvd_toNat (h : Word) : (hdrRsvd h).toNat = h.toNat / 256 % 2 ^ 24 := by
  simp [hdrRsvd, BitVec.extractLsb'_toNat, Nat.shiftRight_eq_div_pow]

@[simp] theorem length_headerBytes (op : Opcode) (ctx : BitVec 4) : (headerBytes op ctx).length = 4 := rfl

@[simp] theorem opcodeOf_opcodeNumber (op : Opcode) : opcodeOf (opcodeNumber op) = some op := by
  cases op <;> rfl

/-- The header's first byte as a number: `OP + 16*CTX`. -/
theorem firstHeaderByte_toNat (op : Opcode) (ctx : BitVec 4) :
    (ctx ++ opcodeNumber op : BitVec (4 + 4)).toNat = (opcodeNumber op).toNat + 16 * ctx.toNat := by
  have h := (opcodeNumber op).isLt
  rw [BitVec.toNat_append, ← Nat.shiftLeft_add_eq_or_of_lt h, Nat.shiftLeft_eq]
  omega

theorem headerWord_toNat (op : Opcode) (ctx : BitVec 4) (rest : List Byte) :
    (fromLe32 (headerBytes op ctx ++ rest)).toNat = (opcodeNumber op).toNat + 16 * ctx.toNat := by
  have h := fromLe32_toNat (ctx ++ opcodeNumber op : BitVec (4 + 4)) 0 0 0 rest
  have h2 := firstHeaderByte_toNat op ctx
  simp only [headerBytes, List.cons_append, List.nil_append]
  rw [h, h2]
  simp

@[simp] theorem hdrOp_headerBytes (op : Opcode) (ctx : BitVec 4) (rest : List Byte) :
    hdrOp (fromLe32 (headerBytes op ctx ++ rest)) = opcodeNumber op := by
  apply BitVec.eq_of_toNat_eq
  have := (opcodeNumber op).isLt
  rw [hdrOp_toNat, headerWord_toNat]
  omega

@[simp] theorem hdrCtx_headerBytes (op : Opcode) (ctx : BitVec 4) (rest : List Byte) :
    hdrCtx (fromLe32 (headerBytes op ctx ++ rest)) = ctx := by
  apply BitVec.eq_of_toNat_eq
  have := (opcodeNumber op).isLt
  have := ctx.isLt
  rw [hdrCtx_toNat, headerWord_toNat]
  omega

@[simp] theorem hdrRsvd_headerBytes (op : Opcode) (ctx : BitVec 4) (rest : List Byte) :
    hdrRsvd (fromLe32 (headerBytes op ctx ++ rest)) = 0 := by
  apply BitVec.eq_of_toNat_eq
  have := (opcodeNumber op).isLt
  have := ctx.isLt
  rw [hdrRsvd_toNat, headerWord_toNat]
  change _ = 0
  omega

@[simp] theorem length_lenField (data : List Byte) : (lenField data).length = 4 := rfl

/-- A length field reads back the length it was written for (R64). -/
theorem lenField_toNat {data : List Byte} (h : data.length < 2 ^ 32) (rest : List Byte) :
    (fromLe32 (lenField data ++ rest)).toNat = data.length := by
  simpa [lenField] using h

end Sys2Proof
end

