-- ==== Sys2Proof/Laws/Memory.lean ====
section
/-!
SUPPORT. Laws of the 64-byte stores: a read after a write (R42), the canonical form, and runs of bytes.
-/

namespace Sys2Proof.Machine

@[simp] theorem Memory.read_nil (a : Nat) : Memory.read [] a = 0 := rfl

theorem Memory.read_erase (m : Memory) (a b : Nat) :
    (m.erase a).read b = if b = a then 0 else m.read b := by
  induction m with
  | nil => simp [Memory.erase]
  | cons cell rest ih =>
    by_cases hc : cell.1 = a <;> by_cases hb : b = a
    · simp_all [Memory.erase]
    · have : cell.1 ≠ b := fun h => hb (h.symm.trans hc)
      simp_all [Memory.erase, Memory.read]
    · have : cell.1 ≠ b := fun h => hc (h.trans hb)
      simp_all [Memory.erase, Memory.read]
    · simp_all [Memory.erase, Memory.read]

theorem Memory.mem_erase {m : Memory} {a : Nat} {cell : Host.Cell} :
    cell ∈ m.erase a ↔ cell ∈ m ∧ cell.1 ≠ a := by
  induction m with
  | nil => simp [Memory.erase]
  | cons first rest ih =>
    by_cases h : first.1 = a
    · simp only [Memory.erase, h, if_true, ih, List.mem_cons]
      constructor
      · rintro ⟨hm, hn⟩
        exact ⟨.inr hm, hn⟩
      · rintro ⟨rfl | hm, hn⟩
        · exact absurd h hn
        · exact ⟨hm, hn⟩
    · simp only [Memory.erase, h, if_false, ih, List.mem_cons]
      constructor
      · rintro (rfl | ⟨hm, hn⟩)
        · exact ⟨.inl rfl, h⟩
        · exact ⟨.inr hm, hn⟩
      · rintro ⟨rfl | hm, hn⟩
        · exact .inl rfl
        · exact .inr ⟨hm, hn⟩

theorem Memory.read_insert (m : Memory) (a b : Nat) (v : Byte) (h : ∀ cell ∈ m, cell.1 ≠ a) :
    (m.insert a v).read b = if b = a then v else m.read b := by
  induction m with
  | nil => simp [Memory.insert, Memory.read, Memory.unlisted, eq_comm]
  | cons cell rest ih =>
    have hcell : cell.1 ≠ a := h cell (by simp)
    have hrest := ih fun c hc => h c (by simp [hc])
    by_cases hlt : cell.1 < a
    · simp only [Memory.insert, hlt, if_true, Memory.read, hrest]
      by_cases hb : b = a <;> by_cases hcb : cell.1 = b <;> simp_all
    · simp only [Memory.insert, hlt, if_false, Memory.read]
      by_cases hb : b = a
      · simp [hb]
      · simp [hb, Ne.symm hb]

/-- R42: the written byte reads back, every other byte reads as before. -/
theorem Memory.read_write (m : Memory) (a b : Nat) (v : Byte) :
    (m.write a v).read b = if b = a then v else m.read b := by
  have hne : ∀ cell ∈ m.erase a, cell.1 ≠ a := fun cell hc => (Memory.mem_erase.mp hc).2
  unfold Memory.write
  split
  · next hv => simp [Memory.read_erase, hv, Memory.unlisted]
  · rw [Memory.read_insert _ _ _ _ hne, Memory.read_erase]
    by_cases hb : b = a <;> simp [hb]

@[simp] theorem Memory.read_write_same (m : Memory) (a : Nat) (v : Byte) : (m.write a v).read a = v := by
  simp [Memory.read_write]

theorem Memory.read_write_other (m : Memory) {a b : Nat} (v : Byte) (h : b ≠ a) :
    (m.write a v).read b = m.read b := by
  simp [Memory.read_write, h]

/-! ### The canonical form -/

theorem Memory.wf_nil : Memory.wf [] := by simp [Memory.wf]

theorem Memory.wf_erase {m : Memory} (a : Nat) (h : m.wf) : (m.erase a).wf := by
  obtain ⟨hp, hm⟩ := h
  refine ⟨?_, fun cell hc => hm cell (Memory.mem_erase.mp hc).1⟩
  clear hm
  induction m with
  | nil => simp [Memory.erase]
  | cons first rest ih =>
    rw [List.pairwise_cons] at hp
    by_cases hf : first.1 = a
    · simpa [Memory.erase, hf] using ih hp.2
    · simp only [Memory.erase, hf, if_false, List.pairwise_cons]
      exact ⟨fun cell hc => hp.1 cell (Memory.mem_erase.mp hc).1, ih hp.2⟩

theorem Memory.mem_insert {m : Memory} {a : Nat} {v : Byte} {cell : Host.Cell} :
    cell ∈ m.insert a v ↔ cell = (a, v) ∨ cell ∈ m := by
  induction m with
  | nil => simp [Memory.insert]
  | cons first rest ih =>
    by_cases h : first.1 < a
    · simp only [Memory.insert, h, if_true, List.mem_cons, ih]
      tauto
    · simp [Memory.insert, h]

theorem Memory.pairwise_insert {m : Memory} {a : Nat} {v : Byte} (hp : m.Pairwise fun p q => p.1 < q.1)
    (hne : ∀ cell ∈ m, cell.1 ≠ a) : (m.insert a v).Pairwise fun p q => p.1 < q.1 := by
  induction m with
  | nil => simp [Memory.insert]
  | cons first rest ih =>
    rw [List.pairwise_cons] at hp
    have hf : first.1 ≠ a := hne first (by simp)
    by_cases h : first.1 < a
    · simp only [Memory.insert, h, if_true, List.pairwise_cons]
      refine ⟨fun cell hc => ?_, ih hp.2 fun c hc => hne c (by simp [hc])⟩
      rcases Memory.mem_insert.mp hc with rfl | hc
      · exact h
      · exact hp.1 cell hc
    · simp only [Memory.insert, h, if_false, List.pairwise_cons, List.mem_cons]
      refine ⟨?_, hp⟩
      rintro cell (rfl | hc)
      · omega
      · have := hp.1 cell hc
        omega

/-- Every write at an index of the store keeps the canonical form. -/
theorem Memory.wf_write {m : Memory} {a : Nat} (v : Byte) (ha : a < 64) (h : m.wf) : (m.write a v).wf := by
  unfold Memory.write
  split
  · exact Memory.wf_erase a h
  · next hv =>
    have he := Memory.wf_erase a h
    refine ⟨Memory.pairwise_insert he.1 fun cell hc => (Memory.mem_erase.mp hc).2, fun cell hc => ?_⟩
    rcases Memory.mem_insert.mp hc with rfl | hc
    · exact ⟨ha, hv⟩
    · exact he.2 cell hc

/-! ### Runs of bytes -/

@[simp] theorem Memory.length_readBytes (m : Memory) (a n : Nat) : (m.readBytes a n).length = n := by
  induction n generalizing a with
  | zero => rfl
  | succ n ih => simp [Memory.readBytes, ih]

theorem Memory.wf_writeBytes {m : Memory} {a : Nat} {vs : List Byte} (ha : a + vs.length ≤ 64) (h : m.wf) :
    (m.writeBytes a vs).wf := by
  induction vs generalizing m a with
  | nil => exact h
  | cons v rest ih =>
    simp only [List.length_cons] at ha
    exact ih (by omega) (Memory.wf_write v (by omega) h)

theorem Memory.read_writeBytes_before (m : Memory) (a b : Nat) (vs : List Byte) (h : b < a) :
    (m.writeBytes a vs).read b = m.read b := by
  induction vs generalizing m a with
  | nil => rfl
  | cons v rest ih =>
    rw [Memory.writeBytes, ih (m.write a v) (a + 1) (by omega), Memory.read_write_other m v (by omega)]

/-- Bytes written whole read back whole. -/
theorem Memory.readBytes_writeBytes (m : Memory) (a : Nat) (vs : List Byte) :
    (m.writeBytes a vs).readBytes a vs.length = vs := by
  induction vs generalizing m a with
  | nil => rfl
  | cons v rest ih =>
    simp only [Memory.writeBytes, List.length_cons, Memory.readBytes]
    rw [ih, Memory.read_writeBytes_before _ _ _ _ (by omega), Memory.read_write_same]

/-- Two stores that agree on a run of bytes agree on each of its bytes, and conversely. -/
theorem Memory.readBytes_eq_iff (m m' : Memory) (a n : Nat) :
    m.readBytes a n = m'.readBytes a n ↔ ∀ i, i < n → m.read (a + i) = m'.read (a + i) := by
  induction n generalizing a with
  | zero => simp [Memory.readBytes]
  | succ n ih =>
    simp only [Memory.readBytes, List.cons.injEq, ih]
    constructor
    · rintro ⟨h0, hr⟩ i hi
      cases i with
      | zero => simpa using h0
      | succ i =>
        have := hr i (by omega)
        simpa [Nat.add_comm, Nat.add_left_comm, Nat.add_assoc] using this
    · intro h
      refine ⟨by simpa using h 0 (by omega), fun i hi => ?_⟩
      have := h (i + 1) (by omega)
      simpa [Nat.add_comm, Nat.add_left_comm, Nat.add_assoc] using this

theorem Memory.readBytes_append (m : Memory) (a n k : Nat) :
    m.readBytes a (n + k) = m.readBytes a n ++ m.readBytes (a + n) k := by
  induction n generalizing a with
  | zero => simp [Memory.readBytes]
  | succ n ih =>
    have : n + 1 + k = n + k + 1 := by omega
    rw [this, Memory.readBytes, Memory.readBytes, ih, List.cons_append]
    simp [Nat.add_comm, Nat.add_left_comm]

/-- Writing the byte after a run extends the run by it. -/
theorem Memory.readBytes_write_next (m : Memory) (n : Nat) (v : Byte) :
    (m.write n v).readBytes 0 (n + 1) = m.readBytes 0 n ++ [v] := by
  rw [Memory.readBytes_append]
  congr 1
  · exact (Memory.readBytes_eq_iff _ _ _ _).mpr fun i hi => Memory.read_write_other m v (by omega)
  · simp [Memory.readBytes]

theorem Memory.getElem?_readBytes (m : Memory) (a n i : Nat) (h : i < n) :
    (m.readBytes a n)[i]? = some (m.read (a + i)) := by
  induction n generalizing a i with
  | zero => omega
  | succ n ih =>
    cases i with
    | zero => simp [Memory.readBytes]
    | succ i =>
      rw [Memory.readBytes, List.getElem?_cons_succ, ih (a + 1) i (by omega)]
      simp [Nat.add_comm, Nat.add_left_comm]

/-- Message words depend on the 64 bytes of the block alone (R41). -/
theorem msgWord_congr {m m' : Memory} (h : m.readBytes 0 64 = m'.readBytes 0 64) {k : Nat} (hk : k < 16) :
    msgWord m k = msgWord m' k := by
  have hr := (Memory.readBytes_eq_iff m m' 0 64).mp h
  have e : ∀ i, i < 4 → m.read (4 * k + i) = m'.read (4 * k + i) := fun i hi => by
    simpa using hr (4 * k + i) (by omega)
  simp only [msgWord, Memory.read4]
  rw [e 1 (by omega), e 2 (by omega), e 3 (by omega)]
  have := e 0 (by omega)
  simp only [Nat.add_zero] at this
  rw [this]

end Sys2Proof.Machine
end

