-- ==== Sys2Proof/Laws/Compression.lean ====
section
/-!
SUPPORT. Laws of the compression core: the steps read sixteen message words and nothing else of the block (R98), and what a step
as an instruction can do.
-/

namespace Sys2Proof.Machine

theorem runSteps_congr {fs : List ((Nat → Word) → Quad → Quad)} {X Y : Nat → Word}
    (h : ∀ f ∈ fs, ∀ x, f X x = f Y x) (x : Quad) : runSteps fs X x = runSteps fs Y x := by
  induction fs generalizing x with
  | nil => rfl
  | cons f rest ih =>
    simp only [runSteps]
    rw [h f (by simp), ih fun g hg => h g (by simp [hg])]

/-- A round of sixteen steps reads the sixteen message words only. -/
theorem rounds_congr {X Y : Nat → Word} (h : ∀ k, k < 16 → X k = Y k) (x : Quad) :
    allSteps X x = allSteps Y x := by
  have h1 : ∀ f ∈ round1Steps, ∀ x, f X x = f Y x := by
    simp [round1Steps, coreStep0, coreStep1, coreStep2, coreStep3, coreStep4, coreStep5, coreStep6, coreStep7, coreStep8,
      coreStep9, coreStep10, coreStep11, coreStep12, coreStep13, coreStep14, coreStep15, h]
  have h2 : ∀ f ∈ round2Steps, ∀ x, f X x = f Y x := by
    simp [round2Steps, coreStep16, coreStep17, coreStep18, coreStep19, coreStep20, coreStep21, coreStep22, coreStep23,
      coreStep24, coreStep25, coreStep26, coreStep27, coreStep28, coreStep29, coreStep30, coreStep31, h]
  have h3 : ∀ f ∈ round3Steps, ∀ x, f X x = f Y x := by
    simp [round3Steps, coreStep32, coreStep33, coreStep34, coreStep35, coreStep36, coreStep37, coreStep38, coreStep39,
      coreStep40, coreStep41, coreStep42, coreStep43, coreStep44, coreStep45, coreStep46, coreStep47, h]
  simp only [allSteps]
  rw [runSteps_congr h1, runSteps_congr h2, runSteps_congr h3]

theorem compressWords_congr {X Y : Nat → Word} (s : Quad) (h : ∀ k, k < 16 → X k = Y k) :
    compressWords s X = compressWords s Y := by
  simp [compressWords, rounds_congr h]

/-- A block held in a store and the same block as a byte string have the same message words (R41). -/
theorem msgWord_eq_blockWord {m : Memory} {block : List Byte} (h : m.readBytes 0 64 = block) {k : Nat} (hk : k < 16) :
    msgWord m k = blockWord block k := by
  have hl : block.length = 64 := by rw [← h]; simp
  have hb : ∀ i, i < 64 → block[i]? = some (m.read i) := fun i hi => by
    rw [← h, Memory.getElem?_readBytes m 0 64 i hi, Nat.zero_add]
  obtain ⟨b0, b1, b2, b3, rest, hd⟩ : ∃ b0 b1 b2 b3 rest, block.drop (4 * k) = b0 :: b1 :: b2 :: b3 :: rest := by
    have hlen : 4 ≤ (block.drop (4 * k)).length := by simp [hl]; omega
    match hm : block.drop (4 * k), hlen with
    | b0 :: b1 :: b2 :: b3 :: rest, _ => exact ⟨b0, b1, b2, b3, rest, rfl⟩
  have hi : ∀ i, i < 4 → (block.drop (4 * k))[i]? = some (m.read (4 * k + i)) := fun i hi => by
    rw [List.getElem?_drop]
    exact hb (4 * k + i) (by omega)
  have e0 := hi 0 (by omega)
  have e1 := hi 1 (by omega)
  have e2 := hi 2 (by omega)
  have e3 := hi 3 (by omega)
  rw [hd] at e0 e1 e2 e3
  simp only [List.getElem?_cons_zero, List.getElem?_cons_succ, Option.some.injEq] at e0 e1 e2 e3
  simp only [msgWord, Memory.read4, blockWord, hd, fromLe32, e0, e1, e2, e3, Nat.add_zero]

/-- `COMPRESS` on a store is `COMPRESS` on its 64 bytes. -/
theorem compress_eq_words {m : Memory} {block : List Byte} (s : Quad) (h : m.readBytes 0 64 = block) :
    compress s m = compressWords s (blockWord block) :=
  compressWords_congr s fun _ hk => msgWord_eq_blockWord h hk

/-- A step as an instruction either has no block, or changes the working registers and the step index. -/
theorem runStep_cases (f : (Nat → Word) → Quad → Quad) (n : BitVec 6) (s : State) :
    (s.jobBlock = none ∧ runStep f n s = .fault .stepOutsideCompress) ∨
      ∃ block, s.jobBlock = some block ∧ runStep f n s = .next { s with x := f (msgWord block) s.x, t := n } := by
  unfold runStep
  cases h : s.jobBlock with
  | none => exact .inl ⟨rfl, rfl⟩
  | some block => exact .inr ⟨block, rfl, rfl⟩

end Sys2Proof.Machine
end

