-- ==== Sys2Proof/Laws/Accumulator.lean ====
section
/-!
SUPPORT. Laws of the Streaming Accumulator: what `ABSORB`, the counter addition and the three bodies change and leave (R160 to
R165).
-/

namespace Sys2Proof.Machine

/-! ### `ABSORB` (R160) -/

section
variable (c : DigestCtx) (v : Byte) (data : List Byte)

@[simp] theorem absorb_buf : (absorb c v).buf = c.buf.write c.fill.toNat v := by
  unfold absorb; dsimp only; split <;> rfl
@[simp] theorem absorb_lo : (absorb c v).lo = c.lo := by unfold absorb; dsimp only; split <;> rfl
@[simp] theorem absorb_hi : (absorb c v).hi = c.hi := by unfold absorb; dsimp only; split <;> rfl
@[simp] theorem absorb_phase : (absorb c v).phase = c.phase := by unfold absorb; dsimp only; split <;> rfl

/-- The fill count advances modulo 64 whether or not the block is compressed (R20). -/
theorem absorb_fill : (absorb c v).fill.toNat = (c.fill.toNat + 1) % 64 := by
  have := c.fill.isLt
  unfold absorb
  dsimp only
  split
  · next h => simp [h]
  · simp [BitVec.toNat_add]

theorem absorb_h_of_room (h : c.fill.toNat + 1 ≠ 64) : (absorb c v).h = c.h := by simp [absorb, h]

theorem absorb_h_of_full (h : c.fill.toNat + 1 = 64) :
    (absorb c v).h = compress c.h (c.buf.write c.fill.toNat v) := by simp [absorb, h]

theorem absorb_buf_wf (h : c.buf.wf) : (absorb c v).buf.wf := by
  have := c.fill.isLt
  rw [absorb_buf]
  exact Memory.wf_write v (by omega) h

@[simp] theorem absorbAll_lo : (absorbAll c data).lo = c.lo := by
  induction data generalizing c with
  | nil => rfl
  | cons v rest ih => simp [absorbAll, ih]

@[simp] theorem absorbAll_hi : (absorbAll c data).hi = c.hi := by
  induction data generalizing c with
  | nil => rfl
  | cons v rest ih => simp [absorbAll, ih]

@[simp] theorem absorbAll_phase : (absorbAll c data).phase = c.phase := by
  induction data generalizing c with
  | nil => rfl
  | cons v rest ih => simp [absorbAll, ih]

theorem absorbAll_fill : (absorbAll c data).fill.toNat = (c.fill.toNat + data.length) % 64 := by
  induction data generalizing c with
  | nil => have := c.fill.isLt; simp [absorbAll]; omega
  | cons v rest ih =>
    rw [absorbAll, ih, absorb_fill]
    simp only [List.length_cons]
    omega

theorem absorbAll_buf_wf (h : c.buf.wf) : (absorbAll c data).buf.wf := by
  induction data generalizing c with
  | nil => exact h
  | cons v rest ih => exact ih _ (absorb_buf_wf c v h)

/-- `UPDATE` is a left fold of `ABSORB` (R167). -/
theorem absorbAll_append (a b : List Byte) : absorbAll c (a ++ b) = absorbAll (absorbAll c a) b := by
  induction a generalizing c with
  | nil => rfl
  | cons v rest ih => simp [absorbAll, ih]

end

/-- Absorbing depends on the counter's words and the phase in nothing but handing them on. -/
theorem absorbAll_with (c : DigestCtx) (data : List Byte) (lo hi : Word) (p : Phase) :
    absorbAll { c with lo := lo, hi := hi, phase := p } data =
      { absorbAll c data with lo := lo, hi := hi, phase := p } := by
  induction data generalizing c with
  | nil => rfl
  | cons v rest ih =>
    have h : absorb { c with lo := lo, hi := hi, phase := p } v = { absorb c v with lo := lo, hi := hi, phase := p } := by
      unfold absorb
      dsimp only
      split <;> rfl
    rw [absorbAll, absorbAll, h, ih]

/-! ### The counter (R163) -/

section
variable (c : DigestCtx) (n : Word)

@[simp] theorem addLength_h : (addLength c n).h = c.h := by unfold addLength; dsimp only; split <;> rfl
@[simp] theorem addLength_buf : (addLength c n).buf = c.buf := by unfold addLength; dsimp only; split <;> rfl
@[simp] theorem addLength_fill : (addLength c n).fill = c.fill := by unfold addLength; dsimp only; split <;> rfl
@[simp] theorem addLength_phase : (addLength c n).phase = c.phase := by unfold addLength; dsimp only; split <;> rfl
@[simp] theorem addLength_lo : (addLength c n).lo = c.lo + n := by unfold addLength; dsimp only; split <;> rfl

end

/-! ### Padding (R164, R166) -/

/-- The while loop of `FINISH` absorbs exactly the zero bytes that bring the fill count to 56. -/
theorem padZeros_eq (n : Nat) (c : DigestCtx) (h : (56 + 64 - c.fill.toNat) % 64 ≤ n) :
    padZeros n c = absorbAll c (zeros ((56 + 64 - c.fill.toNat) % 64)) := by
  have hlt := c.fill.isLt
  induction n generalizing c with
  | zero =>
    have h0 : (56 + 64 - c.fill.toNat) % 64 = 0 := by omega
    rw [h0]
    rfl
  | succ n ih =>
    unfold padZeros
    split
    · next h56 =>
      have h0 : (56 + 64 - c.fill.toNat) % 64 = 0 := by omega
      rw [h0]
      rfl
    · next h56 =>
      have hf := absorb_fill c 0x00
      have hk : (56 + 64 - c.fill.toNat) % 64 = (56 + 64 - (absorb c 0x00).fill.toNat) % 64 + 1 := by omega
      rw [ih (absorb c 0x00) (by omega) (absorb c 0x00).fill.isLt, hk]
      rfl

/-- What `FINISH` absorbs, as one byte string (R166). -/
def padding (c : DigestCtx) : List Byte :=
  [0x80] ++ zeros ((55 + 64 - c.fill.toNat) % 64) ++ le32 (bitLengthLo c) ++ le32 (bitLengthHi c)

theorem finishOp_eq (c : DigestCtx) :
    finishOp c = { absorbAll c (padding c) with phase := .terminal } := by
  have hlt := c.fill.isLt
  have hf := absorb_fill c 0x80
  have hz : (56 + 64 - (absorb c 0x80).fill.toNat) % 64 = (55 + 64 - c.fill.toNat) % 64 := by omega
  simp only [finishOp, padding]
  rw [padZeros_eq 64 (absorb c 0x80) (by omega), hz]
  simp only [absorbAll_append, List.append_assoc]
  rfl

@[simp] theorem finishOp_phase (c : DigestCtx) : (finishOp c).phase = .terminal := rfl
@[simp] theorem finishOp_lo (c : DigestCtx) : (finishOp c).lo = c.lo := by simp [finishOp_eq]
@[simp] theorem finishOp_hi (c : DigestCtx) : (finishOp c).hi = c.hi := by simp [finishOp_eq]

theorem length_padding (c : DigestCtx) : (padding c).length = (55 + 64 - c.fill.toNat) % 64 + 9 := by
  simp only [padding, zeros, rep, List.length_append, List.length_cons, List.length_nil, List.length_replicate, length_le32]
  omega

/-- `FINISH` leaves an empty buffer (R164). -/
@[simp] theorem finishOp_fill (c : DigestCtx) : (finishOp c).fill = 0 := by
  have hlt := c.fill.isLt
  apply BitVec.eq_of_toNat_eq
  change _ = 0
  rw [finishOp_eq]
  simp only [absorbAll_fill, length_padding]
  omega

/-! ### The bodies keep the canonical form of the buffer -/

theorem initOp_buf_wf {c : DigestCtx} (h : c.buf.wf) : (initOp c).buf.wf := h

theorem updateOp_buf_wf {c : DigestCtx} (data : List Byte) (h : c.buf.wf) : (updateOp c data).buf.wf :=
  absorbAll_buf_wf _ _ (by simpa using h)

theorem finishOp_buf_wf {c : DigestCtx} (h : c.buf.wf) : (finishOp c).buf.wf := by
  rw [finishOp_eq]
  exact absorbAll_buf_wf _ _ h

@[simp] theorem updateOp_phase (c : DigestCtx) (data : List Byte) : (updateOp c data).phase = c.phase := by
  simp [updateOp]

@[simp] theorem updateOp_lo (c : DigestCtx) (data : List Byte) :
    (updateOp c data).lo = c.lo + BitVec.ofNat 32 data.length := by
  simp [updateOp]

theorem updateOp_fill (c : DigestCtx) (data : List Byte) :
    (updateOp c data).fill.toNat = (c.fill.toNat + data.length) % 64 := by
  simp [updateOp, absorbAll_fill]

@[simp] theorem length_digestOf (c : DigestCtx) : (digestOf c).length = 16 := rfl

@[simp] theorem length_digestBytes (q : Quad) : (digestBytes q).length = 16 := rfl

end Sys2Proof.Machine
end

