-- ==== Sys2Proof/Laws/ClosedForm.lean ====
section
/-!
SUPPORT. Laws that join the byte level and the block level: absorbing a byte string is a chain of `COMPRESS`es over the whole
blocks among the buffered bytes and it, with the rest left in the buffer (R160, R162, R169).
-/

namespace Sys2Proof.Machine

/-! ### The chain of blocks -/

/-- A chain over `n + m` blocks is a chain over the first `n` and then one over the next `m`. -/
theorem blockChain_add (n m : Nat) (s : Quad) (p : List Byte) :
    blockChain (n + m) s p = blockChain m (blockChain n s p) (p.drop (64 * n)) := by
  induction n generalizing s p with
  | zero => simp [blockChain]
  | succ n ih =>
    rw [show n + 1 + m = (n + m) + 1 by omega]
    simp only [blockChain]
    rw [ih, List.drop_drop]
    congr 2
    omega

/-- A chain over `n` blocks reads the first `64 n` bytes only. -/
theorem blockChain_congr (n : Nat) (s : Quad) {p q : List Byte} (h : p.take (64 * n) = q.take (64 * n)) :
    blockChain n s p = blockChain n s q := by
  induction n generalizing s p q with
  | zero => rfl
  | succ n ih =>
    simp only [blockChain]
    have h1 : p.take 64 = q.take 64 := by
      have := congrArg (List.take 64) h
      simpa [List.take_take, Nat.min_eq_left (show 64 ≤ 64 * (n + 1) by omega)] using this
    have h2 : (p.drop 64).take (64 * n) = (q.drop 64).take (64 * n) := by
      have := congrArg (List.drop 64) h
      simpa [List.drop_take, show 64 * (n + 1) - 64 = 64 * n by omega] using this
    rw [h1, ih _ h2]

/-- The length bytes depend on the byte count modulo 2^64 only (R165). -/
theorem lengthBytes_mod (n : Nat) : lengthBytes (n % 2 ^ 64) = lengthBytes n := by
  unfold lengthBytes bitCount
  have : 8 * (n % 2 ^ 64) % 2 ^ 64 = 8 * n % 2 ^ 64 := by omega
  rw [this]

/-! ### Absorbing a byte string -/

/-- What absorbing a byte string does to `H` and to `BUF[0..FILL)`. -/
theorem absorbAll_chain (c : DigestCtx) (data : List Byte) :
    (absorbAll c data).h = blockChain ((c.fill.toNat + data.length) / 64) c.h (c.buf.readBytes 0 c.fill.toNat ++ data) ∧
    (absorbAll c data).buf.readBytes 0 ((c.fill.toNat + data.length) % 64) =
      (c.buf.readBytes 0 c.fill.toNat ++ data).drop (64 * ((c.fill.toNat + data.length) / 64)) := by
  induction data generalizing c with
  | nil =>
    have := c.fill.isLt
    have h0 : c.fill.toNat / 64 = 0 := by omega
    have h1 : c.fill.toNat % 64 = c.fill.toNat := by omega
    simp [absorbAll, h0, h1, blockChain]
  | cons v rest ih =>
    have hlt := c.fill.isLt
    have hf := absorb_fill c v
    obtain ⟨ih1, ih2⟩ := ih (absorb c v)
    have hb : (absorb c v).buf.readBytes 0 (c.fill.toNat + 1) = c.buf.readBytes 0 c.fill.toNat ++ [v] := by
      rw [absorb_buf, Memory.readBytes_write_next]
    by_cases hfull : c.fill.toNat + 1 = 64
    · have hz : (absorb c v).fill.toNat = 0 := by omega
      have hblk : (absorb c v).buf.readBytes 0 64 = c.buf.readBytes 0 c.fill.toNat ++ [v] := by rw [← hfull]; exact hb
      have hl : (c.buf.readBytes 0 c.fill.toNat ++ [v]).length = 64 := by simp; omega
      have hq : (c.fill.toNat + (v :: rest).length) / 64 = rest.length / 64 + 1 := by simp; omega
      have hr : (c.fill.toNat + (v :: rest).length) % 64 = rest.length % 64 := by simp; omega
      have hd : (c.buf.readBytes 0 c.fill.toNat ++ v :: rest).drop 64 = rest := by
        rw [show c.buf.readBytes 0 c.fill.toNat ++ v :: rest = (c.buf.readBytes 0 c.fill.toNat ++ [v]) ++ rest by simp,
          ← hl, List.drop_left]
      have ht : (c.buf.readBytes 0 c.fill.toNat ++ v :: rest).take 64 = c.buf.readBytes 0 c.fill.toNat ++ [v] := by
        rw [show c.buf.readBytes 0 c.fill.toNat ++ v :: rest = (c.buf.readBytes 0 c.fill.toNat ++ [v]) ++ rest by simp,
          ← hl, List.take_left]
      rw [hz] at ih1 ih2
      simp only [Memory.readBytes, List.nil_append, Nat.zero_add] at ih1 ih2
      rw [absorbAll, hq, hr, ih1, ih2, absorb_h_of_full c v hfull, blockChain, ht, hd,
        ← absorb_buf, compress_eq_words c.h hblk]
      refine ⟨rfl, ?_⟩
      rw [show 64 * (rest.length / 64 + 1) = 64 + 64 * (rest.length / 64) by omega, ← List.drop_drop, hd]
    · have hs : (absorb c v).fill.toNat = c.fill.toNat + 1 := by omega
      rw [hs] at ih1 ih2
      rw [hb] at ih1 ih2
      simp only [List.append_assoc, List.singleton_append] at ih1 ih2
      have hn : c.fill.toNat + 1 + rest.length = c.fill.toNat + (v :: rest).length := by simp; omega
      rw [hn, absorb_h_of_room c v hfull] at ih1
      rw [hn] at ih2
      exact ⟨ih1, ih2⟩

/-- Absorbing writes `BUF` at the indices it stores to and at no other. -/
theorem absorbAll_buf_other (c : DigestCtx) (data : List Byte) (a : Nat)
    (h : ∀ i, i < data.length → (c.fill.toNat + i) % 64 ≠ a) : (absorbAll c data).buf.read a = c.buf.read a := by
  induction data generalizing c with
  | nil => rfl
  | cons v rest ih =>
    have hlt := c.fill.isLt
    have hf := absorb_fill c v
    have h0 := h 0 (by simp)
    rw [absorbAll, ih (absorb c v), absorb_buf, Memory.read_write_other]
    · omega
    · intro i hi
      have := h (i + 1) (by simpa using hi)
      rw [hf]; omega

/-- Absorbing that ends on a block boundary leaves the last block in `BUF` as residue. -/
theorem absorbAll_residue (c : DigestCtx) (data : List Byte) (h0 : (c.fill.toNat + data.length) % 64 = 0)
    (hd : data ≠ []) : (absorbAll c data).buf.readBytes 0 64 =
      (c.buf.readBytes 0 c.fill.toNat ++ data).drop (c.fill.toNat + data.length - 64) := by
  have hlt := c.fill.isLt
  obtain ⟨l, v, rfl⟩ : ∃ l v, data = l ++ [v] := ⟨data.dropLast, data.getLast hd, (List.dropLast_append_getLast hd).symm⟩
  simp only [List.length_append, List.length_singleton] at h0 ⊢
  have hf := absorbAll_fill c l
  obtain ⟨-, hb⟩ := absorbAll_chain c l
  rw [absorbAll_append, absorbAll, absorbAll, absorb_buf]
  have h63 : (absorbAll c l).fill.toNat = 63 := by omega
  have hq : 64 * ((c.fill.toNat + l.length) / 64) = c.fill.toNat + (l.length + 1) - 64 := by omega
  rw [h63, Memory.readBytes_write_next, show (63 : Nat) = (c.fill.toNat + l.length) % 64 by omega, hb, hq]
  rw [← List.append_assoc, List.drop_append_of_le_length (l₁ := c.buf.readBytes 0 c.fill.toNat ++ l) (by simp only [List.length_append, Memory.length_readBytes]; omega)]

end Sys2Proof.Machine
end

