-- ==== Sys2Proof/Laws/Hmac.lean ====
section
/-!
SUPPORT. Laws of the one-shot and HMAC bodies: lengths of digests, keys and pads, and what the three HMAC bodies leave (R185 to
R188).
-/

namespace Sys2Proof.Machine

@[simp] theorem length_md4 (m : List Byte) : (md4 m).length = 16 := rfl

@[simp] theorem length_zeros (n : Nat) : (zeros n).length = n := by simp [zeros, rep]

@[simp] theorem length_xorByte (m : List Byte) (b : Byte) : (xorByte m b).length = m.length := by simp [xorByte]

/-- "The effective key is always exactly 64 bytes" (R185). -/
@[simp] theorem length_effectiveKey (key : List Byte) : (effectiveKey key).length = 64 := by
  unfold effectiveKey
  split
  · simp
  · simp; omega

@[simp] theorem length_ipadBlock (key : List Byte) : (ipadBlock key).length = 64 := by simp [ipadBlock]

@[simp] theorem length_opadBlock (key : List Byte) : (opadBlock key).length = 64 := by simp [opadBlock]

section
variable (h : HmacCtx) (key data : List Byte)

@[simp] theorem hmacInitOp_outer : (hmacInitOp h key).outer = h.outer := by
  simp only [hmacInitOp]
theorem hmacInitOp_inner : (hmacInitOp h key).inner = updateOp (initOp h.inner) (ipadBlock key) := by
  simp only [hmacInitOp]

/-- `OPAD` reads back as the outer pad block (R186). -/
@[simp] theorem hmacInitOp_opad : (hmacInitOp h key).opad.readBytes 0 64 = opadBlock key := by
  have hw := Memory.readBytes_writeBytes h.opad 0 (opadBlock key)
  rw [length_opadBlock] at hw
  exact hw

theorem hmacInitOp_opad_wf (hw : h.opad.wf) : (hmacInitOp h key).opad.wf :=
  Memory.wf_writeBytes (by simp) hw

@[simp] theorem hmacUpdateOp_inner : (hmacUpdateOp h data).inner = updateOp h.inner data := by
  simp only [hmacUpdateOp]
@[simp] theorem hmacUpdateOp_outer : (hmacUpdateOp h data).outer = h.outer := by
  simp only [hmacUpdateOp]
@[simp] theorem hmacUpdateOp_opad : (hmacUpdateOp h data).opad = h.opad := by
  simp only [hmacUpdateOp]

@[simp] theorem hmacFinishOp_inner : (hmacFinishOp h).inner = finishOp h.inner := by
  simp only [hmacFinishOp]
@[simp] theorem hmacFinishOp_opad : (hmacFinishOp h).opad = h.opad := by
  simp only [hmacFinishOp]
theorem hmacFinishOp_outer :
    (hmacFinishOp h).outer =
      finishOp (updateOp (updateOp (initOp h.outer) (h.opad.readBytes 0 64)) (digestOf (finishOp h.inner))) := by
  simp only [hmacFinishOp]

@[simp] theorem length_tagOf : (tagOf h).length = 16 := length_digestOf _
end

end Sys2Proof.Machine
end

