-- ==== Sys2Proof/Laws/PerInstr.lean ====
section
/-!
SUPPORT. Statements about every instruction as syntax, one lemma per constructor. Family `EncodingShape`: a command encodes to a
packet that is at least its header, with the opcode in bits 3:0 and zero reserved bytes (R61, R63, R67); a step encodes to the
6-bit index that selects it (R74).
-/

namespace Sys2Proof.Laws

/-- The opcode of a command, `none` for a step (R67). -/
def opcodeOfInstr (i : Instr) : Option Opcode :=
  match i with
  | .init _ => some .init
  | .update _ _ => some .update
  | .finish _ => some .finish
  | .digest _ => some .digest
  | .hmacInit _ _ => some .hmacInit
  | .hmacUpdate _ _ => some .hmacUpdate
  | .hmacFinish _ => some .hmacFinish
  | .hmac _ _ => some .hmac
  | _ => none

/-- A packet that starts with a header of opcode `op` (R61). -/
abbrev HeaderOf (op : Opcode) (p : List Byte) : Prop :=
  4 ≤ p.length ∧ (p.getD 0 0).toNat % 16 = (opcodeNumber op).toNat ∧ p.getD 1 0 = 0 ∧ p.getD 2 0 = 0 ∧ p.getD 3 0 = 0

/-- The shape of an instruction's encoding: a packet with its command's header, or the index that selects its step. -/
def EncodingShape.Statement (i : Instr) : Prop :=
  (∃ op p, opcodeOfInstr i = some op ∧ encode i = .packet p ∧ HeaderOf op p) ∨
    ∃ t : BitVec 6, opcodeOfInstr i = none ∧ encode i = .index t ∧ decodeStep t = some i

/-- Every packet that begins with the header bytes of a command has that command's header. -/
theorem headerOf_headerBytes (op : Opcode) (ctx : BitVec 4) (rest : List Byte) :
    HeaderOf op (headerBytes op ctx ++ rest) := by
  have h := (opcodeNumber op).isLt
  refine ⟨by simp, ?_, rfl, rfl, rfl⟩
  change (ctx ++ opcodeNumber op : BitVec (4 + 4)).toNat % 16 = _
  rw [firstHeaderByte_toNat]
  omega

theorem EncodingShape.init (ctx : BitVec 4) : EncodingShape.Statement (.init ctx) :=
  .inl ⟨.init, _, rfl, rfl, by simpa using headerOf_headerBytes .init ctx []⟩

theorem EncodingShape.update (ctx : BitVec 4) (data : List Byte) : EncodingShape.Statement (.update ctx data) :=
  .inl ⟨.update, _, rfl, rfl, by simpa [packetB] using headerOf_headerBytes .update ctx _⟩

theorem EncodingShape.finish (ctx : BitVec 4) : EncodingShape.Statement (.finish ctx) :=
  .inl ⟨.finish, _, rfl, rfl, by simpa using headerOf_headerBytes .finish ctx []⟩

theorem EncodingShape.digest (data : List Byte) : EncodingShape.Statement (.digest data) :=
  .inl ⟨.digest, _, rfl, rfl, by simpa [packetB] using headerOf_headerBytes .digest 0 _⟩

theorem EncodingShape.hmacInit (ctx : BitVec 4) (key : List Byte) : EncodingShape.Statement (.hmacInit ctx key) :=
  .inl ⟨.hmacInit, _, rfl, rfl, by simpa [packetB] using headerOf_headerBytes .hmacInit ctx _⟩

theorem EncodingShape.hmacUpdate (ctx : BitVec 4) (data : List Byte) : EncodingShape.Statement (.hmacUpdate ctx data) :=
  .inl ⟨.hmacUpdate, _, rfl, rfl, by simpa [packetB] using headerOf_headerBytes .hmacUpdate ctx _⟩

theorem EncodingShape.hmacFinish (ctx : BitVec 4) : EncodingShape.Statement (.hmacFinish ctx) :=
  .inl ⟨.hmacFinish, _, rfl, rfl, by simpa using headerOf_headerBytes .hmacFinish ctx []⟩

theorem EncodingShape.hmac (key data : List Byte) : EncodingShape.Statement (.hmac key data) :=
  .inl ⟨.hmac, _, rfl, rfl, by simpa [packetB] using headerOf_headerBytes .hmac 0 _⟩

theorem EncodingShape.step0 : EncodingShape.Statement .step0 := .inr ⟨0, rfl, rfl, rfl⟩

theorem EncodingShape.step1 : EncodingShape.Statement .step1 := .inr ⟨1, rfl, rfl, rfl⟩

theorem EncodingShape.step2 : EncodingShape.Statement .step2 := .inr ⟨2, rfl, rfl, rfl⟩

theorem EncodingShape.step3 : EncodingShape.Statement .step3 := .inr ⟨3, rfl, rfl, rfl⟩

theorem EncodingShape.step4 : EncodingShape.Statement .step4 := .inr ⟨4, rfl, rfl, rfl⟩

theorem EncodingShape.step5 : EncodingShape.Statement .step5 := .inr ⟨5, rfl, rfl, rfl⟩

theorem EncodingShape.step6 : EncodingShape.Statement .step6 := .inr ⟨6, rfl, rfl, rfl⟩

theorem EncodingShape.step7 : EncodingShape.Statement .step7 := .inr ⟨7, rfl, rfl, rfl⟩

theorem EncodingShape.step8 : EncodingShape.Statement .step8 := .inr ⟨8, rfl, rfl, rfl⟩

theorem EncodingShape.step9 : EncodingShape.Statement .step9 := .inr ⟨9, rfl, rfl, rfl⟩

theorem EncodingShape.step10 : EncodingShape.Statement .step10 := .inr ⟨10, rfl, rfl, rfl⟩

theorem EncodingShape.step11 : EncodingShape.Statement .step11 := .inr ⟨11, rfl, rfl, rfl⟩

theorem EncodingShape.step12 : EncodingShape.Statement .step12 := .inr ⟨12, rfl, rfl, rfl⟩

theorem EncodingShape.step13 : EncodingShape.Statement .step13 := .inr ⟨13, rfl, rfl, rfl⟩

theorem EncodingShape.step14 : EncodingShape.Statement .step14 := .inr ⟨14, rfl, rfl, rfl⟩

theorem EncodingShape.step15 : EncodingShape.Statement .step15 := .inr ⟨15, rfl, rfl, rfl⟩

theorem EncodingShape.step16 : EncodingShape.Statement .step16 := .inr ⟨16, rfl, rfl, rfl⟩

theorem EncodingShape.step17 : EncodingShape.Statement .step17 := .inr ⟨17, rfl, rfl, rfl⟩

theorem EncodingShape.step18 : EncodingShape.Statement .step18 := .inr ⟨18, rfl, rfl, rfl⟩

theorem EncodingShape.step19 : EncodingShape.Statement .step19 := .inr ⟨19, rfl, rfl, rfl⟩

theorem EncodingShape.step20 : EncodingShape.Statement .step20 := .inr ⟨20, rfl, rfl, rfl⟩

theorem EncodingShape.step21 : EncodingShape.Statement .step21 := .inr ⟨21, rfl, rfl, rfl⟩

theorem EncodingShape.step22 : EncodingShape.Statement .step22 := .inr ⟨22, rfl, rfl, rfl⟩

theorem EncodingShape.step23 : EncodingShape.Statement .step23 := .inr ⟨23, rfl, rfl, rfl⟩

theorem EncodingShape.step24 : EncodingShape.Statement .step24 := .inr ⟨24, rfl, rfl, rfl⟩

theorem EncodingShape.step25 : EncodingShape.Statement .step25 := .inr ⟨25, rfl, rfl, rfl⟩

theorem EncodingShape.step26 : EncodingShape.Statement .step26 := .inr ⟨26, rfl, rfl, rfl⟩

theorem EncodingShape.step27 : EncodingShape.Statement .step27 := .inr ⟨27, rfl, rfl, rfl⟩

theorem EncodingShape.step28 : EncodingShape.Statement .step28 := .inr ⟨28, rfl, rfl, rfl⟩

theorem EncodingShape.step29 : EncodingShape.Statement .step29 := .inr ⟨29, rfl, rfl, rfl⟩

theorem EncodingShape.step30 : EncodingShape.Statement .step30 := .inr ⟨30, rfl, rfl, rfl⟩

theorem EncodingShape.step31 : EncodingShape.Statement .step31 := .inr ⟨31, rfl, rfl, rfl⟩

theorem EncodingShape.step32 : EncodingShape.Statement .step32 := .inr ⟨32, rfl, rfl, rfl⟩

theorem EncodingShape.step33 : EncodingShape.Statement .step33 := .inr ⟨33, rfl, rfl, rfl⟩

theorem EncodingShape.step34 : EncodingShape.Statement .step34 := .inr ⟨34, rfl, rfl, rfl⟩

theorem EncodingShape.step35 : EncodingShape.Statement .step35 := .inr ⟨35, rfl, rfl, rfl⟩

theorem EncodingShape.step36 : EncodingShape.Statement .step36 := .inr ⟨36, rfl, rfl, rfl⟩

theorem EncodingShape.step37 : EncodingShape.Statement .step37 := .inr ⟨37, rfl, rfl, rfl⟩

theorem EncodingShape.step38 : EncodingShape.Statement .step38 := .inr ⟨38, rfl, rfl, rfl⟩

theorem EncodingShape.step39 : EncodingShape.Statement .step39 := .inr ⟨39, rfl, rfl, rfl⟩

theorem EncodingShape.step40 : EncodingShape.Statement .step40 := .inr ⟨40, rfl, rfl, rfl⟩

theorem EncodingShape.step41 : EncodingShape.Statement .step41 := .inr ⟨41, rfl, rfl, rfl⟩

theorem EncodingShape.step42 : EncodingShape.Statement .step42 := .inr ⟨42, rfl, rfl, rfl⟩

theorem EncodingShape.step43 : EncodingShape.Statement .step43 := .inr ⟨43, rfl, rfl, rfl⟩

theorem EncodingShape.step44 : EncodingShape.Statement .step44 := .inr ⟨44, rfl, rfl, rfl⟩

theorem EncodingShape.step45 : EncodingShape.Statement .step45 := .inr ⟨45, rfl, rfl, rfl⟩

theorem EncodingShape.step46 : EncodingShape.Statement .step46 := .inr ⟨46, rfl, rfl, rfl⟩

theorem EncodingShape.step47 : EncodingShape.Statement .step47 := .inr ⟨47, rfl, rfl, rfl⟩

end Sys2Proof.Laws
end

