-- ==== Sys2Proof/Laws/State.lean ====
section
/-!
SUPPORT. One lemma per field per update of the state: what each named operation leaves and what it writes.
-/

namespace Sys2Proof.Machine

section
variable (s : State) (n : Nat) (c : DigestCtx) (h : HmacCtx) (d : List Byte) (e : ErrCode) (rest : List HostEvent)

/-! ### `setDigest` -/
@[simp] theorem State.setDigest_dc : (s.setDigest n c).dc = s.dc.set n c := rfl
@[simp] theorem State.setDigest_hc : (s.setDigest n c).hc = s.hc := rfl
@[simp] theorem State.setDigest_fault : (s.setDigest n c).fault = s.fault := rfl
@[simp] theorem State.setDigest_x : (s.setDigest n c).x = s.x := rfl
@[simp] theorem State.setDigest_t : (s.setDigest n c).t = s.t := rfl
@[simp] theorem State.setDigest_job : (s.setDigest n c).job = s.job := rfl
@[simp] theorem State.setDigest_inputs : (s.setDigest n c).inputs = s.inputs := rfl
@[simp] theorem State.setDigest_responses : (s.setDigest n c).responses = s.responses := rfl
@[simp] theorem State.setDigest_free : (s.setDigest n c).free = s.free := rfl

/-! ### `setHmac` -/
@[simp] theorem State.setHmac_dc : (s.setHmac n h).dc = s.dc := rfl
@[simp] theorem State.setHmac_hc : (s.setHmac n h).hc = s.hc.set n h := rfl
@[simp] theorem State.setHmac_fault : (s.setHmac n h).fault = s.fault := rfl
@[simp] theorem State.setHmac_x : (s.setHmac n h).x = s.x := rfl
@[simp] theorem State.setHmac_t : (s.setHmac n h).t = s.t := rfl
@[simp] theorem State.setHmac_job : (s.setHmac n h).job = s.job := rfl
@[simp] theorem State.setHmac_inputs : (s.setHmac n h).inputs = s.inputs := rfl
@[simp] theorem State.setHmac_responses : (s.setHmac n h).responses = s.responses := rfl
@[simp] theorem State.setHmac_free : (s.setHmac n h).free = s.free := rfl

/-! ### `respondOk` -/
@[simp] theorem State.respondOk_dc : (s.respondOk d).dc = s.dc := rfl
@[simp] theorem State.respondOk_hc : (s.respondOk d).hc = s.hc := rfl
@[simp] theorem State.respondOk_fault : (s.respondOk d).fault = s.fault := rfl
@[simp] theorem State.respondOk_x : (s.respondOk d).x = s.x := rfl
@[simp] theorem State.respondOk_t : (s.respondOk d).t = s.t := rfl
@[simp] theorem State.respondOk_job : (s.respondOk d).job = s.job := rfl
@[simp] theorem State.respondOk_inputs : (s.respondOk d).inputs = s.inputs := rfl
@[simp] theorem State.respondOk_responses :
    (s.respondOk d).responses = s.responses ++ [le32 (statusWord okNumber s.fault) ++ d] := rfl
@[simp] theorem State.respondOk_free : (s.respondOk d).free = s.free := rfl

/-! ### `raise` -/
@[simp] theorem State.raise_dc : (s.raise e).dc = s.dc := rfl
@[simp] theorem State.raise_hc : (s.raise e).hc = s.hc := rfl
@[simp] theorem State.raise_fault : (s.raise e).fault = true := rfl
@[simp] theorem State.raise_x : (s.raise e).x = s.x := rfl
@[simp] theorem State.raise_t : (s.raise e).t = s.t := rfl
@[simp] theorem State.raise_job : (s.raise e).job = s.job := rfl
@[simp] theorem State.raise_inputs : (s.raise e).inputs = s.inputs := rfl
@[simp] theorem State.raise_responses :
    (s.raise e).responses = s.responses ++ [le32 (statusWord (errNumber e) true)] := rfl
@[simp] theorem State.raise_free : (s.raise e).free = s.free := rfl

/-! ### `retireCore` and `retireCoreIf` -/
@[simp] theorem State.retireCore_dc : s.retireCore.dc = s.dc := rfl
@[simp] theorem State.retireCore_hc : s.retireCore.hc = s.hc := rfl
@[simp] theorem State.retireCore_fault : s.retireCore.fault = s.fault := rfl
@[simp] theorem State.retireCore_x : s.retireCore.x = freeQuad s.free := rfl
@[simp] theorem State.retireCore_t : s.retireCore.t = BitVec.ofNat 6 (Config.freeIndex s.free).val := rfl
@[simp] theorem State.retireCore_job : s.retireCore.job = none := rfl
@[simp] theorem State.retireCore_inputs : s.retireCore.inputs = s.inputs := rfl
@[simp] theorem State.retireCore_responses : s.retireCore.responses = s.responses := rfl
@[simp] theorem State.retireCore_free : s.retireCore.free = s.free + 1 := rfl

/-- R13: the step index never exceeds 48, whatever the free value is. -/
theorem State.retireCore_t_le : s.retireCore.t.toNat ≤ 48 := by
  have h := (Config.freeIndex s.free).isLt
  simp only [State.retireCore, BitVec.toNat_ofNat]
  omega

@[simp] theorem State.retireCoreIf_true : s.retireCoreIf true = s.retireCore := rfl
@[simp] theorem State.retireCoreIf_false : s.retireCoreIf false = s := rfl

variable (u : Bool)
@[simp] theorem State.retireCoreIf_dc : (s.retireCoreIf u).dc = s.dc := by cases u <;> rfl
@[simp] theorem State.retireCoreIf_hc : (s.retireCoreIf u).hc = s.hc := by cases u <;> rfl
@[simp] theorem State.retireCoreIf_fault : (s.retireCoreIf u).fault = s.fault := by cases u <;> rfl
@[simp] theorem State.retireCoreIf_inputs : (s.retireCoreIf u).inputs = s.inputs := by cases u <;> rfl
@[simp] theorem State.retireCoreIf_responses : (s.retireCoreIf u).responses = s.responses := by cases u <;> rfl

/-! ### `resetEvent` -/
@[simp] theorem State.resetEvent_dc : (s.resetEvent rest).dc = List.replicate s.dc.length DigestCtx.reset := rfl
@[simp] theorem State.resetEvent_hc : (s.resetEvent rest).hc = List.replicate s.hc.length HmacCtx.reset := rfl
@[simp] theorem State.resetEvent_fault : (s.resetEvent rest).fault = false := rfl
@[simp] theorem State.resetEvent_job : (s.resetEvent rest).job = none := rfl
@[simp] theorem State.resetEvent_inputs : (s.resetEvent rest).inputs = rest := rfl
@[simp] theorem State.resetEvent_responses : (s.resetEvent rest).responses = [] := rfl
@[simp] theorem State.resetEvent_free : (s.resetEvent rest).free = s.free := rfl
end

/-! ### Contexts by place -/

/-- The contexts do not depend on the core's registers. -/
@[simp] theorem State.ctxAt_core (s : State) (x : Quad) (t : BitVec 6) (j : Option CtxRef) (r : CtxRef) :
    ({ s with x := x, t := t, job := j } : State).ctxAt r = s.ctxAt r := by
  cases r <;> rfl

/-- A context written where the engine has one reads back. -/
theorem State.ctxAt_setCtxAt {s : State} {r : CtxRef} {c : DigestCtx} (c' : DigestCtx) (h : s.ctxAt r = some c) :
    (s.setCtxAt r c').ctxAt r = some c' := by
  cases r with
  | digest n =>
    have hn : n < s.dc.length := by
      simp only [State.ctxAt] at h
      exact (List.getElem?_eq_some_iff.mp h).1
    simp [State.setCtxAt, State.ctxAt, hn]
  | inner n =>
    simp only [State.ctxAt, Option.map_eq_some_iff] at h
    obtain ⟨k, hk, -⟩ := h
    have hn := (List.getElem?_eq_some_iff.mp hk).1
    simp [State.setCtxAt, State.ctxAt, hn]
  | outer n =>
    simp only [State.ctxAt, Option.map_eq_some_iff] at h
    obtain ⟨k, hk, -⟩ := h
    have hn := (List.getElem?_eq_some_iff.mp hk).1
    simp [State.setCtxAt, State.ctxAt, hn]

/-- Writing a context changes the slots and nothing else of the state. -/
theorem State.setCtxAt_cases (s : State) (r : CtxRef) (c : DigestCtx) :
    (∃ n, r = .digest n ∧ s.setCtxAt r c = s.setDigest n c) ∨
      (∃ n h, r = .inner n ∧ s.hc[n]? = some h ∧ s.setCtxAt r c = s.setHmac n { h with inner := c }) ∨
      (∃ n h, r = .outer n ∧ s.hc[n]? = some h ∧ s.setCtxAt r c = s.setHmac n { h with outer := c }) ∨
      s.setCtxAt r c = s := by
  cases r with
  | digest n => exact .inl ⟨n, rfl, rfl⟩
  | inner n =>
    cases hh : s.hc[n]? with
    | none => exact .inr (.inr (.inr (by simp [State.setCtxAt, hh])))
    | some h => exact .inr (.inl ⟨n, h, rfl, hh, by simp [State.setCtxAt, hh]⟩)
  | outer n =>
    cases hh : s.hc[n]? with
    | none => exact .inr (.inr (.inr (by simp [State.setCtxAt, hh])))
    | some h => exact .inr (.inr (.inl ⟨n, h, rfl, hh, by simp [State.setCtxAt, hh]⟩))

end Sys2Proof.Machine
end

