-- ==== Sys2Proof/Laws/Step.lean ====
section
/-!
SUPPORT. Everything a command, a step of the core, and a step of the machine can do, said once: later proofs cite these and do
not unfold `exec` or `step`.
-/

namespace Sys2Proof.Machine

/-! ### Responses (R70) -/

/-- The status word of an `OK`, in bytes. -/
theorem okBytes_eq (f : Bool) : le32 (statusWord okNumber f) = okBytes f := by cases f <;> rfl

/-- The status word of an error, in bytes. -/
theorem errBytes_eq (e : ErrCode) : le32 (statusWord (errNumber e) true) = errBytes e := by cases e <;> rfl

/-- `raise` in full (R203). -/
theorem raise_eq (s : State) (e : ErrCode) :
    s.raise e = { s with fault := true, responses := s.responses ++ [errBytes e] } := by
  simp [State.raise, errBytes_eq]

/-! ### The instructions are the eight commands and the 48 steps -/

/-- An instruction is one of the eight commands, or the step that some index selects. -/
theorem instr_cases (i : Instr) :
    (∃ ctx, i = .init ctx) ∨ (∃ ctx data, i = .update ctx data) ∨ (∃ ctx, i = .finish ctx) ∨ (∃ data, i = .digest data) ∨
      (∃ ctx key, i = .hmacInit ctx key) ∨ (∃ ctx data, i = .hmacUpdate ctx data) ∨ (∃ ctx, i = .hmacFinish ctx) ∨
      (∃ key data, i = .hmac key data) ∨ ∃ t, decodeStep t = some i := by
  have step : ∀ j, j ∈ stepInstrs → ∃ t, decodeStep t = some j := by
    intro j hj
    obtain ⟨n, hn, h⟩ := List.getElem_of_mem hj
    have hn' : n < 48 := hn
    refine ⟨BitVec.ofNat 6 n, ?_⟩
    have hm : (BitVec.ofNat 6 n).toNat = n := by simp only [BitVec.toNat_ofNat]; omega
    unfold decodeStep
    rw [hm, ← h, List.getElem?_eq_getElem hn]
  cases i
  case init ctx => simp
  case update ctx data => simp
  case finish ctx => simp
  case digest data => simp
  case hmacInit ctx key => simp
  case hmacUpdate ctx data => simp
  case hmacFinish ctx => simp
  case hmac key data => simp
  all_goals
    iterate 8 refine .inr ?_
    exact step _ (by simp [stepInstrs, round1Instrs, round2Instrs, round3Instrs])

/-- A packet never decodes to a step: the host cannot issue one (R74). -/
theorem decodeStep_ne_of_packet {cfg : Config} {p : List Byte} {i : Instr} (h : decodePacket cfg p = .ok i) (t : BitVec 6) :
    decodeStep t ≠ some i := by
  intro ht
  have hm : i ∈ stepInstrs := List.mem_of_getElem? ht
  unfold decodePacket at h
  split at h
  · cases h
  dsimp only at h
  split at h
  · cases h
  next op _ =>
    split at h
    · cases h
    split at h
    · cases h
    split at h
    · cases h
    split at h
    · cases h
    next j hj =>
      injection h with h
      subst h
      cases op <;> simp only [assemble, Option.map_eq_some_iff] at hj <;> obtain ⟨u, -, rfl⟩ := hj <;>
        simp [stepInstrs, round1Instrs, round2Instrs, round3Instrs] at hm

/-! ### Commands, by their slot's phase -/

section
variable (s : State) (ctx : BitVec 4) (data : List Byte)

theorem exec_init_cases :
    (s.dc[ctx.toNat]? = none ∧ exec (.init ctx) s = .next (s.raise .ctxIndex)) ∨
      ∃ c, s.dc[ctx.toNat]? = some c ∧
        exec (.init ctx) s = .next ((s.setDigest ctx.toNat (initOp c)).respondOk []) := by
  cases h : s.dc[ctx.toNat]? with
  | none => exact .inl ⟨rfl, by simp [exec, execInit, h]⟩
  | some c => exact .inr ⟨c, rfl, by simp [exec, execInit, h]⟩

theorem exec_update_cases :
    (s.dc[ctx.toNat]? = none ∧ exec (.update ctx data) s = .next (s.raise .ctxIndex)) ∨
      (∃ c, s.dc[ctx.toNat]? = some c ∧ c.phase ≠ .active ∧
        exec (.update ctx data) s = .next (s.raise .ctxState)) ∨
      ∃ c, s.dc[ctx.toNat]? = some c ∧ c.phase = .active ∧
        exec (.update ctx data) s =
          .next (((s.setDigest ctx.toNat (updateOp c data)).retireCoreIf (compresses c data.length)).respondOk []) := by
  cases h : s.dc[ctx.toNat]? with
  | none => exact .inl ⟨rfl, by simp [exec, execUpdate, h]⟩
  | some c =>
    by_cases hp : c.phase = .active
    · exact .inr (.inr ⟨c, rfl, hp, by simp [exec, execUpdate, h, isActive, hp]⟩)
    · exact .inr (.inl ⟨c, rfl, hp, by simp [exec, execUpdate, h, isActive, hp]⟩)

theorem exec_finish_cases :
    (s.dc[ctx.toNat]? = none ∧ exec (.finish ctx) s = .next (s.raise .ctxIndex)) ∨
      (∃ c, s.dc[ctx.toNat]? = some c ∧ c.phase ≠ .active ∧ exec (.finish ctx) s = .next (s.raise .ctxState)) ∨
      ∃ c, s.dc[ctx.toNat]? = some c ∧ c.phase = .active ∧
        exec (.finish ctx) s =
          .next ((s.setDigest ctx.toNat (finishOp c)).retireCore.respondOk (digestOf (finishOp c))) := by
  cases h : s.dc[ctx.toNat]? with
  | none => exact .inl ⟨rfl, by simp [exec, execFinish, h]⟩
  | some c =>
    by_cases hp : c.phase = .active
    · exact .inr (.inr ⟨c, rfl, hp, by simp [exec, execFinish, h, isActive, hp]⟩)
    · exact .inr (.inl ⟨c, rfl, hp, by simp [exec, execFinish, h, isActive, hp]⟩)

theorem exec_digest_eq : exec (.digest data) s = .next (s.retireCore.respondOk (md4 data)) := rfl

theorem exec_hmacInit_cases :
    (s.hc[ctx.toNat]? = none ∧ exec (.hmacInit ctx data) s = .next (s.raise .ctxIndex)) ∨
      ∃ h, s.hc[ctx.toNat]? = some h ∧
        exec (.hmacInit ctx data) s =
          .next ((s.setHmac ctx.toNat (hmacInitOp h data)).retireCore.respondOk []) := by
  cases h : s.hc[ctx.toNat]? with
  | none => exact .inl ⟨rfl, by simp [exec, execHmacInit, h]⟩
  | some k => exact .inr ⟨k, rfl, by simp [exec, execHmacInit, h]⟩

theorem exec_hmacUpdate_cases :
    (s.hc[ctx.toNat]? = none ∧ exec (.hmacUpdate ctx data) s = .next (s.raise .ctxIndex)) ∨
      (∃ h, s.hc[ctx.toNat]? = some h ∧ h.inner.phase ≠ .active ∧
        exec (.hmacUpdate ctx data) s = .next (s.raise .ctxState)) ∨
      ∃ h, s.hc[ctx.toNat]? = some h ∧ h.inner.phase = .active ∧
        exec (.hmacUpdate ctx data) s =
          .next (((s.setHmac ctx.toNat (hmacUpdateOp h data)).retireCoreIf
            (compresses h.inner data.length)).respondOk []) := by
  cases h : s.hc[ctx.toNat]? with
  | none => exact .inl ⟨rfl, by simp [exec, execHmacUpdate, h]⟩
  | some k =>
    by_cases hp : k.inner.phase = .active
    · exact .inr (.inr ⟨k, rfl, hp, by simp [exec, execHmacUpdate, h, isActive, hp]⟩)
    · exact .inr (.inl ⟨k, rfl, hp, by simp [exec, execHmacUpdate, h, isActive, hp]⟩)

theorem exec_hmacFinish_cases :
    (s.hc[ctx.toNat]? = none ∧ exec (.hmacFinish ctx) s = .next (s.raise .ctxIndex)) ∨
      (∃ h, s.hc[ctx.toNat]? = some h ∧ h.inner.phase ≠ .active ∧
        exec (.hmacFinish ctx) s = .next (s.raise .ctxState)) ∨
      ∃ h, s.hc[ctx.toNat]? = some h ∧ h.inner.phase = .active ∧
        exec (.hmacFinish ctx) s =
          .next ((s.setHmac ctx.toNat (hmacFinishOp h)).retireCore.respondOk (tagOf (hmacFinishOp h))) := by
  cases h : s.hc[ctx.toNat]? with
  | none => exact .inl ⟨rfl, by simp [exec, execHmacFinish, h]⟩
  | some k =>
    by_cases hp : k.inner.phase = .active
    · exact .inr (.inr ⟨k, rfl, hp, by simp [exec, execHmacFinish, h, isActive, hp]⟩)
    · exact .inr (.inl ⟨k, rfl, hp, by simp [exec, execHmacFinish, h, isActive, hp]⟩)

theorem exec_hmac_eq (key : List Byte) :
    exec (.hmac key data) s = .next (s.retireCore.respondOk (hmacMd4 key data)) := rfl

end

/-! ### A step of the core -/

/-- Every step of the core as an instruction: it has no block, or it changes the working registers and sets the step index to the
next step's. -/
theorem exec_step_cases {t : BitVec 6} {i : Instr} (h : decodeStep t = some i) (s : State) :
    t.toNat < 48 ∧
      ((s.jobBlock = none ∧ exec i s = .fault .stepOutsideCompress) ∨
        ∃ block q, s.jobBlock = some block ∧ exec i s = .next { s with x := q, t := t + 1 }) := by
  have ht : t.toNat < 48 := (List.getElem?_eq_some_iff.mp h).1
  have hm : i ∈ stepInstrs := List.mem_of_getElem? h
  have key : ∀ k : Fin 64, ∀ i, decodeStep (BitVec.ofFin k) = some i → ∃ f, ∀ s, exec i s = runStep f (BitVec.ofFin k + 1) s := by
    intro k i hk
    have hlt : k.val < 48 := (List.getElem?_eq_some_iff.mp hk).1
    have : k.val ∈ List.range 48 := by simp [hlt]
    obtain ⟨k, hk64⟩ := k
    simp only at hlt
    interval_cases k <;> (obtain rfl := Option.some.inj hk; exact ⟨_, fun _ => rfl⟩)
  obtain ⟨f, hf⟩ := key t.toFin i h
  refine ⟨ht, ?_⟩
  have hs := hf s
  rcases runStep_cases f (BitVec.ofFin t.toFin + 1) s with ⟨hn, he⟩ | ⟨block, hb, he⟩
  · exact .inl ⟨hn, hs.trans he⟩
  · exact .inr ⟨block, _, hb, hs.trans he⟩

/-! ### A step of the machine -/

/-- What one step of the machine does, by what is pending: a reset, the core, a packet, or nothing. -/
theorem step_cases (s : State) :
    (∃ rest, pendingReset s.inputs = some rest ∧ step s = .next (s.resetEvent rest)) ∨
      (pendingReset s.inputs = none ∧ ∃ r, s.job = some r ∧ step s = runCore r s) ∨
      (s.job = none ∧ s.inputs = [] ∧ step s = .next s) ∨
      (pendingReset s.inputs = none ∧ s.job = none ∧
        ∃ p rest, s.inputs = .packet p :: rest ∧ step s = runPacket p { s with inputs := rest }) := by
  cases hr : pendingReset s.inputs with
  | some rest => exact .inl ⟨rest, rfl, by simp [step, engineTurn, hr]⟩
  | none =>
    have he : step s = runEngine s := by simp [step, engineTurn, hr]
    cases hj : s.job with
    | some r => exact .inr (.inl ⟨rfl, r, rfl, by simp [he, runEngine, hj]⟩)
    | none =>
      cases hi : s.inputs with
      | nil => exact .inr (.inr (.inl ⟨rfl, rfl, by simp [he, runEngine, hj, hi]⟩))
      | cons e rest =>
        cases e with
        | reset => simp [hi, pendingReset] at hr
        | packet p =>
          exact .inr (.inr (.inr ⟨rfl, rfl, p, rest, rfl, by simp [he, runEngine, hj, hi]⟩))

/-! ### Runs -/

/-- A run of `a + b` steps is a run of `a` steps and then one of `b`. -/
theorem run_add (M : Host.Core) (a b : Nat) (s t : M.State) (h : M.run a s = .next t) : M.run (a + b) s = M.run b t := by
  induction a generalizing s with
  | zero =>
    simp only [Host.Core.run] at h
    injection h with h
    simp [h]
  | succ a ih =>
    rw [show a + 1 + b = (a + b) + 1 by omega]
    simp only [Host.Core.run] at h ⊢
    split at h <;> simp_all

/-- A run of one step is the step. -/
theorem run_one {s t : State} (h : step s = .next t) : Host.Core.run Sys2Proof.core 1 s = .next t := by
  have h' : Sys2Proof.core.step s = .next t := h
  simp only [Host.Core.run, h']

end Sys2Proof.Machine
end

