-- ==== Sys2Proof/Tests/Slice0.lean ====
section
/-!
SUPPORT. Tests. Expected values are the spec's own (95_test_vectors.md, worked examples of the rules, tables of 30_encoding.md and
70_reset_and_hazards.md); the last part shows, for each obligation with hypotheses, a state and operands that meet them.
-/

namespace Sys2Proof.Tests

set_option Elab.async false

open Sys2Proof Sys2Proof.Machine

/-! ### Helpers -/

/-- The next state of an outcome, if it is one. -/
def nextOf (o : Host.Outcome State Fault Refusal) : Option State :=
  match o with
  | .next s => some s
  | .fault _ => none
  | .refused _ => none

/-- The reset state with a Digest Context in `DC[0]`. -/
def withDigest (c : DigestCtx) : State := State.reset.setDigest 0 c

/-- The reset state with an HMAC Context in `HC[0]`. -/
def withHmac (h : HmacCtx) : State := State.reset.setHmac 0 h

/-- A store that holds a byte string from index 0 on. -/
def storeOf (data : List Byte) : Memory := Memory.writeBytes [] 0 data

/-- The bytes `0, 1, ..., n-1`. -/
def upTo (n : Nat) : List Byte := (List.range n).map (BitVec.ofNat 8)

/-- The block `00 01 ... 3f` as a store (its byte 0 is an unlisted one). -/
def countingBlock : Memory := (List.range 64).tail.map fun i => (i, BitVec.ofNat 8 i)

/-- The block of 64 bytes `ff` as a store. -/
def onesBlock : Memory := (List.range 64).map fun i => (i, 0xff)

/-- A core that compresses `DC[0]`, whose buffer is `block`, with registers `x` at step `t`. -/
def coreState (block : Memory) (x : Quad) (t : BitVec 6) : State :=
  { withDigest { DigestCtx.reset with buf := block, phase := .active } with x := x, t := t, job := some (.digest 0) }

/-- The registers and the step index after an instruction. -/
def coreAfter (i : Instr) (s : State) : Option (Quad × BitVec 6) := (nextOf (exec i s)).map fun t => (t.x, t.t)

/-- The answers of a fresh engine to one packet: the response and `FAULT`. -/
def answer (p : List Byte) : Option (List (List Byte) × Bool) :=
  (nextOf (step { State.reset with inputs := [.packet p] })).map fun t => (t.responses, t.fault)

/-- The status word of a response, as the spec prints it. -/
abbrev status (b : Byte) : List Byte := [b, 0x00, 0x00, 0x00]

/-- An active context that holds the bytes `m`, shorter than a block, after `INIT`. -/
def buffered (m : List Byte) : DigestCtx :=
  { DigestCtx.reset with h := initialWords, lo := BitVec.ofNat 32 m.length, buf := storeOf m,
                         fill := BitVec.ofNat 6 m.length, phase := .active }

/-! ### Well-formedness: each check refuses an ill-formed term -/

/-- R62: on the test instance the Digest slots are 0 and 1. -/
theorem test_wf_digest_slot :
    [Instr.init 2, .update 2 [], .finish 2].map (Instr.wf Config.testInstance) = [false, false, false] := by decide

theorem test_wf_digest_slot_last :
    [Instr.init 1, .update 1 [], .finish 1].map (Instr.wf Config.testInstance) = [true, true, true] := by decide

/-- R62: on the test instance the one HMAC slot is 0. -/
theorem test_wf_hmac_slot :
    [Instr.hmacInit 1 [], .hmacUpdate 1 [], .hmacFinish 1].map (Instr.wf Config.testInstance) = [false, false, false] := by decide

theorem test_wf_hmac_slot_last :
    [Instr.hmacInit 0 [], .hmacUpdate 0 [], .hmacFinish 0].map (Instr.wf Config.testInstance) = [true, true, true] := by decide

/-- R64: a byte string of 2^32 bytes has no length field. -/
theorem test_wf_too_long (b : Byte) :
    lenOk (List.replicate (2 ^ 32) b) = false ∧ lenOk (List.replicate (2 ^ 32 - 1) b) = true := by
  simp only [lenOk, List.length_replicate]
  decide

theorem test_wf_length_update {d : List Byte} (h : lenOk d = false) : Instr.wf Config.testInstance (.update 0 d) = false := by
  simp [Instr.wf, h]

theorem test_wf_length_digest {d : List Byte} (h : lenOk d = false) : Instr.wf Config.testInstance (.digest d) = false := by
  simp [Instr.wf, h]

theorem test_wf_length_hmac_init {d : List Byte} (h : lenOk d = false) : Instr.wf Config.testInstance (.hmacInit 0 d) = false := by
  simp [Instr.wf, h]

theorem test_wf_length_hmac_update {d : List Byte} (h : lenOk d = false) : Instr.wf Config.testInstance (.hmacUpdate 0 d) = false := by
  simp [Instr.wf, h]

theorem test_wf_length_hmac_key {d : List Byte} (h : lenOk d = false) : Instr.wf Config.testInstance (.hmac d []) = false := by
  simp [Instr.wf, h]

theorem test_wf_length_hmac_data {d : List Byte} (h : lenOk d = false) : Instr.wf Config.testInstance (.hmac [] d) = false := by
  simp [Instr.wf, h]

/-! ### Decoding: words written out from the encodings -/

/-- R61, R67: OP = 1 in bits 3:0, CTX = 1 in bits 7:4. -/
theorem test_decode_init : decode Config.testInstance (.packet [0x11, 0x00, 0x00, 0x00]) = .ok (.init 1) := by decide

theorem test_encode_init : encode (.init 1) = .packet [0x11, 0x00, 0x00, 0x00] := by decide

/-- R63, R64: LEN = 3, then the bytes. -/
theorem test_decode_update :
    decode Config.testInstance (.packet [0x12, 0x00, 0x00, 0x00, 0x03, 0x00, 0x00, 0x00, 0x61, 0x62, 0x63]) = .ok (.update 1 [0x61, 0x62, 0x63]) := by decide

theorem test_encode_update :
    encode (.update 1 [0x61, 0x62, 0x63]) = .packet [0x12, 0x00, 0x00, 0x00, 0x03, 0x00, 0x00, 0x00, 0x61, 0x62, 0x63] := by decide

theorem test_decode_finish : decode Config.testInstance (.packet [0x13, 0x00, 0x00, 0x00]) = .ok (.finish 1) := by decide

theorem test_encode_finish : encode (.finish 1) = .packet [0x13, 0x00, 0x00, 0x00] := by decide

theorem test_decode_digest :
    decode Config.testInstance (.packet [0x04, 0x00, 0x00, 0x00, 0x01, 0x00, 0x00, 0x00, 0x61]) = .ok (.digest [0x61]) := by decide

theorem test_encode_digest :
    encode (.digest [0x61]) = .packet [0x04, 0x00, 0x00, 0x00, 0x01, 0x00, 0x00, 0x00, 0x61] := by decide

/-- The example of R186. -/
theorem test_decode_hmacInit :
    decode Config.testInstance (.packet [0x05, 0x00, 0x00, 0x00, 0x04, 0x00, 0x00, 0x00, 0x4a, 0x65, 0x66, 0x65]) = .ok (.hmacInit 0 [0x4a, 0x65, 0x66, 0x65]) := by decide

theorem test_encode_hmacInit :
    encode (.hmacInit 0 [0x4a, 0x65, 0x66, 0x65]) = .packet [0x05, 0x00, 0x00, 0x00, 0x04, 0x00, 0x00, 0x00, 0x4a, 0x65, 0x66, 0x65] := by decide

theorem test_decode_hmacUpdate :
    decode Config.testInstance (.packet [0x06, 0x00, 0x00, 0x00, 0x02, 0x00, 0x00, 0x00, 0x78, 0x79]) = .ok (.hmacUpdate 0 [0x78, 0x79]) := by decide

theorem test_encode_hmacUpdate :
    encode (.hmacUpdate 0 [0x78, 0x79]) = .packet [0x06, 0x00, 0x00, 0x00, 0x02, 0x00, 0x00, 0x00, 0x78, 0x79] := by decide

theorem test_decode_hmacFinish :
    decode Config.testInstance (.packet [0x07, 0x00, 0x00, 0x00]) = .ok (.hmacFinish 0) := by decide

theorem test_encode_hmacFinish : encode (.hmacFinish 0) = .packet [0x07, 0x00, 0x00, 0x00] := by decide

/-- R63: KLEN = 3, LEN = 2, key, data. -/
theorem test_decode_hmac :
    decode Config.testInstance (.packet [0x08, 0x00, 0x00, 0x00, 0x03, 0x00, 0x00, 0x00, 0x02, 0x00, 0x00, 0x00, 0x6b, 0x65, 0x79, 0x61, 0x62]) = .ok (.hmac [0x6b, 0x65, 0x79] [0x61, 0x62]) := by decide

theorem test_encode_hmac :
    encode (.hmac [0x6b, 0x65, 0x79] [0x61, 0x62]) = .packet [0x08, 0x00, 0x00, 0x00, 0x03, 0x00, 0x00, 0x00, 0x02, 0x00, 0x00, 0x00, 0x6b, 0x65, 0x79, 0x61, 0x62] := by decide

/-- R74: t[5:4] = 0 is round 1, t[3:0] the position. -/
theorem test_decode_steps_round1 :
    ([0b000000, 0b000001, 0b000010, 0b000011, 0b000100, 0b000101, 0b000110, 0b000111, 0b001000, 0b001001, 0b001010,
      0b001011, 0b001100, 0b001101, 0b001110, 0b001111] : List (BitVec 6)).map decodeStep =
    [some .step0, some .step1, some .step2, some .step3, some .step4, some .step5, some .step6, some .step7, some
      .step8, some .step9, some .step10, some .step11, some .step12, some .step13, some .step14, some .step15] := by decide

/-- R74: t[5:4] = 1 is round 2, t[3:0] the position. -/
theorem test_decode_steps_round2 :
    ([0b010000, 0b010001, 0b010010, 0b010011, 0b010100, 0b010101, 0b010110, 0b010111, 0b011000, 0b011001, 0b011010,
      0b011011, 0b011100, 0b011101, 0b011110, 0b011111] : List (BitVec 6)).map decodeStep =
    [some .step16, some .step17, some .step18, some .step19, some .step20, some .step21, some .step22, some
      .step23, some .step24, some .step25, some .step26, some .step27, some .step28, some .step29, some .step30,
      some .step31] := by decide

/-- R74: t[5:4] = 2 is round 3, t[3:0] the position. -/
theorem test_decode_steps_round3 :
    ([0b100000, 0b100001, 0b100010, 0b100011, 0b100100, 0b100101, 0b100110, 0b100111, 0b101000, 0b101001, 0b101010,
      0b101011, 0b101100, 0b101101, 0b101110, 0b101111] : List (BitVec 6)).map decodeStep =
    [some .step32, some .step33, some .step34, some .step35, some .step36, some .step37, some .step38, some
      .step39, some .step40, some .step41, some .step42, some .step43, some .step44, some .step45, some .step46,
      some .step47] := by decide

/-- R74: t[5:4] = 3 selects no step. -/
theorem test_decode_step_none :
    ([0b110000, 0b110001, 0b111111] : List (BitVec 6)).map decodeStep = [none, none, none] := by decide

/-- 95_test_vectors.md section 6, the decoder table check; R74. -/
theorem test_table_words :
    [decodeTableWord 32 0x00000012, decodeTableWord 32 0x00000014, decodeTableWord 32 0x00000004, decodeTableWord 8 0x2F,
      decodeTableWord 8 0x30, decodeTableWord 6 0x15] =
    [some (.update 1 []), none, some (.digest []), some .step47, none, some .step21] := by decide

theorem test_fetch_word_update :
    nextOf (step (State.reset.withFetchWord 32 0x00000012)) =
    nextOf (exec (.update 1 []) State.reset) := by decide +kernel

/-- 95_test_vectors.md section 6. -/
theorem test_fetch_word_digest :
    (nextOf (step (State.reset.withFetchWord 32 0x00000004))).map (fun t => t.responses) =
    some [[0x00, 0x00, 0x00, 0x00, 0x31, 0xd6, 0xcf, 0xe0, 0xd1, 0x6a, 0xe9, 0x31, 0xb7, 0x3c, 0x59, 0xd7, 0xe0, 0xc0, 0x89, 0xc0]] := by decide +kernel

/-- 95_test_vectors.md section 2.3: step 32 on an all-zero block and registers. -/
theorem test_fetch_word_step :
    (nextOf (step (State.reset.withFetchWord 8 0x20))).map (fun t => (t.x, t.t)) = some (⟨0x76CF5D0B, 0, 0, 0⟩, 33) := by decide +kernel

/-! ### Errors and their order (95_test_vectors.md section 6, each packet the first after reset) -/

theorem test_err_framing :
    [[],
      [0x01, 0x00, 0x00],
      [0x01, 0x00, 0x00, 0x00, 0x00],
      [0x02, 0x00, 0x00, 0x00],
      [0x02, 0x00, 0x00, 0x00, 0x04, 0x00, 0x00, 0x00, 0x61, 0x62, 0x63],
      [0x02, 0x00, 0x00, 0x00, 0x02, 0x00, 0x00, 0x00, 0x61, 0x62, 0x63],
      [0x02, 0x00, 0x00, 0x00, 0xff, 0xff, 0xff, 0xff],
      [0x08, 0x00, 0x00, 0x00, 0x00, 0x00, 0x00, 0x00],
      [0x08, 0x00, 0x00, 0x00, 0xff, 0xff, 0xff, 0xff, 0xff, 0xff, 0xff, 0xff],
      [0x08, 0x00, 0x00, 0x00, 0x01, 0x00, 0x00, 0x00, 0x01, 0x00, 0x00, 0x00, 0x6b]].map answer =
    List.replicate 10 (some ([[0x15, 0x00, 0x00, 0x00]], true)) := by decide +kernel

theorem test_err_illegal_op :
    [[0x00, 0x00, 0x00, 0x00],
      [0xff, 0xff, 0xff, 0xff],
      [0x09, 0x00, 0x00, 0x00],
      [0x0f, 0x00, 0x00, 0x00],
      [0x0a, 0x01, 0x00, 0x00, 0x00],
      [0x00, 0x01, 0x00, 0x00]].map answer =
    List.replicate 6 (some ([[0x11, 0x00, 0x00, 0x00]], true)) := by decide +kernel

theorem test_err_reserved :
    [[0x01, 0x01, 0x00, 0x00],
      [0x01, 0x00, 0x00, 0x80],
      [0x14, 0x00, 0x00, 0x00, 0x00, 0x00, 0x00, 0x00],
      [0xf8, 0x00, 0x00, 0x00, 0x00, 0x00, 0x00, 0x00, 0x00, 0x00, 0x00, 0x00]].map answer =
    List.replicate 4 (some ([[0x12, 0x00, 0x00, 0x00]], true)) := by decide +kernel

theorem test_err_ctx_index :
    [[0x21, 0x00, 0x00, 0x00],
      [0x15, 0x00, 0x00, 0x00, 0x01, 0x00, 0x00, 0x00, 0x6b],
      [0xf3, 0x00, 0x00, 0x00],
      [0x22, 0x00, 0x00, 0x00, 0x04, 0x00, 0x00, 0x00]].map answer =
    List.replicate 4 (some ([[0x13, 0x00, 0x00, 0x00]], true)) := by decide +kernel

theorem test_err_ctx_state :
    [[0x02, 0x00, 0x00, 0x00, 0x03, 0x00, 0x00, 0x00, 0x61, 0x62, 0x63],
      [0x02, 0x00, 0x00, 0x00, 0x00, 0x00, 0x00, 0x00],
      [0x03, 0x00, 0x00, 0x00],
      [0x06, 0x00, 0x00, 0x00, 0x03, 0x00, 0x00, 0x00, 0x61, 0x62, 0x63],
      [0x07, 0x00, 0x00, 0x00]].map answer =
    List.replicate 5 (some ([[0x14, 0x00, 0x00, 0x00]], true)) := by decide +kernel

theorem test_ok_answers :
    [[0x11, 0x00, 0x00, 0x00],
      [0x01, 0x00, 0x00, 0x00],
      [0x05, 0x00, 0x00, 0x00, 0x00, 0x00, 0x00, 0x00],
      [0x04, 0x00, 0x00, 0x00, 0x00, 0x00, 0x00, 0x00],
      [0x04, 0x00, 0x00, 0x00, 0x03, 0x00, 0x00, 0x00, 0x61, 0x62, 0x63],
      [0x04, 0x00, 0x00, 0x00, 0x03, 0x00, 0x00, 0x00, 0x78, 0x79, 0x7a],
      [0x08, 0x00, 0x00, 0x00, 0x03, 0x00, 0x00, 0x00, 0x03, 0x00, 0x00, 0x00, 0x6b, 0x65, 0x79, 0x61, 0x62, 0x63],
      [0x08, 0x00, 0x00, 0x00, 0x00, 0x00, 0x00, 0x00, 0x00, 0x00, 0x00, 0x00]].map answer =
    ([[0x00, 0x00, 0x00, 0x00],
      [0x00, 0x00, 0x00, 0x00],
      [0x00, 0x00, 0x00, 0x00],
      [0x00, 0x00, 0x00, 0x00, 0x31, 0xd6, 0xcf, 0xe0, 0xd1, 0x6a, 0xe9, 0x31, 0xb7, 0x3c, 0x59, 0xd7, 0xe0, 0xc0, 0x89, 0xc0],
      [0x00, 0x00, 0x00, 0x00, 0xa4, 0x48, 0x01, 0x7a, 0xaf, 0x21, 0xd8, 0x52, 0x5f, 0xc1, 0x0a, 0xe8, 0x7a, 0xa6, 0x72, 0x9d],
      [0x00, 0x00, 0x00, 0x00, 0x7e, 0x73, 0x77, 0x55, 0x86, 0xf4, 0x05, 0x34, 0x64, 0xfc, 0x79, 0xe7, 0xa1, 0x6b, 0x9a, 0x62],
      [0x00, 0x00, 0x00, 0x00, 0x32, 0xc4, 0x3d, 0x6d, 0x6e, 0xda, 0x7f, 0x1e, 0x46, 0x47, 0x11, 0x47, 0x3b, 0x95, 0x6b, 0x68],
      [0x00, 0x00, 0x00, 0x00, 0xc8, 0xd4, 0x44, 0xe3, 0x15, 0x3b, 0x53, 0x88, 0x50, 0xe7, 0x85, 0x0f, 0xa8, 0x4b, 0xb2, 0x47]] : List (List Byte)).map fun r => some ([r], false) := by decide +kernel

/-- 95_test_vectors.md section 6: after an error, init(0) answers 10 00 00 00. -/
theorem test_fault_sticky :
    (nextOf (exec (.init 0) { State.reset with fault := true })).map (fun t => (t.responses, t.fault)) =
    some ([status 0x10], true) := by decide +kernel

theorem test_fault_second_error :
    (nextOf (exec (.finish 0) { State.reset with fault := true })).map (fun t => t.responses) = some [status 0x14] := by decide +kernel

/-- R230, R231: the packet before the reset has no effect, both streams are emptied. -/
theorem test_reset_clears :
    nextOf (step { State.reset with fault := true, inputs := [.packet [0x01], .reset], responses := [[0x14]] }) =
    some State.reset := by decide +kernel

/-- R231: a command in progress is abandoned without a response. -/
theorem test_reset_inside_compress :
    (nextOf (step { coreState countingBlock initialWords 20 with inputs := [.reset] })).map (fun t => (t.job, t.responses)) =
    some (none, []) := by decide +kernel

/-- R230: the engine waits for the first command packet. -/
theorem test_idle_waits : nextOf (step State.reset) = some State.reset := by decide +kernel

/-! ### Stores (R41, R42) -/

/-- The example of R41. -/
theorem test_message_word : msgWord (storeOf [0x61, 0x62, 0x63, 0x80]) 0 = 0x80636261 := by decide

theorem test_store_blocks : storeOf (upTo 64) = countingBlock ∧ storeOf (rep 0xff 64) = onesBlock := by decide +kernel

theorem test_store_canonical :
    Memory.write (Memory.write (storeOf [0x01, 0x00, 0x03]) 2 0x00) 63 0xff = [(0, 0x01), (63, 0xff)] := by decide

theorem test_store_order :
    storeOf [0x01, 0x00, 0x03] = [(0, 0x01), (2, 0x03)] ∧ Memory.write [(0, 0x01), (2, 0x03)] 1 0x02 = [(0, 0x01), (1, 0x02), (2, 0x03)] := by decide

/-! ### Round functions and rotation (95_test_vectors.md sections 2.1, 2.2) -/

theorem test_round_functions :
    (roundF 0xF0F0F0F0 0xCCCCCCCC 0xAAAAAAAA, roundG 0xF0F0F0F0 0xCCCCCCCC 0xAAAAAAAA, roundH 0xF0F0F0F0 0xCCCCCCCC 0xAAAAAAAA) =
    (0xCACACACA, 0xE8E8E8E8, 0x96969696) := by decide

theorem test_rotl32 :
    [rotl32 0x80000000 1, rotl32 0x00000001 31, rotl32 0x12345678 19, rotl32 0xDEADBEEF 15] =
    [0x00000001, 0x80000000, 0xB3C091A2, 0xDF77EF56] := by decide

/-! ### The 48 steps: the trace of `COMPRESS(IV, 00 01 ... 3f)` (95_test_vectors.md section 2.4), all words non-zero and distinct -/

theorem test_step0 :
    coreAfter .step0 (coreState countingBlock ⟨0x67452301, 0xEFCDAB89, 0x98BADCFE, 0x10325476⟩ 0) =
    some (⟨0x181007F8, 0xEFCDAB89, 0x98BADCFE, 0x10325476⟩, 1) := by decide +kernel

theorem test_step1 :
    coreAfter .step1 (coreState countingBlock ⟨0x181007F8, 0xEFCDAB89, 0x98BADCFE, 0x10325476⟩ 1) =
    some (⟨0x181007F8, 0xEFCDAB89, 0x98BADCFE, 0xF19A844F⟩, 2) := by decide +kernel

theorem test_step2 :
    coreAfter .step2 (coreState countingBlock ⟨0x181007F8, 0xEFCDAB89, 0x98BADCFE, 0xF19A844F⟩ 2) =
    some (⟨0x181007F8, 0xEFCDAB89, 0xD0AE7610, 0xF19A844F⟩, 3) := by decide +kernel

theorem test_step3 :
    coreAfter .step3 (coreState countingBlock ⟨0x181007F8, 0xEFCDAB89, 0xD0AE7610, 0xF19A844F⟩ 3) =
    some (⟨0x181007F8, 0xF3EEBBAD, 0xD0AE7610, 0xF19A844F⟩, 4) := by decide +kernel

theorem test_step4 :
    coreAfter .step4 (coreState countingBlock ⟨0x181007F8, 0xF3EEBBAD, 0xD0AE7610, 0xF19A844F⟩ 4) =
    some (⟨0xDF027A57, 0xF3EEBBAD, 0xD0AE7610, 0xF19A844F⟩, 5) := by decide +kernel

theorem test_step5 :
    coreAfter .step5 (coreState countingBlock ⟨0xDF027A57, 0xF3EEBBAD, 0xD0AE7610, 0xF19A844F⟩ 5) =
    some (⟨0xDF027A57, 0xF3EEBBAD, 0xD0AE7610, 0x2F6BB46E⟩, 6) := by decide +kernel

theorem test_step6 :
    coreAfter .step6 (coreState countingBlock ⟨0xDF027A57, 0xF3EEBBAD, 0xD0AE7610, 0x2F6BB46E⟩ 6) =
    some (⟨0xDF027A57, 0xF3EEBBAD, 0x76577E5A, 0x2F6BB46E⟩, 7) := by decide +kernel

theorem test_step7 :
    coreAfter .step7 (coreState countingBlock ⟨0xDF027A57, 0xF3EEBBAD, 0x76577E5A, 0x2F6BB46E⟩ 7) =
    some (⟨0xDF027A57, 0x68C61280, 0x76577E5A, 0x2F6BB46E⟩, 8) := by decide +kernel

theorem test_step8 :
    coreAfter .step8 (coreState countingBlock ⟨0xDF027A57, 0x68C61280, 0x76577E5A, 0x2F6BB46E⟩ 8) =
    some (⟨0x4CA28F2B, 0x68C61280, 0x76577E5A, 0x2F6BB46E⟩, 9) := by decide +kernel

theorem test_step9 :
    coreAfter .step9 (coreState countingBlock ⟨0x4CA28F2B, 0x68C61280, 0x76577E5A, 0x2F6BB46E⟩ 9) =
    some (⟨0x4CA28F2B, 0x68C61280, 0x76577E5A, 0xB4A5F168⟩, 10) := by decide +kernel

theorem test_step10 :
    coreAfter .step10 (coreState countingBlock ⟨0x4CA28F2B, 0x68C61280, 0x76577E5A, 0xB4A5F168⟩ 10) =
    some (⟨0x4CA28F2B, 0x68C61280, 0x21595773, 0xB4A5F168⟩, 11) := by decide +kernel

theorem test_step11 :
    coreAfter .step11 (coreState countingBlock ⟨0x4CA28F2B, 0x68C61280, 0x21595773, 0xB4A5F168⟩ 11) =
    some (⟨0x4CA28F2B, 0xC8A024C0, 0x21595773, 0xB4A5F168⟩, 12) := by decide +kernel

theorem test_step12 :
    coreAfter .step12 (coreState countingBlock ⟨0x4CA28F2B, 0xC8A024C0, 0x21595773, 0xB4A5F168⟩ 12) =
    some (⟨0x9ED4AE1D, 0xC8A024C0, 0x21595773, 0xB4A5F168⟩, 13) := by decide +kernel

theorem test_step13 :
    coreAfter .step13 (coreState countingBlock ⟨0x9ED4AE1D, 0xC8A024C0, 0x21595773, 0xB4A5F168⟩ 13) =
    some (⟨0x9ED4AE1D, 0xC8A024C0, 0x21595773, 0xB2CDFF4A⟩, 14) := by decide +kernel

theorem test_step14 :
    coreAfter .step14 (coreState countingBlock ⟨0x9ED4AE1D, 0xC8A024C0, 0x21595773, 0xB2CDFF4A⟩ 14) =
    some (⟨0x9ED4AE1D, 0xC8A024C0, 0xC1F999BB, 0xB2CDFF4A⟩, 15) := by decide +kernel

theorem test_step15 :
    coreAfter .step15 (coreState countingBlock ⟨0x9ED4AE1D, 0xC8A024C0, 0xC1F999BB, 0xB2CDFF4A⟩ 15) =
    some (⟨0x9ED4AE1D, 0x08553561, 0xC1F999BB, 0xB2CDFF4A⟩, 16) := by decide +kernel

theorem test_step16 :
    coreAfter .step16 (coreState countingBlock ⟨0x9ED4AE1D, 0x08553561, 0xC1F999BB, 0xB2CDFF4A⟩ 16) =
    some (⟨0xE9B7310B, 0x08553561, 0xC1F999BB, 0xB2CDFF4A⟩, 17) := by decide +kernel

theorem test_step17 :
    coreAfter .step17 (coreState countingBlock ⟨0xE9B7310B, 0x08553561, 0xC1F999BB, 0xB2CDFF4A⟩ 17) =
    some (⟨0xE9B7310B, 0x08553561, 0xC1F999BB, 0x4AF763DD⟩, 18) := by decide +kernel

theorem test_step18 :
    coreAfter .step18 (coreState countingBlock ⟨0xE9B7310B, 0x08553561, 0xC1F999BB, 0x4AF763DD⟩ 18) =
    some (⟨0xE9B7310B, 0x08553561, 0x2ACB7B11, 0x4AF763DD⟩, 19) := by decide +kernel

theorem test_step19 :
    coreAfter .step19 (coreState countingBlock ⟨0xE9B7310B, 0x08553561, 0x2ACB7B11, 0x4AF763DD⟩ 19) =
    some (⟨0xE9B7310B, 0x2A686020, 0x2ACB7B11, 0x4AF763DD⟩, 20) := by decide +kernel

theorem test_step20 :
    coreAfter .step20 (coreState countingBlock ⟨0xE9B7310B, 0x2A686020, 0x2ACB7B11, 0x4AF763DD⟩ 20) =
    some (⟨0xB15895CB, 0x2A686020, 0x2ACB7B11, 0x4AF763DD⟩, 21) := by decide +kernel

theorem test_step21 :
    coreAfter .step21 (coreState countingBlock ⟨0xB15895CB, 0x2A686020, 0x2ACB7B11, 0x4AF763DD⟩ 21) =
    some (⟨0xB15895CB, 0x2A686020, 0x2ACB7B11, 0xDB0C717C⟩, 22) := by decide +kernel

theorem test_step22 :
    coreAfter .step22 (coreState countingBlock ⟨0xB15895CB, 0x2A686020, 0x2ACB7B11, 0xDB0C717C⟩ 22) =
    some (⟨0xB15895CB, 0x2A686020, 0x79166CCF, 0xDB0C717C⟩, 23) := by decide +kernel

theorem test_step23 :
    coreAfter .step23 (coreState countingBlock ⟨0xB15895CB, 0x2A686020, 0x79166CCF, 0xDB0C717C⟩ 23) =
    some (⟨0xB15895CB, 0xB09796A7, 0x79166CCF, 0xDB0C717C⟩, 24) := by decide +kernel

theorem test_step24 :
    coreAfter .step24 (coreState countingBlock ⟨0xB15895CB, 0xB09796A7, 0x79166CCF, 0xDB0C717C⟩ 24) =
    some (⟨0x7FDC6AD8, 0xB09796A7, 0x79166CCF, 0xDB0C717C⟩, 25) := by decide +kernel

theorem test_step25 :
    coreAfter .step25 (coreState countingBlock ⟨0x7FDC6AD8, 0xB09796A7, 0x79166CCF, 0xDB0C717C⟩ 25) =
    some (⟨0x7FDC6AD8, 0xB09796A7, 0x79166CCF, 0x47EE5F99⟩, 26) := by decide +kernel

theorem test_step26 :
    coreAfter .step26 (coreState countingBlock ⟨0x7FDC6AD8, 0xB09796A7, 0x79166CCF, 0x47EE5F99⟩ 26) =
    some (⟨0x7FDC6AD8, 0xB09796A7, 0x42DC52ED, 0x47EE5F99⟩, 27) := by decide +kernel

theorem test_step27 :
    coreAfter .step27 (coreState countingBlock ⟨0x7FDC6AD8, 0xB09796A7, 0x42DC52ED, 0x47EE5F99⟩ 27) =
    some (⟨0x7FDC6AD8, 0x148A31C6, 0x42DC52ED, 0x47EE5F99⟩, 28) := by decide +kernel

theorem test_step28 :
    coreAfter .step28 (coreState countingBlock ⟨0x7FDC6AD8, 0x148A31C6, 0x42DC52ED, 0x47EE5F99⟩ 28) =
    some (⟨0x81DA2A51, 0x148A31C6, 0x42DC52ED, 0x47EE5F99⟩, 29) := by decide +kernel

theorem test_step29 :
    coreAfter .step29 (coreState countingBlock ⟨0x81DA2A51, 0x148A31C6, 0x42DC52ED, 0x47EE5F99⟩ 29) =
    some (⟨0x81DA2A51, 0x148A31C6, 0x42DC52ED, 0x4D252278⟩, 30) := by decide +kernel

theorem test_step30 :
    coreAfter .step30 (coreState countingBlock ⟨0x81DA2A51, 0x148A31C6, 0x42DC52ED, 0x4D252278⟩ 30) =
    some (⟨0x81DA2A51, 0x148A31C6, 0x2E3805A4, 0x4D252278⟩, 31) := by decide +kernel

theorem test_step31 :
    coreAfter .step31 (coreState countingBlock ⟨0x81DA2A51, 0x148A31C6, 0x2E3805A4, 0x4D252278⟩ 31) =
    some (⟨0x81DA2A51, 0x61617770, 0x2E3805A4, 0x4D252278⟩, 32) := by decide +kernel

theorem test_step32 :
    coreAfter .step32 (coreState countingBlock ⟨0x81DA2A51, 0x61617770, 0x2E3805A4, 0x4D252278⟩ 32) =
    some (⟨0xB1933CF7, 0x61617770, 0x2E3805A4, 0x4D252278⟩, 33) := by decide +kernel

theorem test_step33 :
    coreAfter .step33 (coreState countingBlock ⟨0xB1933CF7, 0x61617770, 0x2E3805A4, 0x4D252278⟩ 33) =
    some (⟨0xB1933CF7, 0x61617770, 0x2E3805A4, 0xD6FAB9BB⟩, 34) := by decide +kernel

theorem test_step34 :
    coreAfter .step34 (coreState countingBlock ⟨0xB1933CF7, 0x61617770, 0x2E3805A4, 0xD6FAB9BB⟩ 34) =
    some (⟨0xB1933CF7, 0x61617770, 0x67A48DB1, 0xD6FAB9BB⟩, 35) := by decide +kernel

theorem test_step35 :
    coreAfter .step35 (coreState countingBlock ⟨0xB1933CF7, 0x61617770, 0x67A48DB1, 0xD6FAB9BB⟩ 35) =
    some (⟨0xB1933CF7, 0x4E9F021D, 0x67A48DB1, 0xD6FAB9BB⟩, 36) := by decide +kernel

theorem test_step36 :
    coreAfter .step36 (coreState countingBlock ⟨0xB1933CF7, 0x4E9F021D, 0x67A48DB1, 0xD6FAB9BB⟩ 36) =
    some (⟨0x59C33DB9, 0x4E9F021D, 0x67A48DB1, 0xD6FAB9BB⟩, 37) := by decide +kernel

theorem test_step37 :
    coreAfter .step37 (coreState countingBlock ⟨0x59C33DB9, 0x4E9F021D, 0x67A48DB1, 0xD6FAB9BB⟩ 37) =
    some (⟨0x59C33DB9, 0x4E9F021D, 0x67A48DB1, 0xEF0133C3⟩, 38) := by decide +kernel

theorem test_step38 :
    coreAfter .step38 (coreState countingBlock ⟨0x59C33DB9, 0x4E9F021D, 0x67A48DB1, 0xEF0133C3⟩ 38) =
    some (⟨0x59C33DB9, 0x4E9F021D, 0xACF68F4F, 0xEF0133C3⟩, 39) := by decide +kernel

theorem test_step39 :
    coreAfter .step39 (coreState countingBlock ⟨0x59C33DB9, 0x4E9F021D, 0xACF68F4F, 0xEF0133C3⟩ 39) =
    some (⟨0x59C33DB9, 0xD4158973, 0xACF68F4F, 0xEF0133C3⟩, 40) := by decide +kernel

theorem test_step40 :
    coreAfter .step40 (coreState countingBlock ⟨0x59C33DB9, 0xD4158973, 0xACF68F4F, 0xEF0133C3⟩ 40) =
    some (⟨0x3C2B22EB, 0xD4158973, 0xACF68F4F, 0xEF0133C3⟩, 41) := by decide +kernel

theorem test_step41 :
    coreAfter .step41 (coreState countingBlock ⟨0x3C2B22EB, 0xD4158973, 0xACF68F4F, 0xEF0133C3⟩ 41) =
    some (⟨0x3C2B22EB, 0xD4158973, 0xACF68F4F, 0x92D2BF93⟩, 42) := by decide +kernel

theorem test_step42 :
    coreAfter .step42 (coreState countingBlock ⟨0x3C2B22EB, 0xD4158973, 0xACF68F4F, 0x92D2BF93⟩ 42) =
    some (⟨0x3C2B22EB, 0xD4158973, 0x95207D6E, 0x92D2BF93⟩, 43) := by decide +kernel

theorem test_step43 :
    coreAfter .step43 (coreState countingBlock ⟨0x3C2B22EB, 0xD4158973, 0x95207D6E, 0x92D2BF93⟩ 43) =
    some (⟨0x3C2B22EB, 0xC52F5AFF, 0x95207D6E, 0x92D2BF93⟩, 44) := by decide +kernel

theorem test_step44 :
    coreAfter .step44 (coreState countingBlock ⟨0x3C2B22EB, 0xC52F5AFF, 0x95207D6E, 0x92D2BF93⟩ 44) =
    some (⟨0xE7859CD3, 0xC52F5AFF, 0x95207D6E, 0x92D2BF93⟩, 45) := by decide +kernel

theorem test_step45 :
    coreAfter .step45 (coreState countingBlock ⟨0xE7859CD3, 0xC52F5AFF, 0x95207D6E, 0x92D2BF93⟩ 45) =
    some (⟨0xE7859CD3, 0xC52F5AFF, 0x95207D6E, 0xCB2745D0⟩, 46) := by decide +kernel

theorem test_step46 :
    coreAfter .step46 (coreState countingBlock ⟨0xE7859CD3, 0xC52F5AFF, 0x95207D6E, 0xCB2745D0⟩ 46) =
    some (⟨0xE7859CD3, 0xC52F5AFF, 0x30513865, 0xCB2745D0⟩, 47) := by decide +kernel

theorem test_step47 :
    coreAfter .step47 (coreState countingBlock ⟨0xE7859CD3, 0xC52F5AFF, 0x30513865, 0xCB2745D0⟩ 47) =
    some (⟨0xE7859CD3, 0xB2A1481D, 0x30513865, 0xCB2745D0⟩, 48) := by decide +kernel

/-- 95_test_vectors.md section 2.3. -/
theorem test_step0_wraps :
    coreAfter .step0 (coreState onesBlock ⟨0xFFFFFFFF, 0xFFFFFFFF, 0xFFFFFFFF, 0xFFFFFFFF⟩ 0) =
    some (⟨0xFFFFFFEF, 0xFFFFFFFF, 0xFFFFFFFF, 0xFFFFFFFF⟩, 1) := by decide +kernel

theorem test_step16_wraps :
    coreAfter .step16 (coreState onesBlock ⟨0xFFFFFFFF, 0xFFFFFFFF, 0xFFFFFFFF, 0xFFFFFFFF⟩ 16) =
    some (⟨0xD413CCB2, 0xFFFFFFFF, 0xFFFFFFFF, 0xFFFFFFFF⟩, 17) := by decide +kernel

theorem test_step32_wraps :
    coreAfter .step32 (coreState onesBlock ⟨0xFFFFFFFF, 0xFFFFFFFF, 0xFFFFFFFF, 0xFFFFFFFF⟩ 32) =
    some (⟨0x76CF5CF3, 0xFFFFFFFF, 0xFFFFFFFF, 0xFFFFFFFF⟩, 33) := by decide +kernel

/-- R74: the host cannot issue a step. -/
theorem test_step_outside_compress : coreAfter .step0 State.reset = none := by decide +kernel

/-- 95_test_vectors.md section 2.4: the feed-forward after step 47. -/
theorem test_compress_end :
    (nextOf (step { coreState countingBlock ⟨0xE7859CD3, 0xB2A1481D, 0x30513865, 0xCB2745D0⟩ 48 with dc := [{ DigestCtx.reset with h := initialWords, buf := countingBlock }] })).map
      (fun t => (t.dc.map (fun c => (c.h, c.fill)), t.job)) =
    some ([(⟨0x4ECABFD4, 0xA26EF3A6, 0xC90C1563, 0xDB599A46⟩, 0)], none) := by decide +kernel

/-! ### `COMPRESS` (95_test_vectors.md section 2.4) -/

theorem test_compress_zero :
    compress ⟨0, 0, 0, 0⟩ [] = ⟨0x33C84836, 0xC19152D1, 0xE762D9DF, 0xA20027BD⟩ := by decide +kernel

theorem test_compress_ones :
    compress ⟨0xFFFFFFFF, 0xFFFFFFFF, 0xFFFFFFFF, 0xFFFFFFFF⟩ onesBlock = ⟨0x11E8CE1B, 0x510ECD5A, 0x304BDEEE, 0x63F79F0A⟩ := by decide +kernel

theorem test_compress_chained :
    compress ⟨0x4ECABFD4, 0xA26EF3A6, 0xC90C1563, 0xDB599A46⟩ countingBlock =
    ⟨0xD01BA1B5, 0xBDFB392E, 0x20BF4E0C, 0xBC2D71D8⟩ := by decide +kernel

/-! ### `INIT`, `UPDATE`, `FINISH` (95_test_vectors.md section 4) -/

/-- The example of R161; BUF is not written. -/
theorem test_init :
    (nextOf (exec (.init 0) (withDigest { buffered [0x61] with phase := .terminal }))).map (fun t => (t.dc[0]?, t.responses)) =
    some (some { DigestCtx.reset with h := initialWords, buf := storeOf [0x61], phase := .active }, [status 0x00]) := by decide +kernel

/-- The example of R162. -/
theorem test_update :
    (nextOf (exec (.update 0 [0x61, 0x62, 0x63]) (withDigest (buffered [])))).map (fun t => t.dc[0]?) =
    some (some (buffered [0x61, 0x62, 0x63])) := by decide +kernel

/-- 95_test_vectors.md section 4.2: the context after 100 bytes. -/
theorem test_update_block :
    (nextOf (exec (.update 0 (upTo 100)) (withDigest (buffered [])))).map
      (fun t => t.dc[0]?.map fun c => (c.h, (c.lo, c.hi, c.fill), c.buf.readBytes 0 36)) =
    some (some (⟨0x4ECABFD4, 0xA26EF3A6, 0xC90C1563, 0xDB599A46⟩, (100, 0, 36), (upTo 100).drop 64)) := by decide +kernel

/-- 95_test_vectors.md section 4.3. -/
theorem test_counter :
    ([(0xFFFFFFFF, 0, 1), (0xFFFFFFC0, 0, 0x40), (0x80000000, 5, 0x80000000), (0, 0, 0xFFFFFFFF), (1, 0, 0xFFFFFFFF),
        (0xFFFFFFFF, 0xFFFFFFFF, 1), (0x12345678, 7, 0)] : List (Word × Word × Word)).map
      (fun v => let c := addLength { DigestCtx.reset with lo := v.1, hi := v.2.1 } v.2.2; (c.lo, c.hi)) =
    [(0, 1), (0, 1), (0, 6), (0xFFFFFFFF, 0), (0, 1), (0, 0), (0x12345678, 7)] := by decide

/-- 95_test_vectors.md section 4.4. -/
theorem test_bit_length :
    ([(3, 0), (0x1FFFFFFF, 0), (0x20000000, 0), (0x20000003, 1), (0x80000000, 0x1FFFFFFF), (0, 0x20000000),
        (0xFFFFFFFF, 0xFFFFFFFF)] : List (Word × Word)).map
      (fun v => let c := { DigestCtx.reset with lo := v.1, hi := v.2 }; (bitLengthLo c, bitLengthHi c)) =
    [(0x18, 0), (0xFFFFFFF8, 0), (0, 1), (0x18, 9), (0, 0xFFFFFFFC), (0, 0), (0xFFFFFFF8, 0xFFFFFFFF)] := by decide

/-- S3 of 95_test_vectors.md section 1.1. -/
theorem test_finish :
    (nextOf (exec (.finish 0) (withDigest (buffered [0x61, 0x62, 0x63])))).map (fun t => (t.responses, t.dc[0]?.map fun c => (c.fill, c.phase, c.lo))) =
    some ([[0x00, 0x00, 0x00, 0x00, 0xa4, 0x48, 0x01, 0x7a, 0xaf, 0x21, 0xd8, 0x52, 0x5f, 0xc1, 0x0a, 0xe8, 0x7a, 0xa6, 0x72, 0x9d]],
      some (0, .terminal, 3)) := by decide +kernel

/-- 95_test_vectors.md section 4.4: the constructed context. -/
theorem test_finish_counter_high_word :
    (nextOf (exec (.finish 0) (withDigest { buffered [0x61, 0x62, 0x63] with lo := 0x20000003, hi := 1 }))).map (fun t => t.responses) =
    some [status 0x00 ++ [0x71, 0x84, 0xa5, 0x06, 0x0e, 0xee, 0x1e, 0xec, 0xcd, 0x77, 0x15, 0xc7, 0x80, 0x92, 0xb0, 0xed]] := by decide +kernel

/-- 95_test_vectors.md section 4.1: the lengths the source requires. -/
theorem test_padding_boundary :
    ([55, 56, 63, 64, 65] : List Nat).map (fun n => md4 (rep 0x61 n)) =
    [[0xc8, 0x89, 0xc8, 0x1d, 0xd8, 0x6c, 0x4d, 0x2e, 0x02, 0x57, 0x78, 0x94, 0x4e, 0xa0, 0x28, 0x81],
      [0xd5, 0xf9, 0xa9, 0xe9, 0x25, 0x70, 0x77, 0xa5, 0xf0, 0x8b, 0x0b, 0x92, 0xf3, 0x48, 0xb0, 0xad],
      [0x7e, 0xa3, 0xda, 0x77, 0x43, 0x2d, 0x44, 0xc3, 0x23, 0x67, 0x10, 0x97, 0xd1, 0x34, 0x8f, 0xc8],
      [0x52, 0xf5, 0x07, 0x6f, 0xab, 0xd2, 0x26, 0x80, 0x23, 0x4a, 0x3f, 0xa9, 0xf9, 0xdc, 0x57, 0x32],
      [0x33, 0x0e, 0x37, 0x7b, 0xf2, 0x31, 0xf3, 0xca, 0xcf, 0xec, 0xc2, 0xc1, 0x82, 0xfe, 0x7e, 0x5b]] := by decide +kernel

/-! ### `DIGEST` (95_test_vectors.md sections 1.1, 3, 5.1) -/

/-- S4. -/
theorem test_digest_message_digest :
    md4 [0x6d, 0x65, 0x73, 0x73, 0x61, 0x67, 0x65, 0x20, 0x64, 0x69, 0x67, 0x65, 0x73, 0x74] = [0xd9, 0x13, 0x0a, 0x81, 0x64, 0x54, 0x9f, 0xe8, 0x18, 0x87, 0x48, 0x06, 0xe1, 0xc7, 0x01, 0x4b] := by decide +kernel

/-- 95_test_vectors.md section 5.1. -/
theorem test_digest_touches_no_slot :
    (nextOf (exec (.digest [0x78, 0x79, 0x7a]) (withDigest (buffered [0x61, 0x62])))).map (fun t => (t.dc, t.hc)) =
    some ((withDigest (buffered [0x61, 0x62])).dc, State.reset.hc) := by decide +kernel

/-! ### HMAC (95_test_vectors.md section 5.2) -/

/-- H1. -/
theorem test_hmac_init :
    (nextOf (exec (.hmacInit 0 [0x4a, 0x65, 0x66, 0x65]) State.reset)).map
      (fun t => t.hc[0]?.map fun h => (h.inner.h, (h.inner.lo, h.inner.fill), h.inner.phase, h.opad.readBytes 0 64)) =
    some (some (⟨0x8FAB46C9, 0x1D26FFE2, 0x048B316D, 0x8A73A2BD⟩, (64, 0), .active, [0x16, 0x39, 0x3a, 0x39] ++ rep 0x5c 60)) := by decide +kernel

/-- H1, the example of R187. -/
theorem test_hmac_update :
    (nextOf (exec (.hmacUpdate 0 [0x77, 0x68, 0x61, 0x74, 0x20, 0x64, 0x6f, 0x20, 0x79, 0x61, 0x20, 0x77, 0x61, 0x6e, 0x74, 0x20,
        0x66, 0x6f, 0x72, 0x20, 0x6e, 0x6f, 0x74, 0x68, 0x69, 0x6e, 0x67, 0x3f])
      (withHmac (hmacInitOp HmacCtx.reset [0x4a, 0x65, 0x66, 0x65])))).map (fun t => t.hc[0]?.map fun h => (h.inner.h, h.inner.lo, h.inner.fill)) =
    some (some (⟨0x8FAB46C9, 0x1D26FFE2, 0x048B316D, 0x8A73A2BD⟩, 92, 28)) := by decide +kernel

/-- H11. -/
theorem test_hmac_finish :
    (nextOf (exec (.hmacFinish 0) (withHmac (hmacUpdateOp (hmacInitOp HmacCtx.reset [0x6b, 0x65, 0x79]) (rep 0x61 56))))).map
      (fun t => (t.responses, t.hc[0]?.map fun h => (digestOf h.inner, h.inner.phase, h.outer.lo, h.outer.phase))) =
    some ([status 0x00 ++ [0xce, 0x55, 0x7e, 0xc7, 0x25, 0xdd, 0xde, 0xaf, 0x3e, 0x18, 0xb4, 0x73, 0xa4, 0xe9, 0x9d, 0x27]],
      some ([0x69, 0xbb, 0x17, 0xb8, 0x80, 0xed, 0xe0, 0xf0, 0x3b, 0xb4, 0xda, 0xf1, 0x54, 0x17, 0x52, 0x76], .terminal, 80, .terminal)) := by decide +kernel

/-- H5: a folded key. -/
theorem test_hmac_long_key :
    (nextOf (exec (.hmac (rep 0xaa 80) [0x54, 0x65, 0x73, 0x74, 0x20, 0x55, 0x73, 0x69, 0x6e, 0x67, 0x20, 0x4c, 0x61, 0x72, 0x67, 0x65,
        0x72, 0x20, 0x54, 0x68, 0x61, 0x6e, 0x20, 0x42, 0x6c, 0x6f, 0x63, 0x6b, 0x2d, 0x53, 0x69, 0x7a,
        0x65, 0x20, 0x4b, 0x65, 0x79, 0x20, 0x2d, 0x20, 0x48, 0x61, 0x73, 0x68, 0x20, 0x4b, 0x65, 0x79,
        0x20, 0x46, 0x69, 0x72, 0x73, 0x74])
      State.reset)).map (fun t => t.responses) = some [status 0x00 ++ [0x54, 0x5b, 0x8f, 0x25, 0x77, 0x65, 0x70, 0x42, 0xdf, 0x62, 0x8f, 0xbb, 0x98, 0x43, 0x0d, 0x5f]] := by decide +kernel

/-- H6 and H7: 64 bytes are used as they are, 65 are folded. -/
theorem test_hmac_key_boundary :
    (hmacMd4 (upTo 64) [], hmacMd4 (upTo 65) []) =
    ([0xc3, 0x18, 0x7b, 0x70, 0x59, 0x4c, 0x01, 0x8f, 0x76, 0x69, 0x50, 0x1c, 0x40, 0xd8, 0x0a, 0xfb],
      [0x77, 0x1a, 0x1b, 0x0e, 0xb7, 0x39, 0xbf, 0xac, 0x40, 0xd5, 0xef, 0x64, 0x6d, 0x4a, 0x41, 0x49]) := by decide +kernel

/-! ### Witnesses: for each obligation with hypotheses, states and operands that meet them all -/

/-- The reset state with one packet sent. -/
def waiting (p : List Byte) : State := { State.reset with inputs := [.packet p] }

/-- Byte strings that meet the length hypotheses `d.length < 2 ^ 32`: one empty, one short, one of more than two blocks. -/
theorem witness_lengths : ∀ d ∈ [[], [0x61, 0x62, 0x63], rep 0xff 129], List.length d < 2 ^ 32 := by decide +kernel

theorem witness_DecodeOfEncodeIsTheInstruction :
    [Instr.init 1, .update 1 [0x61], .finish 0, .digest [], .hmacInit 0 [0x6b], .hmacUpdate 0 [0x61], .hmacFinish 0,
      .hmac [0x6b] [0x61], .step0, .step47].map (Instr.wf Config.testInstance) = List.replicate 10 true := by decide +kernel

theorem witness_EncodeOfDecodedIsThePacket :
    decodePacket Config.testInstance [0x16, 0x00, 0x00, 0x00, 0x01, 0x00, 0x00, 0x00, 0x61] = .error .ctxIndex ∧
    decodePacket Config.testInstance [0x06, 0x00, 0x00, 0x00, 0x01, 0x00, 0x00, 0x00, 0x61] = .ok (.hmacUpdate 0 [0x61]) := by
  decide +kernel

/-- Clause 1: three bytes. Clause 2: `OP` 0, 9 and 15. Clause 3: each reserved byte, with `OP` 1 and 8. -/
theorem witness_DecodingFollowsTheProcedure_header :
    ([0x01, 0x00, 0x00] : List Byte).length < 4 ∧
    (∀ p ∈ ([[0x00, 0x00, 0x00, 0x00], [0xf9, 0x00, 0x00, 0x00], [0x0f, 0x01, 0x00, 0x00, 0x00]] : List (List Byte)),
      4 ≤ p.length ∧ ((p.getD 0 0).toNat % 16 = 0 ∨ 9 ≤ (p.getD 0 0).toNat % 16)) ∧
    (∀ p ∈ ([[0x01, 0x01, 0x00, 0x00], [0x08, 0x00, 0x01, 0x00], [0xf8, 0x00, 0x00, 0x80]] : List (List Byte)),
      4 ≤ p.length ∧ 1 ≤ (p.getD 0 0).toNat % 16 ∧ (p.getD 0 0).toNat % 16 ≤ 8 ∧
        ¬(p.getD 1 0 = 0 ∧ p.getD 2 0 = 0 ∧ p.getD 3 0 = 0)) := by decide +kernel

/-- Clause 4: `DIGEST` and `HMAC` with `CTX` 1 and 15. Clauses 5 and 6: the first absent Digest slot and HMAC slot of the test
instance, and `CTX` 15. -/
theorem witness_DecodingFollowsTheProcedure_slot :
    (∀ p ∈ ([[0x14, 0x00, 0x00, 0x00], [0xf8, 0x00, 0x00, 0x00]] : List (List Byte)),
      ((p.getD 0 0).toNat % 16 = 4 ∨ (p.getD 0 0).toNat % 16 = 8) ∧ (p.getD 0 0).toNat / 16 ≠ 0) ∧
    (∀ p ∈ ([[0x21, 0x00, 0x00, 0x00], [0xf3, 0x00, 0x00, 0x00]] : List (List Byte)),
      ((p.getD 0 0).toNat % 16 = 1 ∨ (p.getD 0 0).toNat % 16 = 2 ∨ (p.getD 0 0).toNat % 16 = 3) ∧
        Config.testInstance.nDctx ≤ (p.getD 0 0).toNat / 16) ∧
    (∀ p ∈ ([[0x15, 0x00, 0x00, 0x00], [0xf7, 0x00, 0x00, 0x00]] : List (List Byte)),
      ((p.getD 0 0).toNat % 16 = 5 ∨ (p.getD 0 0).toNat % 16 = 6 ∨ (p.getD 0 0).toNat % 16 = 7) ∧
        Config.testInstance.nHctx ≤ (p.getD 0 0).toNat / 16) := by decide +kernel

/-- Clause 7: a slot that is named and a body that is not well framed, one byte too long or too short in each format. -/
theorem witness_DecodingFollowsTheProcedure_framing :
    (SlotNamed Config.testInstance 1 1 ∧ ¬WellFramed 1 [0x11, 0x00, 0x00, 0x00, 0x00]) ∧
    (SlotNamed Config.testInstance 2 1 ∧ ¬WellFramed 2 [0x12, 0x00, 0x00, 0x00, 0x00, 0x00, 0x00]) ∧
    (SlotNamed Config.testInstance 5 0 ∧ ¬WellFramed 5 [0x05, 0x00, 0x00, 0x00, 0x02, 0x00, 0x00, 0x00, 0x61]) ∧
    (SlotNamed Config.testInstance 8 0 ∧
      ¬WellFramed 8 [0x08, 0x00, 0x00, 0x00, 0xff, 0xff, 0xff, 0xff, 0x01, 0x00, 0x00, 0x00]) := by
  simp [SlotNamed, WellFramed, numberAt, Config.testInstance]

/-- Clause 8: a slot that is named and a well framed body, in each format. -/
theorem witness_DecodingFollowsTheProcedure_framed :
    (SlotNamed Config.testInstance 3 1 ∧ WellFramed 3 [0x13, 0x00, 0x00, 0x00]) ∧
    (SlotNamed Config.testInstance 7 0 ∧ WellFramed 7 [0x07, 0x00, 0x00, 0x00]) ∧
    (SlotNamed Config.testInstance 4 0 ∧ WellFramed 4 [0x04, 0x00, 0x00, 0x00, 0x00, 0x00, 0x00, 0x00]) ∧
    (SlotNamed Config.testInstance 8 0 ∧
      WellFramed 8 [0x08, 0x00, 0x00, 0x00, 0x01, 0x00, 0x00, 0x00, 0x01, 0x00, 0x00, 0x00, 0x6b, 0x61]) := by
  simp [SlotNamed, WellFramed, numberAt, Config.testInstance]

theorem witness_StepIndexSelectsItsStep :
    decodeStep 47 = some .step47 ∧ decodeStep 48 = none ∧ decodeStep 63 = none := by decide

/-- Both ends of the bit positions and of the rotation amounts. -/
theorem witness_RoundFunctionsBitByBit : (0 : Nat) < 32 ∧ (31 : Nat) < 32 := by decide

theorem witness_RotationMovesEveryBit :
    ∀ si ∈ ([(1, 0), (1, 31), (31, 0), (31, 31)] : List (Nat × Nat)), 1 ≤ si.1 ∧ si.1 ≤ 31 ∧ si.2 < 32 := by decide

/-- A `COMPRESS` in progress for a context of the engine: the hypotheses of the four step statements. -/
theorem witness_StepsRun :
    (coreState countingBlock initialWords 0).job = some (.digest 0) ∧
    (coreState countingBlock initialWords 0).ctxAt (.digest 0) =
      some { DigestCtx.reset with buf := countingBlock, phase := .active } := by decide +kernel

/-- The same inside a `COMPRESS` for each context of an HMAC slot. -/
theorem witness_StepsRun_hmac :
    ∀ r ∈ [CtxRef.inner 0, .outer 0],
      { withHmac HmacCtx.reset with job := some r }.job = some r ∧
      { withHmac HmacCtx.reset with job := some r }.ctxAt r = some DigestCtx.reset := by decide +kernel

theorem witness_StepsRunOnlyInsideACompress : decodeStep 0 = some .step0 ∧ State.reset.job = none := by decide

theorem witness_EveryStepIsTheStepFormula :
    decodeStep 47 = some .step47 ∧ (coreState onesBlock initialWords 47).job = some (.digest 0) ∧
    (coreState onesBlock initialWords 47).ctxAt (.digest 0) =
      some { DigestCtx.reset with buf := onesBlock, phase := .active } := by decide +kernel

theorem witness_RoleRotationEqualsStepFormula : (0 : Nat) ≤ 48 ∧ (48 : Nat) ≤ 48 := by decide

theorem witness_StepMachineRunsCompress :
    pendingReset State.reset.inputs = none ∧
    ∀ r ∈ [CtxRef.digest 1, .inner 0, .outer 0], State.reset.ctxAt r = some DigestCtx.reset := by decide

/-- Two stores that differ, and agree on the bytes 0 to 63. -/
theorem witness_CompressReadsOnlyItsArguments :
    [(64, 0x01)] ≠ ([] : Memory) ∧ ∀ a, a < 64 → Memory.read [(64, 0x01)] a = Memory.read [] a := by decide +kernel

theorem witness_CanonicalStoresWithEqualBytesAreEqual :
    ((63 : Nat) < 64 ∧ Memory.wf onesBlock ∧ Memory.wf []) ∧
    Memory.wf countingBlock ∧ Memory.wf (Memory.write countingBlock 63 0x3f) ∧
    ∀ a, a < 64 → Memory.read countingBlock a = Memory.read (Memory.write countingBlock 63 0x3f) a := by decide +kernel

theorem witness_DigestBytesAreLittleEndian : (0 : Nat) < 4 ∧ (3 : Nat) < 4 := by decide

/-- Both clauses on `FILL`: below 63 and at 63. -/
theorem witness_AbsorbStoresAndCompressesAtSixtyFour :
    (buffered (upTo 62)).fill.toNat < 63 ∧ (buffered (upTo 63)).fill.toNat = 63 := by decide +kernel

theorem witness_InitCompletes :
    State.reset.dc[(1 : BitVec 4).toNat]? = some DigestCtx.reset ∧
    (withDigest (buffered [0x61])).dc[(0 : BitVec 4).toNat]? = some (buffered [0x61]) := by decide +kernel

/-- The active clause at `FILL` 62, whose block two bytes complete and one does not; then the other clause. -/
theorem witness_UpdateCompletes :
    (withDigest (buffered (upTo 62))).dc[(0 : BitVec 4).toNat]? = some (buffered (upTo 62)) ∧
    (buffered (upTo 62)).phase = .active ∧ (withDigest (buffered (upTo 62))).job = none ∧
    (buffered (upTo 62)).fill.toNat + [(0x61 : Byte)].length < 64 ∧
    ¬(buffered (upTo 62)).fill.toNat + [(0x61 : Byte), 0x62].length < 64 ∧
    State.reset.dc[(1 : BitVec 4).toNat]? = some DigestCtx.reset ∧ DigestCtx.reset.phase ≠ .active := by decide +kernel

/-- The active clause at `FILL` 55 and 56 (one block, two blocks), then a terminal slot. -/
theorem witness_FinishCompletes :
    (∀ m ∈ [upTo 55, upTo 56], (withDigest (buffered m)).dc[(0 : BitVec 4).toNat]? = some (buffered m) ∧
      (buffered m).phase = .active ∧ (withDigest (buffered m)).job = none) ∧
    (withDigest { buffered [] with phase := .terminal }).dc[(0 : BitVec 4).toNat]? =
      some { buffered [] with phase := .terminal } := by decide +kernel

theorem witness_ChunkingInvariance : (rep 0x61 63).length + (rep 0x62 2).length < 2 ^ 32 := by decide +kernel

/-- A context that holds a message of 63 bytes, and one that holds a message of a whole block. -/
theorem witness_ContextHoldsItsMessage :
    (buffered (upTo 63)).Holds (upTo 63) ∧ (absorb (addLength (buffered (upTo 63)) 1) 0x3f).Holds (upTo 64) := by decide +kernel

theorem witness_StreamingDigestIsMd4 :
    (1 : BitVec 4).toNat < State.reset.dc.length ∧ ∀ d ∈ [upTo 64, [], [0x61]], d.length < 2 ^ 32 := by decide +kernel

/-- An `UPDATE` of the slot, one of the other slot, `DIGEST`, a packet that fails, an empty packet and an `UPDATE` of the slot;
the message is `a` then `b`. -/
theorem witness_DigestDependsOnlyOnTheMessage :
    let ps : List (List Byte) :=
      [[0x02, 0x00, 0x00, 0x00, 0x01, 0x00, 0x00, 0x00, 0x61], [0x12, 0x00, 0x00, 0x00, 0x01, 0x00, 0x00, 0x00, 0x7a],
        [0x04, 0x00, 0x00, 0x00, 0x00, 0x00, 0x00, 0x00], [0x23, 0x00, 0x00, 0x00], [],
        [0x02, 0x00, 0x00, 0x00, 0x01, 0x00, 0x00, 0x00, 0x62]]
    State.reset.job = none ∧ (0 : BitVec 4).toNat < State.reset.dc.length ∧
    (∀ p ∈ ps, decodePacket State.reset.config p ≠ .ok (.init 0) ∧ decodePacket State.reset.config p ≠ .ok (.finish 0)) ∧
    messageTo State.reset.config 0 ps = [0x61, 0x62] := by decide +kernel

theorem witness_DigestLifecycle :
    (withDigest (buffered [])).dc[(0 : BitVec 4).toNat]? = some (buffered []) ∧ (buffered []).phase = .active ∧
    State.reset.dc[(0 : BitVec 4).toNat]? = some DigestCtx.reset ∧ DigestCtx.reset.phase ≠ .active := by decide +kernel

/-- An inactive slot of each kind; and `INIT` of an absent slot answers a next state, with another response. -/
theorem witness_InactiveSlotRaisesCtxState :
    State.reset.dc[(1 : BitVec 4).toNat]? = some DigestCtx.reset ∧ DigestCtx.reset.phase ≠ .active ∧
    State.reset.hc[(0 : BitVec 4).toNat]? = some HmacCtx.reset ∧ HmacCtx.reset.inner.phase ≠ .active ∧
    nextOf (exec (.init 2) State.reset) = some (State.reset.raise .ctxIndex) := by decide +kernel

/-- The first slot index that is absent, and the last index. -/
theorem witness_AbsentSlotRaisesCtxIndex :
    State.reset.dc.length = (2 : BitVec 4).toNat ∧ State.reset.hc.length = (1 : BitVec 4).toNat ∧
    State.reset.dc.length ≤ (15 : BitVec 4).toNat ∧ State.reset.hc.length ≤ (15 : BitVec 4).toNat := by decide

theorem witness_DigestCompletes : (upTo 64).length < 2 ^ 32 ∧ State.reset.job = none := by decide +kernel

theorem witness_OneShotEqualsStreaming :
    (0 : BitVec 4).toNat < State.reset.dc.length ∧ [upTo 55, [], [0x61]].flatten.length < 2 ^ 32 := by decide +kernel

/-- Both clauses: keys of 64 and of 65 bytes. -/
theorem witness_EffectiveKeyIsSixtyFourBytes :
    (upTo 64).length ≤ 64 ∧ 64 < (upTo 65).length ∧ (upTo 65).length < 2 ^ 32 := by decide +kernel

theorem witness_HmacInitCompletes :
    State.reset.hc[(0 : BitVec 4).toNat]? = some HmacCtx.reset ∧ (upTo 65).length < 2 ^ 32 ∧ State.reset.job = none := by
  decide +kernel

/-- An active HMAC slot with 62 bytes buffered, whose block is completed by two bytes and not by one; then an inactive slot. -/
theorem witness_HmacUpdateCompletes :
    (withHmac { HmacCtx.reset with inner := buffered (upTo 62) }).hc[(0 : BitVec 4).toNat]? =
      some { HmacCtx.reset with inner := buffered (upTo 62) } ∧
    (buffered (upTo 62)).phase = .active ∧
    (buffered (upTo 62)).fill.toNat + [(0x61 : Byte)].length < 64 ∧
    State.reset.hc[(0 : BitVec 4).toNat]? = some HmacCtx.reset ∧ HmacCtx.reset.inner.phase ≠ .active := by decide +kernel

theorem witness_HmacFinishCompletes :
    (∀ m ∈ [upTo 55, upTo 56], (withHmac { HmacCtx.reset with inner := buffered m }).hc[(0 : BitVec 4).toNat]? =
      some { HmacCtx.reset with inner := buffered m } ∧ (buffered m).phase = .active) ∧
    State.reset.hc[(0 : BitVec 4).toNat]? = some HmacCtx.reset ∧ HmacCtx.reset.inner.phase ≠ .active := by decide +kernel

theorem witness_HmacOneShotCompletes : (upTo 65).length < 2 ^ 32 ∧ (upTo 3).length < 2 ^ 32 := by decide +kernel

/-- A context that holds the empty message under a key of three bytes, one whole block of it taken. -/
theorem witness_HmacContextHoldsItsMessage : (hmacInitOp HmacCtx.reset [0x6b, 0x65, 0x79]).Holds [0x6b, 0x65, 0x79] [] := by
  decide +kernel

theorem witness_HmacStreamingIsHmacMd4 :
    (0 : BitVec 4).toNat < State.reset.hc.length ∧ (upTo 65).length < 2 ^ 32 ∧ ∀ d ∈ [upTo 64, []], d.length < 2 ^ 32 := by
  decide +kernel

theorem witness_KeyFoldingEquivalence : 64 < (upTo 65).length ∧ (upTo 65).length < 2 ^ 32 := by decide +kernel

theorem witness_HmacLifecycle :
    (withHmac { HmacCtx.reset with inner := buffered [] }).hc[(0 : BitVec 4).toNat]? =
      some { HmacCtx.reset with inner := buffered [] } ∧ (buffered []).phase = .active ∧
    State.reset.hc[(0 : BitVec 4).toNat]? = some HmacCtx.reset ∧ HmacCtx.reset.inner.phase ≠ .active := by decide +kernel

/-- A packet waiting at an idle engine; a core at step 20; a core at the end of its `COMPRESS`. -/
theorem witness_StepExecutesTheDecodedInstruction :
    let e := waiting [0x11, 0x00, 0x00, 0x00]
    let s := coreState countingBlock initialWords 20
    let u := coreState countingBlock initialWords 48
    (e.job = none ∧ pendingReset e.inputs = none ∧ e.inputs = [.packet [0x11, 0x00, 0x00, 0x00]] ∧
      decodePacket e.config [0x11, 0x00, 0x00, 0x00] = .ok (.init 1)) ∧
    (s.job = some (.digest 0) ∧ pendingReset s.inputs = none ∧ decodeStep s.t = some .step20) ∧
    (u.job = some (.digest 0) ∧ pendingReset u.inputs = none ∧ u.t = 48 ∧
      u.ctxAt (.digest 0) = some { DigestCtx.reset with buf := countingBlock, phase := .active }) := by decide +kernel

/-- A packet of each failing kind at an idle engine. -/
theorem witness_FailingPacketIsRaised :
    pendingReset [.packet [0x07, 0x00, 0x00, 0x00]] = none ∧ State.reset.job = none ∧
    decodePacket State.reset.config [0x01] = .error .framing ∧
    (decodePacket State.reset.config [0x12, 0x00, 0x00, 0x00, 0x00, 0x00, 0x00, 0x00] = .ok (.update 1 []) ∧
      decodePacket State.reset.config [0x13, 0x00, 0x00, 0x00] = .ok (.finish 1) ∧
      State.reset.dc[(1 : BitVec 4).toNat]? = some DigestCtx.reset ∧ DigestCtx.reset.phase ≠ .active) ∧
    (decodePacket State.reset.config [0x06, 0x00, 0x00, 0x00, 0x00, 0x00, 0x00, 0x00] = .ok (.hmacUpdate 0 []) ∧
      decodePacket State.reset.config [0x07, 0x00, 0x00, 0x00] = .ok (.hmacFinish 0) ∧
      State.reset.hc[(0 : BitVec 4).toNat]? = some HmacCtx.reset ∧ HmacCtx.reset.inner.phase ≠ .active) := by decide +kernel

/-- A core at step 20 with a packet waiting, for the first part; for the second, a step with no reset pending that answers a next state in which a phase has changed. -/
theorem witness_ResetIsTheOnlyWayBack :
    pendingReset { coreState countingBlock initialWords 20 with inputs := [.packet [0x01]] }.inputs = none ∧
    pendingReset (waiting [0x11, 0x00, 0x00, 0x00]).inputs = none ∧
    (nextOf (step (waiting [0x11, 0x00, 0x00, 0x00]))).map (fun t => t.dc.map fun c => c.phase) =
      some [.uninit, .active] := by decide +kernel

theorem witness_ResetStateMeetsTheTable :
    Config.wf { nDctx := 1, nHctx := 1 } ∧ Config.wf { nDctx := 16, nHctx := 16 } ∧ Config.testInstance.wf := by decide

theorem witness_IdleEngineWaits : State.reset.job = none ∧ State.reset.inputs = [] := by decide

/-- The clauses of the four decode errors and of a packet that decodes, each by a packet. -/
theorem witness_EveryPacketGetsItsResponse :
    State.reset.job = none ∧ pendingReset [.packet [], .packet [0x01]] = none ∧
    ([[0x00, 0x00, 0x00, 0x00], [0x01, 0x01, 0x00, 0x00], [0x21, 0x00, 0x00, 0x00], []] : List (List Byte)).map
        (decodePacket State.reset.config) =
      [.error .illegalOp, .error .reserved, .error .ctxIndex, .error .framing] ∧
    decodePacket State.reset.config [0x13, 0x00, 0x00, 0x00] = .ok (.finish 1) ∧ returnsDigest (.finish 1) = true := by
  decide +kernel

/-- A command that answers, and a step that appends no response. -/
theorem witness_FaultFlagChangesNoBehaviour :
    nextOf (exec (.init 2) { State.reset with fault := false }) = some (State.reset.raise .ctxIndex) ∧
    (nextOf (exec .step0 { coreState countingBlock initialWords 0 with fault := false })).map (fun t => t.responses) = some [] := by
  decide +kernel

theorem witness_InstructionsTouchOnlyTheirSlot :
    nextOf (exec (.init 0) State.reset) = some ((State.reset.setDigest 0 (initOp DigestCtx.reset)).respondOk []) ∧
    digestSlotOf (.init 0) ≠ some 1 ∧ hmacSlotOf (.init 0) ≠ some 0 := by decide +kernel

/-- The clauses on the core: an `UPDATE` and an `HMAC_UPDATE` that fill a buffer to 63 bytes answer a next state. -/
theorem witness_InstructionsTouchOnlyTheirSlot_core :
    let s := withDigest (buffered (upTo 62))
    let u := withHmac { HmacCtx.reset with inner := buffered (upTo 62) }
    (s.dc[(0 : BitVec 4).toNat]? = some (buffered (upTo 62)) ∧ (nextOf (exec (.update 0 [0x61]) s)).isSome = true) ∧
    (u.hc[(0 : BitVec 4).toNat]? = some { HmacCtx.reset with inner := buffered (upTo 62) } ∧
      (nextOf (exec (.hmacUpdate 0 [0x61]) u)).isSome = true) ∧
    (buffered (upTo 62)).fill.toNat + [(0x61 : Byte)].length < 64 := by decide +kernel

/-- Two Digest slots; a Digest slot and an HMAC slot of the same index. -/
theorem witness_CommandsOnDifferentSlotsCommute :
    ((digestSlotOf (.update 0 []) ≠ none ∨ hmacSlotOf (.update 0 []) ≠ none) ∧
      (digestSlotOf (.finish 1) ≠ none ∨ hmacSlotOf (.finish 1) ≠ none) ∧
      (digestSlotOf (.update 0 []) ≠ digestSlotOf (.finish 1) ∨ hmacSlotOf (.update 0 []) ≠ hmacSlotOf (.finish 1))) ∧
    ((digestSlotOf (.hmacFinish 0) ≠ none ∨ hmacSlotOf (.hmacFinish 0) ≠ none) ∧
      (digestSlotOf (.finish 0) ≠ digestSlotOf (.hmacFinish 0) ∨ hmacSlotOf (.finish 0) ≠ hmacSlotOf (.hmacFinish 0))) := by
  decide +kernel

theorem witness_InvariantHoldsAtReset : Config.wf { nDctx := 16, nHctx := 1 } ∧ Config.wf { nDctx := 1, nHctx := 16 } := by decide

/-- An engine that has just been reset meets the invariant, with packets waiting. -/
theorem reset_inv (events : List HostEvent) : { State.reset with inputs := events }.Inv :=
  have h : State.reset.Inv := ⟨by decide, by decide, by decide, by decide, fun _ h => (nomatch h), by decide⟩
  ⟨h.1, h.2.1, h.2.2.1, h.2.2.2.1, fun _ h => (nomatch h), h.2.2.2.2.2⟩

/-- So does an engine inside a `COMPRESS`, at every step index it can have. -/
theorem core_inv (t : BitVec 6) (h : t.toNat ≤ 48) : (coreState countingBlock initialWords t).Inv :=
  have h0 : (coreState countingBlock initialWords 0).config.wf ∧ (∀ c ∈ (coreState countingBlock initialWords 0).dc, c.Inv) ∧
      ∀ h ∈ (coreState countingBlock initialWords 0).hc, h.Inv := by decide +kernel
  ⟨h0.1, h0.2.1, h0.2.2, h, fun _ hr => Option.some.inj hr ▸ ⟨_, rfl, rfl⟩, fun _ hr => (nomatch hr)⟩

/-- Steps that answer a next state from states that meet the invariant: an idle engine with a packet, and a core at step 20. -/
theorem witness_EveryStepKeepsTheInvariant :
    (∃ s t : State, s.Inv ∧ s.job = none ∧ step s = .next t ∧ t ≠ s) ∧
    ∃ s t : State, s.Inv ∧ s.job = some (.digest 0) ∧ step s = .next t ∧ t ≠ s :=
  ⟨⟨_, _, reset_inv [.packet [0x01]], rfl, rfl, by decide +kernel⟩, ⟨_, _, core_inv 20 (by decide), rfl, rfl, by decide +kernel⟩⟩

theorem witness_EngineNeverStops : State.reset.Inv ∧ (coreState countingBlock initialWords 48).Inv :=
  ⟨reset_inv [], core_inv 48 (by decide)⟩

/-- Two idle engines that differ in residue of `BUF`, in a slot that is not active, in the working registers and in the draw
counter; a step of the one answers a next state. -/
theorem witness_SameEnginesStaySame :
    let s : State := { withDigest (buffered [0x61]) with inputs := [.packet [0x01]] }
    let t : State := { withDigest { buffered [0x61] with buf := [(0, 0x61), (9, 0xff)] } with
      inputs := [.packet [0x01]], hc := [{ HmacCtx.reset with opad := [(5, 0x5c)] }], x := initialWords, free := 7 }
    s ≠ t ∧ s.Same t ∧
      nextOf (step s) = some { s with inputs := [], fault := true, responses := [errBytes .framing] } := by
  refine ⟨by decide +kernel, ⟨?_, ?_, rfl, rfl, rfl, rfl, rfl⟩, by decide +kernel⟩
  · exact .cons (by decide +kernel) (.cons (by decide +kernel) .nil)
  · exact .cons (by decide +kernel) .nil

/-- Two engines right after reset that differ in fields the table leaves unspecified. -/
theorem witness_UnspecifiedResetValuesAreNeverObserved :
    let t : State := { State.reset with
      dc := [{ DigestCtx.reset with h := initialWords, lo := 7, buf := [(3, 0x01)], fill := 5 }, DigestCtx.reset]
      x := initialWords, t := 9 }
    State.reset ≠ t ∧ State.reset.AfterReset ∧ t.AfterReset ∧ State.reset.config = t.config := by decide +kernel

/-- A packet waiting; a core at work; a response to take. -/
theorem witness_SendingAheadChangesNoResult :
    let s := waiting [0x01]
    let u := coreState countingBlock initialWords 20
    (s.inputs ≠ [] ∧ nextOf (step s) = some { s with inputs := [], fault := true, responses := [errBytes .framing] }) ∧
    (u.job ≠ none ∧ (nextOf (step u)).map (fun t => t.t) = some 21) ∧
    { State.reset with responses := [[0x10, 0x00, 0x00, 0x00]] }.hostReceive.1 = some [0x10, 0x00, 0x00, 0x00] := by
  decide +kernel


end Sys2Proof.Tests
end

section
/-!
Proofs of the statements on the 64-byte stores (spec/20_memory.md sections 1 and 2).
-/

namespace Sys2Proof.Machine

/-- Settles O18: the read-after-write law, at every index. -/
theorem writeThenReadByte : Obligations.WriteThenReadByte :=
  fun m addr v b => Memory.read_write m addr b v

/-- R41: the word read at `addr` as a number. -/
theorem Memory.read4_toNat (m : Memory) (addr : Nat) :
    (m.read4 addr).toNat =
      (m.read addr).toNat + 2 ^ 8 * (m.read (addr + 1)).toNat + 2 ^ 16 * (m.read (addr + 2)).toNat +
        2 ^ 24 * (m.read (addr + 3)).toNat := by
  rw [Memory.read4, fromLe32_toNat]
  omega

/-- Settles O20: the value of a little-endian word read, and the index that `msgWord` reads at. -/
theorem messageWordsAreLittleEndian : Obligations.MessageWordsAreLittleEndian :=
  fun m addr _ => ⟨Memory.read4_toNat m addr, rfl⟩

end Sys2Proof.Machine
end

section
/-!
Decoding of packets (spec/30_encoding.md sections 1 to 5): the header fields and the length fields as numbers of the packet's
bytes, one equation per exit of the procedure of R73, and what is known of a packet that decodes.
-/

namespace Sys2Proof.Machine

/-! ### Numbers in a packet (R61, R64) -/

/-- R64: `from_le32` on a packet from offset `k` on is the number in its four bytes there. -/
theorem fromLe32_drop_toNat {p : List Byte} {k : Nat} (h : k + 4 ≤ p.length) :
    (fromLe32 (p.drop k)).toNat = numberAt p k := by
  rw [List.drop_eq_getElem_cons (by omega), List.drop_eq_getElem_cons (by omega), List.drop_eq_getElem_cons (by omega),
    List.drop_eq_getElem_cons (by omega), fromLe32_toNat]
  simp [numberAt, show k < p.length by omega, show k + 1 < p.length by omega,
    show k + 2 < p.length by omega, show k + 3 < p.length by omega]

/-- The header word as a number of its four bytes. -/
theorem headerWord_eq_numberAt {p : List Byte} (h : 4 ≤ p.length) : (fromLe32 p).toNat = numberAt p 0 :=
  fromLe32_drop_toNat (show 0 + 4 ≤ p.length by omega)

theorem hdrOp_eq_firstByte {p : List Byte} (h : 4 ≤ p.length) :
    (hdrOp (fromLe32 p)).toNat = (p.getD 0 0).toNat % 16 := by
  rw [hdrOp_toNat, headerWord_eq_numberAt h, numberAt]
  omega

theorem hdrCtx_eq_firstByte {p : List Byte} (h : 4 ≤ p.length) :
    (hdrCtx (fromLe32 p)).toNat = (p.getD 0 0).toNat / 16 := by
  have h0 := (p.getD 0 0).isLt
  rw [hdrCtx_toNat, headerWord_eq_numberAt h, numberAt]
  omega

theorem hdrRsvd_eq_zero_iff {p : List Byte} (h : 4 ≤ p.length) :
    hdrRsvd (fromLe32 p) = 0 ↔ p.getD 1 0 = 0 ∧ p.getD 2 0 = 0 ∧ p.getD 3 0 = 0 := by
  have h0 := (p.getD 0 0).isLt
  have h1 := (p.getD 1 0).isLt
  have h2 := (p.getD 2 0).isLt
  have h3 := (p.getD 3 0).isLt
  simp only [BitVec.ofNat_eq_ofNat, ← BitVec.toNat_inj, BitVec.toNat_zero, hdrRsvd_toNat, headerWord_eq_numberAt h, numberAt,
    Nat.zero_add]
  omega

/-! ### The opcode map (R67) -/

/-- R67: each command has one opcode number. -/
theorem opcodeOf_eq_some_iff {n : BitVec 4} {op : Opcode} : opcodeOf n = some op ↔ n = opcodeNumber op := by
  cases op <;> revert n <;> decide

theorem opcodeOf_eq_none_iff {n : BitVec 4} : opcodeOf n = none ↔ n.toNat = 0 ∨ 9 ≤ n.toNat := by
  revert n
  decide

/-- R62: the two checks on `CTX` together ask for a slot index that the opcode may name. -/
theorem slotNamed_iff (cfg : Config) (op : Opcode) (ctx : BitVec 4) :
    SlotNamed cfg (opcodeNumber op).toNat ctx.toNat ↔
      ¬(namesNoSlot op = true ∧ ctx ≠ 0) ∧ ctxInRange cfg op ctx = true := by
  cases op <;>
    simp [SlotNamed, namesNoSlot, ctxInRange, digestSlotOk, hmacSlotOk, opcodeNumber, ← BitVec.toNat_inj]

theorem namesNoSlot_iff (op : Opcode) :
    namesNoSlot op = true ↔ (opcodeNumber op).toNat = 4 ∨ (opcodeNumber op).toNat = 8 := by
  cases op <;> decide

/-- R62: the Digest slots and the HMAC slots each have their own bound. -/
theorem ctxInRange_eq_false_iff (cfg : Config) (op : Opcode) (ctx : BitVec 4) :
    ctxInRange cfg op ctx = false ↔
      (((opcodeNumber op).toNat = 1 ∨ (opcodeNumber op).toNat = 2 ∨ (opcodeNumber op).toNat = 3) ∧ cfg.nDctx ≤ ctx.toNat) ∨
        (((opcodeNumber op).toNat = 5 ∨ (opcodeNumber op).toNat = 6 ∨ (opcodeNumber op).toNat = 7) ∧
          cfg.nHctx ≤ ctx.toNat) := by
  cases op <;> simp [ctxInRange, digestSlotOk, hmacSlotOk, opcodeNumber]

/-- Only a command that names a slot has its index out of range. -/
theorem namesNoSlot_of_ctx_out_of_range {cfg : Config} {op : Opcode} {ctx : BitVec 4}
    (h : ctxInRange cfg op ctx = false) : namesNoSlot op = false := by
  cases op
  case digest | hmac => simp [ctxInRange] at h
  all_goals rfl

/-! ### The exits of the procedure of R73, in its order -/

section
variable {cfg : Config} {p : List Byte}

theorem decodePacket_of_short (h : p.length < 4) : decodePacket cfg p = .error .framing := if_pos h

theorem decodePacket_of_no_opcode (h4 : 4 ≤ p.length) (hop : opcodeOf (hdrOp (fromLe32 p)) = none) :
    decodePacket cfg p = .error .illegalOp := by
  simp [decodePacket, Nat.not_lt.mpr h4, hop]

variable {op : Opcode} (h4 : 4 ≤ p.length) (hop : opcodeOf (hdrOp (fromLe32 p)) = some op)
include h4 hop

theorem decodePacket_of_rsvd_ne (hr : hdrRsvd (fromLe32 p) ≠ 0) : decodePacket cfg p = .error .reserved := by
  simp only [decodePacket, if_neg (Nat.not_lt.mpr h4), hop, if_pos hr]

variable (hr : hdrRsvd (fromLe32 p) = 0)
include hr

theorem decodePacket_of_slotless_ctx_ne (hn : namesNoSlot op = true) (hc : hdrCtx (fromLe32 p) ≠ 0) :
    decodePacket cfg p = .error .reserved := by
  simp only [decodePacket, if_neg (Nat.not_lt.mpr h4), hop, if_neg (not_not.mpr hr), if_pos (And.intro hn hc)]

theorem decodePacket_of_ctx_out_of_range (hc : ctxInRange cfg op (hdrCtx (fromLe32 p)) = false) :
    decodePacket cfg p = .error .ctxIndex := by
  simp [decodePacket, Nat.not_lt.mpr h4, hop, hr, namesNoSlot_of_ctx_out_of_range hc, hc]

variable (hs : SlotNamed cfg (opcodeNumber op).toNat (hdrCtx (fromLe32 p)).toNat)
include hs

theorem decodePacket_of_not_assembled (ha : assemble op (hdrCtx (fromLe32 p)) p = none) :
    decodePacket cfg p = .error .framing := by
  obtain ⟨hn, hc⟩ := (slotNamed_iff cfg op _).mp hs
  simp only [decodePacket, if_neg (Nat.not_lt.mpr h4), hop, if_neg (not_not.mpr hr), if_neg hn, hc, Bool.true_eq_false,
    if_false, ha]

theorem decodePacket_of_assembled {i : Instr} (ha : assemble op (hdrCtx (fromLe32 p)) p = some i) :
    decodePacket cfg p = .ok i := by
  obtain ⟨hn, hc⟩ := (slotNamed_iff cfg op _).mp hs
  simp only [decodePacket, if_neg (Nat.not_lt.mpr h4), hop, if_neg (not_not.mpr hr), if_neg hn, hc, Bool.true_eq_false,
    if_false, ha]

end

/-- A packet that decodes has passed every check of R73. -/
theorem assembled_of_decodePacket {cfg : Config} {p : List Byte} {i : Instr} (h : decodePacket cfg p = .ok i) :
    4 ≤ p.length ∧ hdrRsvd (fromLe32 p) = 0 ∧ ∃ op, opcodeOf (hdrOp (fromLe32 p)) = some op ∧
      SlotNamed cfg (opcodeNumber op).toNat (hdrCtx (fromLe32 p)).toNat ∧
      assemble op (hdrCtx (fromLe32 p)) p = some i := by
  by_cases h4 : p.length < 4
  · simp [decodePacket_of_short h4] at h
  rw [Nat.not_lt] at h4
  cases hop : opcodeOf (hdrOp (fromLe32 p)) with
  | none => simp [decodePacket_of_no_opcode h4 hop] at h
  | some op =>
    by_cases hr : hdrRsvd (fromLe32 p) = 0
    swap
    · simp [decodePacket_of_rsvd_ne h4 hop hr] at h
    have hs : SlotNamed cfg (opcodeNumber op).toNat (hdrCtx (fromLe32 p)).toNat := by
      rw [slotNamed_iff]
      constructor
      · rintro ⟨hn, hc⟩
        simp [decodePacket_of_slotless_ctx_ne h4 hop hr hn hc] at h
      · by_contra hc
        simp [decodePacket_of_ctx_out_of_range h4 hop hr (Bool.eq_false_of_not_eq_true hc)] at h
    cases ha : assemble op (hdrCtx (fromLe32 p)) p with
    | none => simp [decodePacket_of_not_assembled h4 hop hr hs ha] at h
    | some j =>
      have hij : i = j := by simpa [decodePacket_of_assembled h4 hop hr hs ha] using h.symm
      exact ⟨h4, hr, op, rfl, hs, hij ▸ ha⟩

/-! ### Framing (R66) -/

theorem framedN_isSome_iff (p : List Byte) : (framedN p).isSome ↔ p.length = 4 := by
  simp [framedN]

theorem operandB_isSome_iff (p : List Byte) : (operandB p).isSome ↔ 8 ≤ p.length ∧ p.length = 8 + numberAt p 4 := by
  have h : 8 ≤ p.length → (fromLe32 (p.drop 4)).toNat = numberAt p 4 := fun h8 => fromLe32_drop_toNat h8
  simp +contextual [operandB, h]

theorem operandsK_isSome_iff (p : List Byte) :
    (operandsK p).isSome ↔ 12 ≤ p.length ∧ p.length = 12 + numberAt p 4 + numberAt p 8 := by
  have hk : 12 ≤ p.length → (fromLe32 (p.drop 4)).toNat = numberAt p 4 := fun h => fromLe32_drop_toNat (by omega)
  have hl : 12 ≤ p.length → (fromLe32 (p.drop 8)).toNat = numberAt p 8 := fun h => fromLe32_drop_toNat h
  simp +contextual [operandsK, hk, hl]

theorem assemble_isSome_iff (op : Opcode) (ctx : BitVec 4) (p : List Byte) :
    (assemble op ctx p).isSome ↔ WellFramed (opcodeNumber op).toNat p := by
  cases op <;>
    simp [assemble, WellFramed, opcodeNumber, framedN_isSome_iff, operandB_isSome_iff, operandsK_isSome_iff]

/-! ### What a packet that decodes is made of -/

/-- `le32` and the rest give back a string of at least four bytes. -/
theorem le32_fromLe32_append_drop (q : List Byte) (h : 4 ≤ q.length) : le32 (fromLe32 q) ++ q.drop 4 = q := by
  match q, h with
  | b0 :: b1 :: b2 :: b3 :: rest, _ => simp [le32_fromLe32]

/-- R64: a byte string as long as a word says has that word as its length field. -/
theorem lenField_eq_le32 {data : List Byte} {w : Word} (h : data.length = w.toNat) : lenField data = le32 w := by
  simp [lenField, h]

theorem lenOk_of_length_eq {data : List Byte} {w : Word} (h : data.length = w.toNat) : lenOk data = true := by
  simpa [lenOk, h] using w.isLt

theorem drop_of_framedN {p : List Byte} (h : framedN p = some ()) : p.drop 4 = [] := by
  have h4 := (framedN_isSome_iff p).mp (by simp [h])
  simp [h4]

theorem operandB_eq_some {p data : List Byte} (h : operandB p = some data) :
    p.drop 4 = lenField data ++ data ∧ lenOk data = true := by
  simp only [operandB, Option.ite_none_right_eq_some, Option.some.injEq] at h
  obtain ⟨⟨h8, hlen⟩, rfl⟩ := h
  have hd : (p.drop 8).length = (fromLe32 (p.drop 4)).toNat := by rw [List.length_drop]; omega
  refine ⟨?_, lenOk_of_length_eq hd⟩
  have hq := le32_fromLe32_append_drop (p.drop 4) (by rw [List.length_drop]; omega)
  rw [lenField_eq_le32 hd]
  simpa using hq.symm

theorem operandsK_eq_some {p key data : List Byte} (h : operandsK p = some (key, data)) :
    p.drop 4 = lenField key ++ lenField data ++ key ++ data ∧ lenOk key = true ∧ lenOk data = true := by
  simp only [operandsK, Option.ite_none_right_eq_some, Option.some.injEq, Prod.mk.injEq] at h
  obtain ⟨⟨h12, hlen⟩, rfl, rfl⟩ := h
  have hk : ((p.drop 12).take (fromLe32 (p.drop 4)).toNat).length = (fromLe32 (p.drop 4)).toNat := by
    rw [List.length_take, List.length_drop]; omega
  have hd : (p.drop (12 + (fromLe32 (p.drop 4)).toNat)).length = (fromLe32 (p.drop 8)).toNat := by
    rw [List.length_drop]; omega
  refine ⟨?_, lenOk_of_length_eq hk, lenOk_of_length_eq hd⟩
  have hq4 := le32_fromLe32_append_drop (p.drop 4) (by rw [List.length_drop]; omega)
  have hq8 := le32_fromLe32_append_drop (p.drop 8) (by rw [List.length_drop]; omega)
  rw [List.drop_drop] at hq4 hq8
  rw [lenField_eq_le32 hk, lenField_eq_le32 hd, ← List.drop_drop, List.append_assoc, List.append_assoc,
    List.take_append_drop, hq8, hq4]

/-- R61: a packet with a legal opcode and no reserved bit set begins with its command's header. -/
theorem eq_headerBytes_append {p : List Byte} {op : Opcode} (h4 : 4 ≤ p.length)
    (hop : opcodeOf (hdrOp (fromLe32 p)) = some op) (hr : hdrRsvd (fromLe32 p) = 0) :
    p = headerBytes op (hdrCtx (fromLe32 p)) ++ p.drop 4 := by
  have hfirst : p.getD 0 0 = (hdrCtx (fromLe32 p) ++ opcodeNumber op : BitVec (4 + 4)) := by
    apply BitVec.eq_of_toNat_eq
    rw [firstHeaderByte_toNat, ← opcodeOf_eq_some_iff.mp hop, hdrOp_eq_firstByte h4, hdrCtx_eq_firstByte h4]
    omega
  have hrest := (hdrRsvd_eq_zero_iff h4).mp hr
  rw [headerBytes, ← hfirst]
  match p, h4 with
  | b0 :: b1 :: b2 :: b3 :: rest, _ => simpa using hrest

/-- Encoding an assembled command gives its header and the packet's body back. -/
theorem encode_of_assemble {op : Opcode} {ctx : BitVec 4} {p : List Byte} {i : Instr}
    (hn : ¬(namesNoSlot op = true ∧ ctx ≠ 0)) (h : assemble op ctx p = some i) :
    encode i = .packet (headerBytes op ctx ++ p.drop 4) := by
  cases op <;> simp only [assemble, Option.map_eq_some_iff] at h <;> obtain ⟨u, hu, rfl⟩ := h
  case init | finish | hmacFinish => simp [encode, drop_of_framedN hu]
  case update | hmacInit | hmacUpdate => simp [encode, packetB, (operandB_eq_some hu).1]
  case digest =>
    obtain rfl : ctx = 0 := by simpa [namesNoSlot] using hn
    simp [encode, packetB, (operandB_eq_some hu).1]
  case hmac =>
    obtain rfl : ctx = 0 := by simpa [namesNoSlot] using hn
    simp [encode, (operandsK_eq_some hu).1]

theorem wf_of_assemble {cfg : Config} {op : Opcode} {ctx : BitVec 4} {p : List Byte} {i : Instr}
    (hc : ctxInRange cfg op ctx = true) (h : assemble op ctx p = some i) : i.wf cfg = true := by
  cases op <;> simp only [assemble, Option.map_eq_some_iff] at h <;> obtain ⟨u, hu, rfl⟩ := h
  case init | finish | hmacFinish => exact hc
  case update | hmacInit | hmacUpdate => exact Bool.and_eq_true_iff.mpr ⟨hc, (operandB_eq_some hu).2⟩
  case digest => exact (operandB_eq_some hu).2
  case hmac => exact Bool.and_eq_true_iff.mpr (operandsK_eq_some hu).2

/-- A packet is the encoding of the instruction it decodes to. -/
theorem encode_of_decodePacket {cfg : Config} {p : List Byte} {i : Instr} (h : decodePacket cfg p = .ok i) :
    encode i = .packet p := by
  obtain ⟨h4, hr, op, hop, hs, ha⟩ := assembled_of_decodePacket h
  rw [encode_of_assemble ((slotNamed_iff cfg op _).mp hs).1 ha, ← eq_headerBytes_append h4 hop hr]

/-- What a packet decodes to is well formed: its slot exists and its operands fit their length fields. -/
theorem wf_of_decodePacket {cfg : Config} {p : List Byte} {i : Instr} (h : decodePacket cfg p = .ok i) :
    i.wf cfg = true := by
  obtain ⟨-, -, op, -, hs, ha⟩ := assembled_of_decodePacket h
  exact wf_of_assemble ((slotNamed_iff cfg op _).mp hs).2 ha

/-- Settles O4: each clause is one exit of the procedure. -/
theorem decodingFollowsTheProcedure : Obligations.DecodingFollowsTheProcedure := by
  intro cfg p
  refine ⟨decodePacket_of_short, fun h4 n ctx hn hctx => ?_⟩
  rw [← hdrOp_eq_firstByte h4] at hn
  rw [← hdrCtx_eq_firstByte h4] at hctx
  subst hn hctx
  cases hop : opcodeOf (hdrOp (fromLe32 p)) with
  | none =>
    have hillegal := opcodeOf_eq_none_iff.mp hop
    exact ⟨fun _ => decodePacket_of_no_opcode h4 hop, fun _ _ => by omega, fun _ _ => by omega⟩
  | some op =>
    have hlegal : ¬((hdrOp (fromLe32 p)).toNat = 0 ∨ 9 ≤ (hdrOp (fromLe32 p)).toNat) := by
      simp [← opcodeOf_eq_none_iff, hop]
    refine ⟨fun h => absurd h hlegal, fun _ _ hr => decodePacket_of_rsvd_ne h4 hop (mt (hdrRsvd_eq_zero_iff h4).mp hr),
      fun _ _ h1 h2 h3 => ?_⟩
    have hr := (hdrRsvd_eq_zero_iff h4).mpr ⟨h1, h2, h3⟩
    rw [opcodeOf_eq_some_iff.mp hop]
    refine ⟨fun hn hc => ?_, fun hn hc => ?_, fun hn hc => ?_, fun hs hf => ?_, fun hs hf => ?_⟩
    · exact decodePacket_of_slotless_ctx_ne h4 hop hr ((namesNoSlot_iff op).mpr hn) (by simpa [← BitVec.toNat_inj] using hc)
    · exact decodePacket_of_ctx_out_of_range h4 hop hr ((ctxInRange_eq_false_iff cfg op _).mpr (.inl ⟨hn, hc⟩))
    · exact decodePacket_of_ctx_out_of_range h4 hop hr ((ctxInRange_eq_false_iff cfg op _).mpr (.inr ⟨hn, hc⟩))
    · rw [← assemble_isSome_iff op (hdrCtx (fromLe32 p)), Option.not_isSome_iff_eq_none] at hf
      exact decodePacket_of_not_assembled h4 hop hr hs hf
    · obtain ⟨i, ha⟩ := Option.isSome_iff_exists.mp ((assemble_isSome_iff op _ p).mpr hf)
      have hok := decodePacket_of_assembled h4 hop hr hs ha
      exact ⟨i, hok, encode_of_decodePacket hok⟩

end Sys2Proof.Machine
end

section
/-!
Responses (spec/30_encoding.md section 4): what one packet appends to the response stream, and what a command that a packet
decodes to answers.
-/

namespace Sys2Proof.Machine

/-- R68, R70, R203: `t` is `s` after a command that answered with `code` and the bytes `digest`: one response, the sticky
`FAULT`, the rest of the command stream, and on an error no slot changed. -/
structure State.Answers (s t : State) (code : Nat) (digest : List Byte) : Prop where
  inputs : t.inputs = s.inputs
  responses :
    t.responses = s.responses ++ [BitVec.ofNat 8 (code + 16 * t.fault.toNat) :: 0x00 :: 0x00 :: 0x00 :: digest]
  fault : t.fault = (s.fault || decide (code ≠ 0))
  slots : code ≠ 0 → t.dc = s.dc ∧ t.hc = s.hc

theorem State.raise_answers (s : State) (e : ErrCode) : s.Answers (s.raise e) (errNumber e).toNat [] where
  inputs := rfl
  responses := by cases e <;> rfl
  fault := by cases e <;> simp [errNumber]
  slots _ := ⟨rfl, rfl⟩

/-- What a command did before it answered `OK` does not show, if it left the streams and `FAULT` alone. -/
theorem State.respondOk_answers {s u : State} (digest : List Byte) (hi : u.inputs = s.inputs)
    (hr : u.responses = s.responses) (hf : u.fault = s.fault) : s.Answers (u.respondOk digest) 0 digest where
  inputs := hi
  responses := by
    rw [State.respondOk_responses, State.respondOk_fault, okBytes_eq, hr]
    cases u.fault <;> rfl
  fault := by simp [hf]
  slots h := absurd rfl h

/-- R62: a Digest slot index below `N_DCTX` has its slot. -/
theorem State.digestSlot_ne_none {s : State} {ctx : BitVec 4} (h : digestSlotOk s.config ctx = true) :
    s.dc[ctx.toNat]? ≠ none :=
  mt List.getElem?_eq_none_iff.mp (Nat.not_le.mpr (of_decide_eq_true h))

/-- R62: an HMAC slot index below `N_HCTX` has its slot. -/
theorem State.hmacSlot_ne_none {s : State} {ctx : BitVec 4} (h : hmacSlotOk s.config ctx = true) :
    s.hc[ctx.toNat]? ≠ none :=
  mt List.getElem?_eq_none_iff.mp (Nat.not_le.mpr (of_decide_eq_true h))

/-- A command that a packet decodes to fails on its slot's phase, or answers `OK` with the digest it returns, if any. -/
theorem exec_decoded_answers (s : State) {p : List Byte} {i : Instr} (h : decodePacket s.config p = .ok i) :
    exec i s = .next (s.raise .ctxState) ∨
      ∃ t digest, exec i s = .next t ∧ s.Answers t 0 digest ∧
        digest.length = if returnsDigest i then 16 else 0 := by
  have hwf := wf_of_decodePacket h
  rcases instr_cases i with ⟨ctx, rfl⟩ | ⟨ctx, data, rfl⟩ | ⟨ctx, rfl⟩ | ⟨data, rfl⟩ | ⟨ctx, key, rfl⟩ | ⟨ctx, data, rfl⟩ |
    ⟨ctx, rfl⟩ | ⟨key, data, rfl⟩ | ⟨t, ht⟩
  · have hslot := State.digestSlot_ne_none hwf
    rcases exec_init_cases s ctx with ⟨hn, -⟩ | ⟨c, -, he⟩
    · exact absurd hn hslot
    · exact .inr ⟨_, _, he, State.respondOk_answers _ rfl rfl rfl, rfl⟩
  · have hslot := State.digestSlot_ne_none (Bool.and_eq_true_iff.mp hwf).1
    rcases exec_update_cases s ctx data with ⟨hn, -⟩ | ⟨c, -, -, he⟩ | ⟨c, -, -, he⟩
    · exact absurd hn hslot
    · exact .inl he
    · exact .inr ⟨_, _, he, State.respondOk_answers _ (by simp) (by simp) (by simp), rfl⟩
  · have hslot := State.digestSlot_ne_none hwf
    rcases exec_finish_cases s ctx with ⟨hn, -⟩ | ⟨c, -, -, he⟩ | ⟨c, -, -, he⟩
    · exact absurd hn hslot
    · exact .inl he
    · exact .inr ⟨_, _, he, State.respondOk_answers _ rfl rfl rfl, length_digestOf _⟩
  · exact .inr ⟨_, _, exec_digest_eq s data, State.respondOk_answers _ rfl rfl rfl, length_digestOf _⟩
  · have hslot := State.hmacSlot_ne_none (Bool.and_eq_true_iff.mp hwf).1
    rcases exec_hmacInit_cases s ctx key with ⟨hn, -⟩ | ⟨k, -, he⟩
    · exact absurd hn hslot
    · exact .inr ⟨_, _, he, State.respondOk_answers _ rfl rfl rfl, rfl⟩
  · have hslot := State.hmacSlot_ne_none (Bool.and_eq_true_iff.mp hwf).1
    rcases exec_hmacUpdate_cases s ctx data with ⟨hn, -⟩ | ⟨k, -, -, he⟩ | ⟨k, -, -, he⟩
    · exact absurd hn hslot
    · exact .inl he
    · exact .inr ⟨_, _, he, State.respondOk_answers _ (by simp) (by simp) (by simp), rfl⟩
  · have hslot := State.hmacSlot_ne_none hwf
    rcases exec_hmacFinish_cases s ctx with ⟨hn, -⟩ | ⟨k, -, -, he⟩ | ⟨k, -, -, he⟩
    · exact absurd hn hslot
    · exact .inl he
    · exact .inr ⟨_, _, he, State.respondOk_answers _ rfl rfl rfl, length_tagOf _⟩
  · exact .inr ⟨_, _, exec_hmac_eq s data key, State.respondOk_answers _ rfl rfl rfl, length_tagOf _⟩
  · exact absurd ht (decodeStep_ne_of_packet h t)

/-- An idle engine with no reset pending takes its oldest packet. -/
theorem step_of_packet {s : State} {p : List Byte} {rest : List HostEvent} (hj : s.job = none)
    (hr : pendingReset s.inputs = none) (hi : s.inputs = .packet p :: rest) :
    step s = runPacket p { s with inputs := rest } := by
  rcases step_cases s with ⟨_, h, -⟩ | ⟨-, _, h, -⟩ | ⟨-, h, -⟩ | ⟨-, -, _, _, h, hs⟩
  · simp [hr] at h
  · simp [hj] at h
  · simp [hi] at h
  · obtain ⟨rfl, rfl⟩ : p = _ ∧ rest = _ := by simpa [hi] using h
    exact hs

theorem runPacket_of_error (s : State) {p : List Byte} {e : ErrCode} (h : decodePacket s.config p = .error e) :
    runPacket p s = .next (s.raise e) := by
  simp [runPacket, h]

theorem runPacket_of_ok (s : State) {p : List Byte} {i : Instr} (h : decodePacket s.config p = .ok i) :
    runPacket p s = exec i s := by
  simp [runPacket, h]

/-- Settles O51: a decode error and a phase error answer as `raise` does, and every other packet as `respondOk` does. -/
theorem everyPacketGetsItsResponse : Obligations.EveryPacketGetsItsResponse := by
  intro s p rest hj hr hi
  rw [step_of_packet hj hr hi]
  cases hd : decodePacket s.config p with
  | error e =>
    have ha := State.raise_answers { s with inputs := rest } e
    refine ⟨_, _, _, runPacket_of_error _ hd, ha.inputs, ?_, ha.responses, ha.fault, ?_, .inr rfl, ha.slots, ?_⟩
    all_goals cases e <;> simp [errNumber]
  | ok i =>
    rw [runPacket_of_ok { s with inputs := rest } hd]
    rcases exec_decoded_answers { s with inputs := rest } hd with he | ⟨t, digest, he, ha, hlen⟩
    · have ha := State.raise_answers { s with inputs := rest } .ctxState
      exact ⟨_, _, _, he, ha.inputs, by simp [errNumber], ha.responses, ha.fault, by simp [errNumber], .inr rfl, ha.slots,
        by simp [errNumber]⟩
    · refine ⟨t, 0, digest, he, ha.inputs, by simp, ha.responses, ha.fault, by simp [hlen], ?_, ha.slots, by simp⟩
      split_ifs at hlen
      · exact .inl hlen
      · exact .inr (List.length_eq_zero_iff.mp hlen)

end Sys2Proof.Machine
end

section
/-!
Proofs of the statements on the compression core (spec/40_compression_core.md): the round functions bit by bit, the steps of the
step table by the step formula, and `COMPRESS` as 48 of them.
-/

namespace Sys2Proof.Machine

/-! ### The round functions, bit by bit (R90 to R92) -/

section
variable (x y z : Word) {n : Nat}

theorem getLsbD_roundF (h : n < 32) :
    (roundF x y z).getLsbD n = if x.getLsbD n then y.getLsbD n else z.getLsbD n := by
  have select : ∀ a b c : Bool, (a && b || !a && c) = if a then b else c := by decide
  simpa only [roundF, BitVec.getLsbD_or, BitVec.getLsbD_and, BitVec.getLsbD_not, h, decide_true, Bool.true_and]
    using select _ _ _

theorem getLsbD_roundG :
    (roundG x y z).getLsbD n = decide (2 ≤ (x.getLsbD n).toNat + (y.getLsbD n).toNat + (z.getLsbD n).toNat) := by
  have majority : ∀ a b c : Bool, (a && b || a && c || b && c) = decide (2 ≤ a.toNat + b.toNat + c.toNat) := by decide
  simpa only [roundG, BitVec.getLsbD_or, BitVec.getLsbD_and] using majority _ _ _

theorem getLsbD_roundH :
    (roundH x y z).getLsbD n = decide (((x.getLsbD n).toNat + (y.getLsbD n).toNat + (z.getLsbD n).toNat) % 2 = 1) := by
  have parity : ∀ a b c : Bool, (a ^^ b ^^ c) = decide ((a.toNat + b.toNat + c.toNat) % 2 = 1) := by decide
  simpa only [roundH, BitVec.getLsbD_xor] using parity _ _ _

end

/-- Settles O6: a selection, a majority and a parity of three bits. -/
theorem roundFunctionsBitByBit : Obligations.RoundFunctionsBitByBit :=
  fun x y z _ h => ⟨getLsbD_roundF x y z h, getLsbD_roundG x y z, getLsbD_roundH x y z⟩

/-! ### The step table is the step formula (R94, R95) -/

/-- The 48 steps on the working registers, in the order of the step index (R96). -/
def coreSteps : List ((Nat → Word) → Quad → Quad) := round1Steps ++ (round2Steps ++ round3Steps)

/-- R110 to R125 print no constant: `K[0]` is 0. -/
theorem stepFormula_of_round1 {t : Nat} (h : t < 16) (X : Nat → Word) (x : Quad) :
    stepFormula t X x =
      x.setReg (destReg t)
        (rotl32 (x.reg (destReg t) + roundF (x.reg ((destReg t + 1) % 4)) (x.reg ((destReg t + 2) % 4))
          (x.reg ((destReg t + 3) % 4)) + X t) (shiftAmount 0 t)) := by
  simp [stepFormula, Nat.div_eq_of_lt h, Nat.mod_eq_of_lt h, roundConstant, roundFunction, wordOrder]

/-- Each printed step of round 1 is the step formula without its zero constant. -/
theorem round1Steps_eq_stepFormula : round1Steps = (List.range' 0 16).map stepFormula := by
  rw [List.map_congr_left fun t ht => funext₂ (stepFormula_of_round1 (List.mem_range'_1.mp ht).2)]
  rfl

/-- The printed steps of rounds 2 and 3 are the step formula as it stands, with the components of R95 evaluated. -/
theorem round2Steps_eq_stepFormula : round2Steps = (List.range' 16 16).map stepFormula := rfl

theorem round3Steps_eq_stepFormula : round3Steps = (List.range' 32 16).map stepFormula := rfl

theorem coreSteps_eq_stepFormula : coreSteps = (List.range 48).map stepFormula := by
  rw [coreSteps, round1Steps_eq_stepFormula, round2Steps_eq_stepFormula, round3Steps_eq_stepFormula, ← List.map_append,
    ← List.map_append, List.range'_append_1, List.range'_append_1, List.range_eq_range']

/-! ### A step as an instruction -/

/-- The instruction at each step index runs the step of that index, and sets the next index. -/
theorem stepInstrs_map_exec :
    stepInstrs.map exec = List.zipWith (fun f n => runStep f (BitVec.ofNat 6 n + 1)) coreSteps (List.range 48) := rfl

/-- The instruction that the step index `t` selects is step `t` of the step formula. -/
theorem exec_of_decodeStep {t : BitVec 6} {i : Instr} (h : decodeStep t = some i) :
    exec i = runStep (stepFormula t.toNat) (t + 1) := by
  have ht : t.toNat < 48 := (List.getElem?_eq_some_iff.mp h).1
  have hexec : (stepInstrs.map exec)[t.toNat]? = some (exec i) := by
    rw [List.getElem?_map]
    exact congrArg (Option.map exec) h
  rw [stepInstrs_map_exec, coreSteps_eq_stepFormula] at hexec
  simpa [ht] using hexec.symm

theorem State.jobBlock_of_job {s : State} {r : CtxRef} {c : DigestCtx} (hj : s.job = some r) (hc : s.ctxAt r = some c) :
    s.jobBlock = some c.buf := by
  simp [State.jobBlock, hj, hc]

theorem runStep_of_job (f : (Nat → Word) → Quad → Quad) (n : BitVec 6) {s : State} {r : CtxRef} {c : DigestCtx}
    (hj : s.job = some r) (hc : s.ctxAt r = some c) :
    runStep f n s = .next { s with x := f (msgWord c.buf) s.x, t := n } := by
  simp [runStep, State.jobBlock_of_job hj hc]

/-- Settles O13: the printed lists are literal, and each instruction runs the step formula on the block in progress. -/
theorem everyStepIsTheStepFormula : Obligations.EveryStepIsTheStepFormula := by
  refine ⟨by decide, by decide, by decide, by decide, by decide, by decide, by decide, ?_⟩
  intro t i s r c ht hj hc
  rw [exec_of_decodeStep ht, runStep_of_job _ _ hj hc]

/-! ### `COMPRESS` as 48 steps of the formula (R97, R100) -/

theorem runSteps_append (fs gs : List ((Nat → Word) → Quad → Quad)) (X : Nat → Word) (x : Quad) :
    runSteps (fs ++ gs) X x = runSteps gs X (runSteps fs X x) := by
  induction fs generalizing x with
  | nil => rfl
  | cons f rest ih => exact ih (f X x)

/-- Running the list of the first `n` steps of a form is running them by their index. -/
theorem runSteps_map_range (form : Nat → (Nat → Word) → Quad → Quad) (n : Nat) (X : Nat → Word) (x : Quad) :
    runSteps ((List.range n).map form) X x = firstSteps form n X x := by
  induction n with
  | zero => rfl
  | succ n ih =>
    rw [List.range_succ, List.map_append, runSteps_append, ih]
    rfl

theorem allSteps_eq_runSteps_coreSteps (X : Nat → Word) (x : Quad) : allSteps X x = runSteps coreSteps X x := by
  rw [coreSteps, runSteps_append, runSteps_append, allSteps]

theorem allSteps_eq_firstSteps (X : Nat → Word) (x : Quad) : allSteps X x = firstSteps stepFormula 48 X x := by
  rw [allSteps_eq_runSteps_coreSteps, coreSteps_eq_stepFormula, runSteps_map_range]

/-- Settles O15: the 48 steps of the model are the 48 steps of the formula. -/
theorem compressIsFortyEightStepsAndFeedForward : Obligations.CompressIsFortyEightStepsAndFeedForward := by
  intro S B
  rw [compress, compressWords, allSteps_eq_firstSteps, feedForward]

end Sys2Proof.Machine
end

section
/-!
Proofs of the statements on the 48 compression steps (spec/41_compression_steps.md): one lemma for every step index, read off at
the printed steps.
-/

namespace Sys2Proof.Machine

/-- The step index `k` selects the `k`-th instruction of the step table, and that instruction runs the `k`-th printed step on the
block in progress. -/
theorem stepAt_runs {s : State} {r : CtxRef} {c : DigestCtx} (hj : s.job = some r) (hc : s.ctxAt r = some c) (k : Fin 48) :
    decodeStep (BitVec.ofNat 6 k) = some (stepInstrs[k.val]'k.isLt) ∧
      exec (stepInstrs[k.val]'k.isLt) s =
        .next { s with x := (coreSteps[k.val]'k.isLt) (msgWord c.buf) s.x, t := BitVec.ofNat 6 k + 1 } := by
  have index : (BitVec.ofNat 6 k).toNat = k := Nat.mod_eq_of_lt (k.isLt.trans (by decide))
  have selects : decodeStep (BitVec.ofNat 6 k) = some (stepInstrs[k.val]'k.isLt) := by
    rw [decodeStep, index]
    exact List.getElem?_eq_getElem k.isLt
  have printed : coreSteps[k.val]'k.isLt = stepFormula k := by
    simp [coreSteps_eq_stepFormula]
  exact ⟨selects, by rw [exec_of_decodeStep selects, runStep_of_job _ _ hj hc, index, printed]⟩

/-- Settles O8: steps 0 to 11, all of round 1. -/
theorem stepsRunQuarterOne : Obligations.StepsRunQuarterOne := by
  intro s r c hj hc
  have run := stepAt_runs hj hc
  exact ⟨run 0, run 1, run 2, run 3, run 4, run 5, run 6, run 7, run 8, run 9, run 10, run 11⟩

/-- Settles O9: steps 12 to 23, the end of round 1 and the first half of round 2. -/
theorem stepsRunQuarterTwo : Obligations.StepsRunQuarterTwo := by
  intro s r c hj hc
  have run := stepAt_runs hj hc
  exact ⟨run 12, run 13, run 14, run 15, run 16, run 17, run 18, run 19, run 20, run 21, run 22, run 23⟩

/-- Settles O10: steps 24 to 35, the second half of round 2 and the start of round 3. -/
theorem stepsRunQuarterThree : Obligations.StepsRunQuarterThree := by
  intro s r c hj hc
  have run := stepAt_runs hj hc
  exact ⟨run 24, run 25, run 26, run 27, run 28, run 29, run 30, run 31, run 32, run 33, run 34, run 35⟩

/-- Settles O11: steps 36 to 47, the rest of round 3; the index after the last step is 48. -/
theorem stepsRunQuarterFour : Obligations.StepsRunQuarterFour := by
  intro s r c hj hc
  have run := stepAt_runs hj hc
  exact ⟨run 36, run 37, run 38, run 39, run 40, run 41, run 42, run 43, run 44, run 45, run 46, run 47⟩

end Sys2Proof.Machine
end

section
/-!
The Streaming Accumulator (spec/42_accumulator.md sections 1 to 5): the counter and the bit length as numbers, what the bodies of
`UPDATE` and `FINISH` do to a context, and what a context holds on the way from `INIT` to `FINISH`.
-/

namespace Sys2Proof.Machine

/-! ### `ABSORB` (R160) -/

/-- Settles O22: the byte's place, and the two sides of the block boundary. -/
theorem absorbStoresAndCompressesAtSixtyFour : Obligations.AbsorbStoresAndCompressesAtSixtyFour := by
  intro c v
  have hfill := absorb_fill c v
  refine ⟨fun a => by rw [absorb_buf, Memory.read_write], absorb_lo c v, absorb_hi c v, absorb_phase c v, fun hroom => ?_,
    fun hfull => ?_⟩
  · exact ⟨by omega, absorb_h_of_room c v (by omega)⟩
  · exact ⟨BitVec.eq_of_toNat_eq (by rw [hfill, hfull]; rfl), by rw [absorb_h_of_full c v (by omega), absorb_buf]⟩

/-! ### The counter (R163) and the bit length (R165) -/

/-- The new low word is smaller than the addend exactly when the addition overflowed. -/
theorem add_lt_right_iff_carry (a n : Word) : a + n < n ↔ 2 ^ 32 ≤ a.toNat + n.toNat := by
  have ha := a.isLt
  have hn := n.isLt
  rw [BitVec.lt_def, BitVec.toNat_add]
  omega

theorem addLength_eq (c : DigestCtx) (n : Word) :
    addLength c n =
      { c with lo := c.lo + n, hi := if 2 ^ 32 ≤ c.lo.toNat + n.toNat then c.hi + 1 else c.hi } := by
  simp only [addLength, add_lt_right_iff_carry]
  split <;> rfl

theorem addLength_hi (c : DigestCtx) (n : Word) :
    (addLength c n).hi = if 2 ^ 32 ≤ c.lo.toNat + n.toNat then c.hi + 1 else c.hi := by
  rw [addLength_eq]

/-- The single carry is exact: the two words together are a 64-bit addition. -/
theorem addLength_count (c : DigestCtx) (n : Word) : (addLength c n).count = (c.count + n.toNat) % 2 ^ 64 := by
  have hlo := c.lo.isLt
  have hhi := c.hi.isLt
  have hn := n.isLt
  have hone : (1 : Word).toNat = 1 := rfl
  rw [DigestCtx.count, DigestCtx.count, addLength_lo, addLength_hi, BitVec.toNat_add]
  split
  · rw [BitVec.toNat_add, hone]
    omega
  · omega

/-- Settles O23: the count by the carry, the other fields by the laws of `addLength`. -/
theorem counterAdditionCarries : Obligations.CounterAdditionCarries :=
  fun c n => ⟨addLength_count c n, addLength_lo c n, addLength_hi c n, addLength_h c n, addLength_buf c n, addLength_fill c n,
    addLength_phase c n⟩

theorem bitLengthLo_toNat (c : DigestCtx) : (bitLengthLo c).toNat = 8 * c.lo.toNat % 2 ^ 32 := by
  rw [bitLengthLo, BitVec.toNat_shiftLeft, Nat.shiftLeft_eq, Nat.mul_comm]

/-- The three bits shifted out of the low word fill the three low bits of the high word. -/
theorem bitLengthHi_toNat (c : DigestCtx) :
    (bitLengthHi c).toNat = 8 * (c.hi.toNat % 2 ^ 29) + c.lo.toNat / 2 ^ 29 := by
  have hlo := c.lo.isLt
  have hshift : (c.hi <<< 3).toNat = (c.hi.toNat % 2 ^ 29) <<< 3 := by
    rw [BitVec.toNat_shiftLeft, Nat.shiftLeft_eq, Nat.shiftLeft_eq]
    omega
  rw [bitLengthHi, BitVec.toNat_or, hshift, BitVec.toNat_ushiftRight, Nat.shiftRight_eq_div_pow,
    ← Nat.shiftLeft_add_eq_or_of_lt (by omega), Nat.shiftLeft_eq, Nat.mul_comm]

theorem bitLength_toNat (c : DigestCtx) :
    (bitLengthHi c).toNat * 2 ^ 32 + (bitLengthLo c).toNat = (8 * c.count) % 2 ^ 64 := by
  have hlo := c.lo.isLt
  rw [bitLengthHi_toNat, bitLengthLo_toNat, DigestCtx.count]
  omega

/-- Settles O24: the law as numbers; the two words are `FINISH`'s own. -/
theorem bitLengthIsEightTimesTheCount : Obligations.BitLengthIsEightTimesTheCount :=
  fun c => ⟨bitLength_toNat c, rfl, rfl⟩

/-- The length bytes of the closed form are the two words that `FINISH` appends. -/
theorem lengthBytes_count (c : DigestCtx) : lengthBytes c.count = le32 (bitLengthLo c) ++ le32 (bitLengthHi c) := by
  have hlo := (bitLengthLo c).isLt
  rw [lengthBytes, bitCount, ← bitLength_toNat, show
      ((bitLengthHi c).toNat * 2 ^ 32 + (bitLengthLo c).toNat) % 2 ^ 32 = (bitLengthLo c).toNat by omega, show
      ((bitLengthHi c).toNat * 2 ^ 32 + (bitLengthLo c).toNat) / 2 ^ 32 = (bitLengthHi c).toNat by omega,
    BitVec.ofNat_toNat, BitVec.ofNat_toNat, BitVec.setWidth_eq, BitVec.setWidth_eq]

/-! ### The body of `UPDATE` (R162) -/

theorem updateOp_count (c : DigestCtx) {data : List Byte} (h : data.length < 2 ^ 32) :
    (updateOp c data).count = (c.count + data.length) % 2 ^ 64 := by
  have hcount := addLength_count c (BitVec.ofNat 32 data.length)
  rw [BitVec.toNat_ofNat, Nat.mod_eq_of_lt h] at hcount
  rw [← hcount, updateOp, DigestCtx.count, absorbAll_lo, absorbAll_hi, DigestCtx.count]

/-- The counter addition leaves what `ABSORB` works on, so the chain of the bytes is that of the context before it. -/
theorem updateOp_absorbsTo (c : DigestCtx) {data : List Byte} (h : data.length < 2 ^ 32) :
    c.AbsorbsTo data (updateOp c data) := by
  have hlen : (c.buf.readBytes 0 c.fill.toNat ++ data).length = c.fill.toNat + data.length := by simp
  have hchain := absorbAll_chain (addLength c (BitVec.ofNat 32 data.length)) data
  have hother := absorbAll_buf_other (addLength c (BitVec.ofNat 32 data.length)) data
  rw [addLength_fill, addLength_buf, addLength_h] at hchain
  rw [addLength_fill, addLength_buf] at hother
  obtain ⟨hh, hbuf⟩ := hchain
  refine ⟨updateOp_phase c data, updateOp_count c h, ?_, ?_, ?_, hother⟩
  · rw [hlen, updateOp_fill]
  · rw [hlen]; exact hh
  · rw [hlen, updateOp_fill]; exact hbuf

theorem addLength_zero (c : DigestCtx) : addLength c 0 = c := by
  simp [addLength_eq, Nat.not_le.mpr c.lo.isLt]

@[simp] theorem updateOp_nil (c : DigestCtx) : updateOp c [] = c := addLength_zero c

/-! ### Chunking (R167) -/

/-- The count determines its two words. -/
theorem DigestCtx.words_eq_of_count_eq {c d : DigestCtx} (h : c.count = d.count) : c.lo = d.lo ∧ c.hi = d.hi := by
  have hc := c.lo.isLt
  have hd := d.lo.isLt
  simp only [DigestCtx.count] at h
  exact ⟨BitVec.eq_of_toNat_eq (by omega), BitVec.eq_of_toNat_eq (by omega)⟩

/-- The counter addition is additive: no carry is lost between two parts whose sum is one length. -/
theorem addLength_addLength (c : DigestCtx) {m n : Word} (h : m.toNat + n.toNat < 2 ^ 32) :
    addLength (addLength c m) n = addLength c (m + n) := by
  have hcount : (addLength (addLength c m) n).count = (addLength c (m + n)).count := by
    rw [addLength_count, addLength_count, addLength_count, BitVec.toNat_add_of_lt h]
    omega
  obtain ⟨hlo, hhi⟩ := DigestCtx.words_eq_of_count_eq hcount
  simp only [addLength_eq] at hlo hhi ⊢
  rw [hlo, hhi]

/-- The order of the counter addition and the absorbing does not matter (R162). -/
theorem absorbAll_addLength (c : DigestCtx) (data : List Byte) (n : Word) :
    absorbAll (addLength c n) data = addLength (absorbAll c data) n := by
  have hwith := absorbAll_with c data (addLength c n).lo (addLength c n).hi c.phase
  simp only [addLength_eq, absorbAll_lo, absorbAll_hi] at hwith ⊢
  rw [hwith, ← absorbAll_phase c data]

theorem updateOp_append (c : DigestCtx) {a b : List Byte} (h : a.length + b.length < 2 ^ 32) :
    updateOp (updateOp c a) b = updateOp c (a ++ b) := by
  have hwords : (BitVec.ofNat 32 a.length).toNat + (BitVec.ofNat 32 b.length).toNat < 2 ^ 32 := by
    rw [BitVec.toNat_ofNat, BitVec.toNat_ofNat]
    omega
  simp only [updateOp]
  rw [← absorbAll_addLength, addLength_addLength c hwords, ← absorbAll_append, List.length_append, BitVec.ofNat_add]

/-! ### The body of `FINISH` (R164, R166) -/

theorem padding_eq (c : DigestCtx) :
    padding c = [0x80] ++ zeros ((55 + 64 - c.fill.toNat) % 64) ++ lengthBytes c.count := by
  rw [padding, lengthBytes_count, List.append_assoc]

theorem finishOp_finishesTo (c : DigestCtx) : c.FinishesTo (finishOp c) := by
  have hfill := c.fill.isLt
  have hpad := length_padding c
  have hall : c.buf.readBytes 0 c.fill.toNat ++ [0x80] ++ zeros ((55 + 64 - c.fill.toNat) % 64) ++ lengthBytes c.count =
      c.buf.readBytes 0 c.fill.toNat ++ padding c := by
    rw [padding_eq]
    simp only [List.append_assoc]
  have hblocks : c.fill.toNat + (padding c).length = 64 * (if c.fill.toNat ≤ 55 then 1 else 2) := by
    split <;> omega
  have hlen : (c.buf.readBytes 0 c.fill.toNat ++ padding c).length = 64 * (if c.fill.toNat ≤ 55 then 1 else 2) := by
    rw [List.length_append, Memory.length_readBytes, hblocks]
  obtain ⟨hh, -⟩ := absorbAll_chain c (padding c)
  have hresidue := absorbAll_residue c (padding c) (by omega) (List.ne_nil_of_length_pos (by omega))
  rw [hblocks, Nat.mul_div_cancel_left _ (by decide)] at hh
  rw [hblocks] at hresidue
  refine ⟨finishOp_phase c, finishOp_lo c, finishOp_hi c, finishOp_fill c, ?_, ?_, ?_⟩
  · rw [hall, hlen]; split <;> rfl
  · rw [hall, finishOp_eq]; exact hh
  · rw [hall, hlen, finishOp_eq]; exact hresidue

/-! ### What a context holds (R20, R169) -/

theorem initOp_holds (c : DigestCtx) : (initOp c).Holds [] :=
  by
  refine ⟨rfl, ?_, rfl, rfl, rfl⟩
  simp [initOp, DigestCtx.count]

/-- A chain over the whole blocks of `m` goes on over what is left of it and what follows. -/
theorem blockChain_append (m data : List Byte) (k : Nat) (s : Quad) :
    blockChain k (blockChain (m.length / 64) s m) (m.drop (64 * (m.length / 64)) ++ data) =
      blockChain (m.length / 64 + k) s (m ++ data) := by
  have hle : 64 * (m.length / 64) ≤ m.length := Nat.mul_div_le _ _
  rw [blockChain_add, List.drop_append_of_le_length hle,
    blockChain_congr _ s (List.take_append_of_le_length (l₂ := data) hle)]

/-- Absorbing `data` appends it to the message that the context holds. -/
theorem DigestCtx.Holds.of_absorbsTo {c d : DigestCtx} {m data : List Byte} (hc : c.Holds m) (hd : c.AbsorbsTo data d) :
    d.Holds (m ++ data) := by
  obtain ⟨hphase, hcount, hfill, hh, hbuf⟩ := hc
  obtain ⟨hphase', hcount', hfill', hh', hbuf', -⟩ := hd
  have hle : 64 * (m.length / 64) ≤ m.length := Nat.mul_div_le _ _
  have hall : (m.drop (64 * (m.length / 64)) ++ data).length = m.length % 64 + data.length := by
    rw [List.length_append, List.length_drop]
    omega
  rw [hfill, hbuf, hall] at hfill' hh' hbuf'
  have hmod : (m.length % 64 + data.length) % 64 = (m ++ data).length % 64 := by simp
  have hdiv : m.length / 64 + (m.length % 64 + data.length) / 64 = (m ++ data).length / 64 := by
    rw [List.length_append]
    omega
  refine ⟨hphase'.trans hphase, ?_, hfill'.trans hmod, ?_, ?_⟩
  · rw [hcount', hcount, List.length_append]
    omega
  · rw [hh', hh, blockChain_append, hdiv]
  · rw [← hmod, ← hfill', hbuf', ← hdiv, Nat.mul_add, ← List.drop_drop, List.drop_append_of_le_length hle]

theorem updateOp_holds {c : DigestCtx} {m data : List Byte} (h : data.length < 2 ^ 32) (hc : c.Holds m) :
    (updateOp c data).Holds (m ++ data) :=
  hc.of_absorbsTo (updateOp_absorbsTo c h)

/-- The blocks that `FINISH` compresses are those of the padded message that `UPDATE` has not. -/
theorem digestOf_finishOp_of_holds {c : DigestCtx} {m : List Byte} (hc : c.Holds m) : digestOf (finishOp c) = md4Closed m := by
  obtain ⟨-, hcount, hfill, hh, hbuf⟩ := hc
  obtain ⟨-, -, -, -, -, hfinal, -⟩ := finishOp_finishesTo c
  have hblocks : m.length / 64 + (if m.length % 64 ≤ 55 then 1 else 2) = (m.length + 8) / 64 + 1 := by
    split <;> omega
  rw [hfill, hbuf, hcount, lengthBytes_mod, hh, List.append_assoc, List.append_assoc, blockChain_append, hblocks] at hfinal
  rw [digestOf, hfinal, md4Closed, paddedMessage, zeroCount]
  simp only [List.append_assoc]

end Sys2Proof.Machine
end

section
/-!
The Digest commands on the engine (spec/42_accumulator.md sections 2 to 6): `INIT`, `UPDATE` and `FINISH` by the phase of the slot
they name, chunking of `UPDATE`, and the lifecycle of a slot.
-/

namespace Sys2Proof.Machine

/-! ### Responses and the core, as the statements have them -/

/-- R68, R70: the response of a command that ends with `OK`, in bytes. -/
theorem State.respondOk_responses_eq (s : State) (digest : List Byte) :
    (s.respondOk digest).responses = s.responses ++ [okBytes s.fault ++ digest] := by
  rw [State.respondOk_responses, okBytes_eq]

theorem State.retireCoreIf_idle {s : State} (used : Bool) (h : s.job = none) : (s.retireCoreIf used).job = none := by
  cases used
  · exact h
  · rfl

/-! ### The commands, by the phase of their slot -/

section
variable {s : State} {ctx : BitVec 4} {c : DigestCtx}

theorem exec_init_of_slot (hc : s.dc[ctx.toNat]? = some c) :
    exec (.init ctx) s = .next ((s.setDigest ctx.toNat (initOp c)).respondOk []) := by
  simp [exec, execInit, hc]

variable (data : List Byte)

theorem exec_update_of_absent (hc : s.dc[ctx.toNat]? = none) :
    exec (.update ctx data) s = .next (s.raise .ctxIndex) := by
  simp [exec, execUpdate, hc]

theorem exec_update_of_inactive (hc : s.dc[ctx.toNat]? = some c) (hp : c.phase ≠ .active) :
    exec (.update ctx data) s = .next (s.raise .ctxState) := by
  simp [exec, execUpdate, hc, isActive, hp]

theorem exec_update_of_active (hc : s.dc[ctx.toNat]? = some c) (hp : c.phase = .active) :
    exec (.update ctx data) s =
      .next (((s.setDigest ctx.toNat (updateOp c data)).retireCoreIf (compresses c data.length)).respondOk []) := by
  simp [exec, execUpdate, hc, isActive, hp]

theorem exec_finish_of_inactive (hc : s.dc[ctx.toNat]? = some c) (hp : c.phase ≠ .active) :
    exec (.finish ctx) s = .next (s.raise .ctxState) := by
  simp [exec, execFinish, hc, isActive, hp]

theorem exec_finish_of_active (hc : s.dc[ctx.toNat]? = some c) (hp : c.phase = .active) :
    exec (.finish ctx) s =
      .next ((s.setDigest ctx.toNat (finishOp c)).retireCore.respondOk (digestOf (finishOp c))) := by
  simp [exec, execFinish, hc, isActive, hp]

/-- A Digest slot that the engine has reads back what is written to it. -/
theorem State.setDigest_slot (d : DigestCtx) (hc : s.dc[ctx.toNat]? = some c) :
    (s.setDigest ctx.toNat d).dc[ctx.toNat]? = some d := by
  simp [(List.getElem?_eq_some_iff.mp hc).1]

end

/-- Settles O25: the body of `INIT` is the one write, in whatever phase the slot is. -/
theorem initCompletes : Obligations.InitCompletes := by
  intro s ctx c hc
  exact ⟨_, exec_init_of_slot hc, rfl, rfl, rfl, rfl, State.respondOk_responses_eq _ [], id⟩

/-- Settles O26: an active slot absorbs the bytes, and any other raises the error. -/
theorem updateCompletes : Obligations.UpdateCompletes := by
  intro s ctx data c hc hlen
  refine ⟨fun hp => ?_, fun hp => ?_⟩
  · refine ⟨_, updateOp c data, exec_update_of_active data hc hp, updateOp_absorbsTo c hlen, by simp, by simp, by simp, by simp,
      ?_, State.retireCoreIf_idle (s := s.setDigest ctx.toNat _) _, ?_⟩
    · simp [okBytes_eq]
    · rintro rfl
      obtain ⟨hlt, rfl⟩ := List.getElem?_eq_some_iff.mp hc
      simp
  · rw [exec_update_of_inactive data hc hp, raise_eq]

/-- Settles O27: an active slot is padded and finished, and any other raises the error. -/
theorem finishCompletes : Obligations.FinishCompletes := by
  intro s ctx c hc
  refine ⟨fun hp => ?_, fun hp => ?_⟩
  · exact ⟨_, finishOp c, exec_finish_of_active hc hp, finishOp_finishesTo c, rfl, rfl, rfl, rfl,
      State.respondOk_responses_eq _ _, fun _ => rfl⟩
  · rw [exec_finish_of_inactive hc hp, raise_eq]

/-! ### Chunking (R167) -/

theorem execAll_cons_of_next {i : Instr} {is : List Instr} {s t : State} (h : exec i s = .next t) :
    execAll (i :: is) s = execAll is t := by
  rw [execAll, h]

theorem execAll_singleton_of_next {i : Instr} {s t : State} (h : exec i s = .next t) : execAll [i] s = .next t :=
  execAll_cons_of_next h

/-- Settles O28: the bodies chunk, and a slot that refuses the one `UPDATE` refuses each of the two. -/
theorem chunkingInvariance : Obligations.ChunkingInvariance := by
  intro a b hlen
  refine ⟨fun c => updateOp_append c hlen, fun s ctx => ?_⟩
  cases hc : s.dc[ctx.toNat]? with
  | none =>
    exact ⟨_, _, (execAll_cons_of_next (exec_update_of_absent a hc)).trans
        (execAll_singleton_of_next (exec_update_of_absent b hc)),
      execAll_singleton_of_next (exec_update_of_absent (a ++ b) hc), rfl, rfl, rfl⟩
  | some c =>
    by_cases hp : c.phase = .active
    · have hfirst := exec_update_of_active a hc hp
      have hslot := State.setDigest_slot (updateOp c a) hc
      have hsecond := exec_update_of_active
        (s := ((s.setDigest ctx.toNat (updateOp c a)).retireCoreIf (compresses c a.length)).respondOk []) b
        (by simpa using hslot) ((updateOp_phase c a).trans hp)
      refine ⟨_, _, (execAll_cons_of_next hfirst).trans (execAll_singleton_of_next hsecond),
        execAll_singleton_of_next (exec_update_of_active (a ++ b) hc hp), ?_, by simp, by simp⟩
      simp [updateOp_append c hlen]
    · exact ⟨_, _, (execAll_cons_of_next (exec_update_of_inactive a hc hp)).trans
          (execAll_singleton_of_next (exec_update_of_inactive b hc hp)),
        execAll_singleton_of_next (exec_update_of_inactive (a ++ b) hc hp), rfl, rfl, rfl⟩

/-! ### The lifecycle (R171) -/

/-- Settles O32: the three rows of the table, the two inactive ones together. -/
theorem digestLifecycle : Obligations.DigestLifecycle := by
  intro s ctx data c hc
  refine ⟨?_, fun hp => ⟨?_, ?_⟩, fun hp => ⟨?_, ?_⟩⟩
  · exact ⟨_, initOp c, exec_init_of_slot hc, State.setDigest_slot _ hc, rfl, State.respondOk_responses_eq _ []⟩
  · refine ⟨_, updateOp c data, exec_update_of_active data hc hp, ?_, (updateOp_phase c data).trans hp, ?_⟩
    · simpa using State.setDigest_slot (updateOp c data) hc
    · simp [okBytes_eq]
  · exact ⟨_, finishOp c, digestOf (finishOp c), exec_finish_of_active hc hp, State.setDigest_slot _ hc, finishOp_phase c,
      State.respondOk_responses_eq _ _, length_digestOf _⟩
  · exact ⟨_, c, exec_update_of_inactive data hc hp, hc, rfl, by rw [raise_eq]⟩
  · exact ⟨_, c, exec_finish_of_inactive hc hp, hc, rfl, by rw [raise_eq]⟩

end Sys2Proof.Machine
end

section
/-!
Determinism (spec/42_accumulator.md section 5, R168): what an instruction leaves alone, and the message that a slot holds while the
engine takes packets one by one.
-/

namespace Sys2Proof.Machine

/-! ### What an instruction leaves alone -/

/-- `t` is `s` but for the slots that `i` names, `FAULT`, the responses and the core, and an idle core is left idle (R21, R22, R48). -/
structure State.TouchedBy (s t : State) (i : Instr) : Prop where
  dc : ∀ n, digestSlotOf i ≠ some n → t.dc[n]? = s.dc[n]?
  hc : ∀ n, hmacSlotOf i ≠ some n → t.hc[n]? = s.hc[n]?
  config : t.config = s.config
  inputs : t.inputs = s.inputs
  idle : s.job = none → t.job = none

section
variable {s t : State} {i : Instr}

theorem State.touchedBy_of_slots_eq (hdc : t.dc = s.dc) (hhc : t.hc = s.hc) (hi : t.inputs = s.inputs)
    (hj : s.job = none → t.job = none) : s.TouchedBy t i where
  dc n _ := by rw [hdc]
  hc n _ := by rw [hhc]
  config := by rw [State.config, State.config, hdc, hhc]
  inputs := hi
  idle := hj

theorem State.raise_touchedBy (e : ErrCode) : s.TouchedBy (s.raise e) i :=
  State.touchedBy_of_slots_eq rfl rfl rfl id

theorem State.touchedBy_of_setDigest {n : Nat} {c : DigestCtx} (hn : digestSlotOf i = some n) (hdc : t.dc = s.dc.set n c)
    (hhc : t.hc = s.hc) (hi : t.inputs = s.inputs) (hj : s.job = none → t.job = none) : s.TouchedBy t i where
  dc k hk := by
    have hne : n ≠ k := fun h => hk (h ▸ hn)
    rw [hdc, List.getElem?_set_ne hne]
  hc k _ := by rw [hhc]
  config := by rw [State.config, State.config, hdc, hhc, List.length_set]
  inputs := hi
  idle := hj

theorem State.touchedBy_of_setHmac {n : Nat} {h : HmacCtx} (hn : hmacSlotOf i = some n) (hdc : t.dc = s.dc)
    (hhc : t.hc = s.hc.set n h) (hi : t.inputs = s.inputs) (hj : s.job = none → t.job = none) : s.TouchedBy t i where
  dc k _ := by rw [hdc]
  hc k hk := by
    have hne : n ≠ k := fun h => hk (h ▸ hn)
    rw [hhc, List.getElem?_set_ne hne]
  config := by rw [State.config, State.config, hdc, hhc, List.length_set]
  inputs := hi
  idle := hj

end

/-- Every instruction, a command or a step of the core, touches only the slot it names. -/
theorem exec_touches {i : Instr} {s t : State} (he : exec i s = .next t) : s.TouchedBy t i := by
  rcases instr_cases i with ⟨ctx, rfl⟩ | ⟨ctx, data, rfl⟩ | ⟨ctx, rfl⟩ | ⟨data, rfl⟩ | ⟨ctx, key, rfl⟩ | ⟨ctx, data, rfl⟩ |
    ⟨ctx, rfl⟩ | ⟨key, data, rfl⟩ | ⟨k, hk⟩
  · rcases exec_init_cases s ctx with ⟨-, h⟩ | ⟨c, -, h⟩ <;> obtain rfl := Host.Outcome.next.inj (h.symm.trans he)
    · exact State.raise_touchedBy _
    · exact State.touchedBy_of_setDigest rfl rfl rfl rfl id
  · rcases exec_update_cases s ctx data with ⟨-, h⟩ | ⟨c, -, -, h⟩ | ⟨c, -, -, h⟩ <;>
      obtain rfl := Host.Outcome.next.inj (h.symm.trans he)
    · exact State.raise_touchedBy _
    · exact State.raise_touchedBy _
    · exact State.touchedBy_of_setDigest (c := updateOp c data) rfl (by simp) (by simp) (by simp)
        (State.retireCoreIf_idle (s := s.setDigest ctx.toNat _) _)
  · rcases exec_finish_cases s ctx with ⟨-, h⟩ | ⟨c, -, -, h⟩ | ⟨c, -, -, h⟩ <;>
      obtain rfl := Host.Outcome.next.inj (h.symm.trans he)
    · exact State.raise_touchedBy _
    · exact State.raise_touchedBy _
    · exact State.touchedBy_of_setDigest rfl rfl rfl rfl fun _ => rfl
  · obtain rfl := Host.Outcome.next.inj ((exec_digest_eq s data).symm.trans he)
    exact State.touchedBy_of_slots_eq rfl rfl rfl fun _ => rfl
  · rcases exec_hmacInit_cases s ctx key with ⟨-, h⟩ | ⟨k, -, h⟩ <;> obtain rfl := Host.Outcome.next.inj (h.symm.trans he)
    · exact State.raise_touchedBy _
    · exact State.touchedBy_of_setHmac rfl rfl rfl rfl fun _ => rfl
  · rcases exec_hmacUpdate_cases s ctx data with ⟨-, h⟩ | ⟨k, -, -, h⟩ | ⟨k, -, -, h⟩ <;>
      obtain rfl := Host.Outcome.next.inj (h.symm.trans he)
    · exact State.raise_touchedBy _
    · exact State.raise_touchedBy _
    · exact State.touchedBy_of_setHmac (h := hmacUpdateOp k data) rfl (by simp) (by simp) (by simp)
        (State.retireCoreIf_idle (s := s.setHmac ctx.toNat _) _)
  · rcases exec_hmacFinish_cases s ctx with ⟨-, h⟩ | ⟨k, -, -, h⟩ | ⟨k, -, -, h⟩ <;>
      obtain rfl := Host.Outcome.next.inj (h.symm.trans he)
    · exact State.raise_touchedBy _
    · exact State.raise_touchedBy _
    · exact State.touchedBy_of_setHmac rfl rfl rfl rfl fun _ => rfl
  · obtain rfl := Host.Outcome.next.inj ((exec_hmac_eq s data key).symm.trans he)
    exact State.touchedBy_of_slots_eq rfl rfl rfl fun _ => rfl
  · rcases exec_step_cases hk s with ⟨-, ⟨-, h⟩ | ⟨block, q, -, h⟩⟩
    · cases h.symm.trans he
    · obtain rfl := Host.Outcome.next.inj (h.symm.trans he)
      exact State.touchedBy_of_slots_eq rfl rfl rfl id

/-! ### What a packet feeds to a slot (R168) -/

/-- The bytes that one instruction feeds to Digest slot `ctx`. -/
def fedTo (ctx : BitVec 4) (i : Instr) : List Byte :=
  match i with
  | .update slot data => if slot = ctx then data else []
  | _ => []

section
variable {cfg : Config} {ctx : BitVec 4} {p : List Byte} (rest : List (List Byte))

theorem messageTo_cons_of_ok {i : Instr} (h : decodePacket cfg p = .ok i) :
    messageTo cfg ctx (p :: rest) = fedTo ctx i ++ messageTo cfg ctx rest := by
  rw [messageTo, h]
  cases i <;> rfl

theorem messageTo_cons_of_error {e : ErrCode} (h : decodePacket cfg p = .error e) :
    messageTo cfg ctx (p :: rest) = messageTo cfg ctx rest := by
  rw [messageTo, h]

theorem messageTo_cons : messageTo cfg ctx (p :: rest) = messageTo cfg ctx [p] ++ messageTo cfg ctx rest := by
  cases h : decodePacket cfg p with
  | ok i => rw [messageTo_cons_of_ok rest h, messageTo_cons_of_ok [] h, messageTo, List.append_nil]
  | error e => rw [messageTo_cons_of_error rest h, messageTo_cons_of_error [] h, messageTo, List.nil_append]

end

/-- R62: the three commands that name a Digest slot. -/
theorem digestSlotOf_eq_some_iff (i : Instr) (ctx : BitVec 4) :
    digestSlotOf i = some ctx.toNat ↔ i = .init ctx ∨ (∃ data, i = .update ctx data) ∨ i = .finish ctx := by
  cases i <;> simp [digestSlotOf, BitVec.toNat_inj]

theorem fedTo_of_not_named {i : Instr} {ctx : BitVec 4} (h : digestSlotOf i ≠ some ctx.toNat) : fedTo ctx i = [] := by
  unfold fedTo
  split
  · next slot data => exact if_neg fun hs => h (by rw [hs, digestSlotOf])
  · rfl

/-- An instruction other than `INIT` and `FINISH` of a slot appends to the message that the slot holds what it feeds to it. -/
theorem exec_holds {s t : State} {i : Instr} {ctx : BitVec 4} {c : DigestCtx} {m : List Byte} (he : exec i s = .next t)
    (hwf : i.wf s.config = true) (hinit : i ≠ .init ctx) (hfin : i ≠ .finish ctx) (hc : s.dc[ctx.toNat]? = some c)
    (hm : c.Holds m) : ∃ d, t.dc[ctx.toNat]? = some d ∧ d.Holds (m ++ fedTo ctx i) := by
  by_cases hn : digestSlotOf i = some ctx.toNat
  · rcases (digestSlotOf_eq_some_iff i ctx).mp hn with rfl | ⟨data, rfl⟩ | rfl
    · exact absurd rfl hinit
    · have hlen : data.length < 2 ^ 32 := of_decide_eq_true (Bool.and_eq_true_iff.mp hwf).2
      obtain rfl := Host.Outcome.next.inj ((exec_update_of_active data hc hm.1).symm.trans he)
      refine ⟨updateOp c data, by simpa using State.setDigest_slot (updateOp c data) hc, ?_⟩
      rw [fedTo, if_pos rfl]
      exact updateOp_holds hlen hm
    · exact absurd rfl hfin
  · refine ⟨c, ((exec_touches he).dc _ hn).trans hc, ?_⟩
    rw [fedTo_of_not_named hn, List.append_nil]
    exact hm

/-! ### A slot that holds its message, along a run -/

/-- An idle engine with the slot counts `cfg`, whose response stream has `n` packets and whose Digest slot `ctx` holds `m`. -/
structure State.HoldsAt (s : State) (cfg : Config) (ctx : BitVec 4) (m : List Byte) (n : Nat) : Prop where
  config : s.config = cfg
  idle : s.job = none
  answered : s.responses.length = n
  slot : ∃ c, s.dc[ctx.toNat]? = some c ∧ c.Holds m

/-- The packets among which determinism is stated: any but `INIT` and `FINISH` of the slot (R168). -/
def KeepsMessage (cfg : Config) (ctx : BitVec 4) (p : List Byte) : Prop :=
  decodePacket cfg p ≠ .ok (.init ctx) ∧ decodePacket cfg p ≠ .ok (.finish ctx)

theorem pendingReset_map_packet (ps : List (List Byte)) : pendingReset (ps.map HostEvent.packet) = none := by
  induction ps with
  | nil => rfl
  | cons p rest ih => exact ih

section
variable {s : State} {p : List Byte} {rest : List (List Byte)} (hj : s.job = none)
  (hi : s.inputs = (p :: rest).map HostEvent.packet)
include hj hi

/-- An idle engine that has been sent packets only takes the first. -/
theorem step_of_packets : step s = runPacket p { s with inputs := rest.map HostEvent.packet } :=
  step_of_packet hj (hi ▸ pendingReset_map_packet (p :: rest)) hi

theorem step_of_packets_error {e : ErrCode} (h : decodePacket s.config p = .error e) :
    step s = .next (State.raise { s with inputs := rest.map HostEvent.packet } e) :=
  (step_of_packets hj hi).trans (runPacket_of_error _ h)

theorem step_of_packets_ok {i : Instr} (h : decodePacket s.config p = .ok i) :
    step s = exec i { s with inputs := rest.map HostEvent.packet } :=
  (step_of_packets hj hi).trans (runPacket_of_ok _ h)

end

/-- A step on one of these packets answers it, and the slot holds what the packet fed to it too. -/
theorem step_holdsAt {s : State} {cfg : Config} {ctx : BitVec 4} {m p : List Byte} {n : Nat} {rest : List (List Byte)}
    (h : s.HoldsAt cfg ctx m n) (hi : s.inputs = (p :: rest).map HostEvent.packet) (hp : KeepsMessage cfg ctx p) :
    ∃ t, step s = .next t ∧ t.inputs = rest.map HostEvent.packet ∧
      t.HoldsAt cfg ctx (m ++ messageTo cfg ctx [p]) (n + 1) := by
  obtain ⟨rfl, hidle, hanswered, c, hc, hm⟩ := h
  cases hd : decodePacket s.config p with
  | error e =>
    refine ⟨_, step_of_packets_error hidle hi hd, rfl, rfl, hidle, by simp [hanswered], c, hc, ?_⟩
    rw [messageTo_cons_of_error [] hd, messageTo, List.append_nil]
    exact hm
  | ok i =>
    obtain ⟨t, he, hlen⟩ : ∃ t, exec i { s with inputs := rest.map HostEvent.packet } = .next t ∧
        t.responses.length = n + 1 := by
      rcases exec_decoded_answers { s with inputs := rest.map HostEvent.packet } hd with he | ⟨t, digest, he, ha, -⟩
      · exact ⟨_, he, by simp [hanswered]⟩
      · exact ⟨t, he, by simp [ha.responses, hanswered]⟩
    have hkept := exec_touches he
    refine ⟨t, (step_of_packets_ok hidle hi hd).trans he, hkept.inputs, hkept.config, hkept.idle hidle, hlen, ?_⟩
    rw [messageTo_cons_of_ok [] hd, messageTo, List.append_nil]
    exact exec_holds he (wf_of_decodePacket hd) (fun heq => hp.1 (heq ▸ hd)) (fun heq => hp.2 (heq ▸ hd)) hc hm

/-- One step for each packet, and the slot holds what they fed to it. -/
theorem run_holdsAt {s : State} {cfg : Config} {ctx : BitVec 4} {m : List Byte} {n : Nat} {ps later : List (List Byte)}
    (h : s.HoldsAt cfg ctx m n) (hi : s.inputs = (ps ++ later).map HostEvent.packet)
    (hps : ∀ p ∈ ps, KeepsMessage cfg ctx p) :
    ∃ t : State, Host.Core.run Sys2Proof.core ps.length s = .next t ∧ t.inputs = later.map HostEvent.packet ∧
      t.HoldsAt cfg ctx (m ++ messageTo cfg ctx ps) (n + ps.length) := by
  induction ps generalizing s m n with
  | nil =>
    refine ⟨s, rfl, hi, ?_⟩
    rw [messageTo, List.append_nil]
    exact h
  | cons p rest ih =>
    rw [List.forall_mem_cons] at hps
    obtain ⟨t, hstep, hti, ht⟩ := step_holdsAt h hi hps.1
    obtain ⟨u, hu, hui, hheld⟩ := ih ht hti hps.2
    refine ⟨u, ?_, hui, ?_⟩
    · rw [List.length_cons, Nat.add_comm]
      exact (run_add _ _ _ _ _ (run_one hstep)).trans hu
    · rw [messageTo_cons, ← List.append_assoc, List.length_cons, Nat.add_comm rest.length, ← Nat.add_assoc]
      exact hheld

/-! ### From `INIT` to `FINISH` -/

/-- The packet of a command of format N is its header. -/
theorem decodePacket_headerBytes {cfg : Config} {op : Opcode} {ctx : BitVec 4} {i : Instr}
    (hs : SlotNamed cfg (opcodeNumber op).toNat ctx.toNat) (ha : assemble op ctx (headerBytes op ctx) = some i) :
    decodePacket cfg (headerBytes op ctx) = .ok i := by
  have hop := hdrOp_headerBytes op ctx []
  have hctx := hdrCtx_headerBytes op ctx []
  have hr := hdrRsvd_headerBytes op ctx []
  rw [List.append_nil] at hop hctx hr
  exact decodePacket_of_assembled (by simp) (by rw [hop, opcodeOf_opcodeNumber]) hr (by rwa [hctx]) (by rwa [hctx])

section
variable {cfg : Config} {ctx : BitVec 4} (h : ctx.toNat < cfg.nDctx)
include h

theorem decodePacket_init : decodePacket cfg (headerBytes .init ctx) = .ok (.init ctx) :=
  decodePacket_headerBytes (by simpa [SlotNamed, opcodeNumber] using h) rfl

theorem decodePacket_finish : decodePacket cfg (headerBytes .finish ctx) = .ok (.finish ctx) :=
  decodePacket_headerBytes (by simpa [SlotNamed, opcodeNumber] using h) rfl

end

section
variable {s : State} {ctx : BitVec 4} {rest : List (List Byte)}

/-- `INIT` of a slot makes it hold the empty message, whatever it held before. -/
theorem step_init_holdsAt (hj : s.job = none) (hlt : ctx.toNat < s.dc.length)
    (hi : s.inputs = (headerBytes .init ctx :: rest).map HostEvent.packet) :
    ∃ t, step s = .next t ∧ t.inputs = rest.map HostEvent.packet ∧ t.HoldsAt s.config ctx [] (s.responses.length + 1) := by
  have hc := List.getElem?_eq_getElem hlt
  have he := exec_init_of_slot (s := { s with inputs := rest.map HostEvent.packet }) hc
  have hkept := exec_touches he
  exact ⟨_, (step_of_packets_ok hj hi (decodePacket_init hlt)).trans he, rfl, hkept.config, hkept.idle hj, by simp, _,
    State.setDigest_slot _ hc, initOp_holds _⟩

/-- `FINISH` of a slot answers the digest of the message that the slot holds. -/
theorem step_finish_of_holdsAt {cfg : Config} {m : List Byte} {n : Nat} (h : s.HoldsAt cfg ctx m n)
    (hi : s.inputs = (headerBytes .finish ctx :: rest).map HostEvent.packet) :
    ∃ t, step s = .next t ∧ t.inputs = rest.map HostEvent.packet ∧ t.responses.length = n + 1 ∧
      t.responses.getLast? = some (okBytes t.fault ++ md4Closed m) := by
  obtain ⟨-, hidle, hanswered, c, hc, hm⟩ := h
  have hlt : ctx.toNat < s.config.nDctx := (List.getElem?_eq_some_iff.mp hc).1
  have he := exec_finish_of_active (s := { s with inputs := rest.map HostEvent.packet }) hc hm.1
  refine ⟨_, (step_of_packets_ok hidle hi (decodePacket_finish hlt)).trans he, rfl, by simp [hanswered], ?_⟩
  rw [State.respondOk_responses_eq, List.getLast?_concat, digestOf_finishOp_of_holds hm]
  rfl

/-- `INIT`, the packets between and `FINISH` take a step each, with what the slot holds carried through. -/
theorem run_init_packets_finish {ps : List (List Byte)} (hj : s.job = none) (hlt : ctx.toNat < s.dc.length)
    (hi : s.inputs = (headerBytes .init ctx :: (ps ++ [headerBytes .finish ctx])).map HostEvent.packet)
    (hps : ∀ p ∈ ps, KeepsMessage s.config ctx p) :
    ∃ t : State, Host.Core.run Sys2Proof.core (ps.length + 2) s = .next t ∧ t.inputs = [] ∧
      t.responses.length = s.responses.length + ps.length + 2 ∧
      t.responses.getLast? = some (okBytes t.fault ++ md4Closed (messageTo s.config ctx ps)) := by
  obtain ⟨t₁, hinit, hi₁, hheld₁⟩ := step_init_holdsAt hj hlt hi
  obtain ⟨t₂, hmiddle, hi₂, hheld₂⟩ := run_holdsAt hheld₁ hi₁ hps
  obtain ⟨t₃, hfinish, hi₃, hanswered, hlast⟩ := step_finish_of_holdsAt hheld₂ hi₂
  refine ⟨t₃, ?_, hi₃, by omega, hlast⟩
  calc Host.Core.run Sys2Proof.core (ps.length + 2) s
      = Host.Core.run Sys2Proof.core (1 + (ps.length + 1)) s := by rw [Nat.add_comm 1]
    _ = Host.Core.run Sys2Proof.core (ps.length + 1) t₁ := run_add _ _ _ _ _ (run_one hinit)
    _ = Host.Core.run Sys2Proof.core 1 t₂ := run_add _ _ _ _ _ hmiddle
    _ = .next t₃ := run_one hfinish

end

/-- Settles O31: the response to `FINISH` is the digest of what the slot holds, and only its own `UPDATE`s feed it. -/
theorem digestDependsOnlyOnTheMessage : Obligations.DigestDependsOnlyOnTheMessage := by
  intro s ctx ps hj hlt hps
  exact run_init_packets_finish (s := { s with inputs := _ }) hj hlt (by simp) hps

end Sys2Proof.Machine
end

section
/-!
The One-Shot Wrapper (spec/43_oneshot.md): `DIGEST` in closed form, the stream `INIT`, `UPDATE`s, `FINISH` as a sequence of
commands on one slot, and that the two agree.
-/

namespace Sys2Proof.Machine

/-! ### `DIGEST` (R180) -/

/-- The body of `DIGEST` is that of a stream with one `UPDATE`, on a transient context (R180, R181). -/
theorem md4_eq_md4Closed {data : List Byte} (h : data.length < 2 ^ 32) : md4 data = md4Closed data :=
  digestOf_finishOp_of_holds (updateOp_holds h (initOp_holds transientCtx))

/-- Settles O35: the core is used and the digest answered, and nothing else is written. -/
theorem digestCompletes : Obligations.DigestCompletes := by
  intro s data hlen
  refine ⟨_, exec_digest_eq s data, ?_, rfl, rfl, rfl, rfl, fun _ => rfl⟩
  rw [State.respondOk_responses_eq, md4_eq_md4Closed hlen]
  rfl

/-! ### A stream of commands on one slot -/

section
variable {s : State} {ctx : BitVec 4} {chunks : List (List Byte)}

/-- `UPDATE`s of a slot that holds a message are answered one by one, and the slot then holds their operands too. -/
theorem execAll_updates_of_holds (later : List Instr) {c : DigestCtx} {m : List Byte}
    (hlen : ∀ d ∈ chunks, d.length < 2 ^ 32) (hc : s.dc[ctx.toNat]? = some c) (hm : c.Holds m) :
    ∃ (t : State) (d : DigestCtx), execAll (chunks.map (Instr.update ctx) ++ later) s = execAll later t ∧
      t.dc[ctx.toNat]? = some d ∧ d.Holds (m ++ chunks.flatten) ∧ t.fault = s.fault ∧
      t.responses = s.responses ++ List.replicate chunks.length (okBytes s.fault) := by
  induction chunks generalizing s c m with
  | nil => exact ⟨s, c, rfl, hc, by rwa [List.flatten_nil, List.append_nil], rfl, (List.append_nil _).symm⟩
  | cons data rest ih =>
    rw [List.forall_mem_cons] at hlen
    obtain ⟨t, d, hrun, hd, hheld, hfault, hanswered⟩ :=
      ih (s := ((s.setDigest ctx.toNat (updateOp c data)).retireCoreIf (compresses c data.length)).respondOk [])
        hlen.2 (by simpa using State.setDigest_slot (updateOp c data) hc) (updateOp_holds hlen.1 hm)
    refine ⟨t, d, (execAll_cons_of_next (exec_update_of_active data hc hm.1)).trans hrun, hd, ?_, ?_, ?_⟩
    · rwa [List.flatten_cons, ← List.append_assoc]
    · simpa using hfault
    · simpa [okBytes_eq, List.replicate_succ] using hanswered

/-- `INIT`, `UPDATE`s and `FINISH` of one slot: every command is answered, the last with the digest of the concatenated operands,
which is that of the words the slot keeps. -/
theorem execAll_init_updates_finish (hlt : ctx.toNat < s.dc.length) (hlen : ∀ d ∈ chunks, d.length < 2 ^ 32) :
    ∃ (t : State) (d : DigestCtx),
      execAll (.init ctx :: (chunks.map (Instr.update ctx) ++ [.finish ctx])) s = .next t ∧
      t.dc[ctx.toNat]? = some d ∧ d.phase = .terminal ∧ digestBytes d.h = md4Closed chunks.flatten ∧ t.fault = s.fault ∧
      t.responses = s.responses ++ List.replicate (chunks.length + 1) (okBytes s.fault) ++
        [okBytes s.fault ++ md4Closed chunks.flatten] := by
  have hc := List.getElem?_eq_getElem hlt
  obtain ⟨t, d, hrun, hd, hheld, hfault, hanswered⟩ :=
    execAll_updates_of_holds (chunks := chunks) [.finish ctx] hlen
      (s := (s.setDigest ctx.toNat (initOp s.dc[ctx.toNat])).respondOk []) (State.setDigest_slot _ hc) (initOp_holds _)
  have hdigest : digestOf (finishOp d) = md4Closed chunks.flatten := digestOf_finishOp_of_holds hheld
  refine ⟨_, finishOp d,
    (execAll_cons_of_next (exec_init_of_slot hc)).trans
      (hrun.trans (execAll_singleton_of_next (exec_finish_of_active hd hheld.1))),
    State.setDigest_slot _ hd, finishOp_phase d, hdigest, hfault, ?_⟩
  rw [State.respondOk_responses_eq, hdigest]
  simp [hanswered, hfault, okBytes_eq, List.replicate_succ]

end

/-- Settles O36: both answer the closed form, the stream from the words that its slot keeps. -/
theorem oneShotEqualsStreaming : Obligations.OneShotEqualsStreaming := by
  intro s ctx chunks hlt hlen
  have hpieces : ∀ d ∈ chunks, d.length < 2 ^ 32 := fun d hd =>
    (List.sublist_flatten_of_mem hd).length_le.trans_lt hlen
  obtain ⟨t, d, hrun, hd, hterminal, hdigest, -, hanswered⟩ := execAll_init_updates_finish hlt hpieces
  obtain ⟨u, hexec, hresponses, hdc, hhc, -⟩ := digestCompletes s chunks.flatten hlen
  refine ⟨t, u, d, hrun, hexec, ?_, ?_, hd, hterminal, hdc, hhc⟩
  · rw [hanswered, List.getLast?_concat, hdigest]
  · rw [hresponses, List.getLast?_concat, hdigest]

end Sys2Proof.Machine
end

section
/-!
The bodies of the HMAC commands (spec/44_hmac.md sections 1 to 3): the effective key and the pads in closed form, and what an HMAC
context holds on the way from `HMAC_INIT` to `HMAC_FINISH`.
-/

namespace Sys2Proof.Machine

/-! ### The effective key and the pads (R185, R186) -/

theorem effectiveKey_eq_closed {key : List Byte} (h : key.length < 2 ^ 32) : effectiveKey key = effectiveKeyClosed key := by
  rw [effectiveKey, effectiveKeyClosed, md4_eq_md4Closed h]

theorem ipadBlock_eq_closed {key : List Byte} (h : key.length < 2 ^ 32) :
    ipadBlock key = xorByte (effectiveKeyClosed key) 0x36 := by
  rw [ipadBlock, effectiveKey_eq_closed h]

theorem opadBlock_eq_closed {key : List Byte} (h : key.length < 2 ^ 32) :
    opadBlock key = xorByte (effectiveKeyClosed key) 0x5C := by
  rw [opadBlock, effectiveKey_eq_closed h]

theorem effectiveKeyClosed_of_short {key : List Byte} (h : key.length ≤ 64) :
    effectiveKeyClosed key = key ++ zeros (64 - key.length) :=
  if_neg (Nat.not_lt.mpr h)

theorem effectiveKeyClosed_of_long {key : List Byte} (h : 64 < key.length) :
    effectiveKeyClosed key = md4Closed key ++ zeros 48 :=
  if_pos h

@[simp] theorem length_md4Closed (m : List Byte) : (md4Closed m).length = 16 := length_digestBytes _

@[simp] theorem length_effectiveKeyClosed (key : List Byte) : (effectiveKeyClosed key).length = 64 := by
  by_cases h : 64 < key.length
  · simp [effectiveKeyClosed_of_long h]
  · simp [effectiveKeyClosed_of_short (Nat.not_lt.mp h)]
    omega

/-- Settles O37: the two branches of the fold, with the digest in closed form. -/
theorem effectiveKeyIsSixtyFourBytes : Obligations.EffectiveKeyIsSixtyFourBytes := by
  intro key hlen
  rw [effectiveKey_eq_closed hlen]
  exact ⟨length_effectiveKeyClosed key, effectiveKeyClosed_of_short, effectiveKeyClosed_of_long⟩

/-! ### A key over 64 bytes and its digest (R191) -/

section
variable {key : List Byte} (h : 64 < key.length)
include h

/-- A digest has 16 bytes, so as a key it is padded and not digested again. -/
theorem effectiveKeyClosed_digest : effectiveKeyClosed (md4Closed key) = effectiveKeyClosed key := by
  rw [effectiveKeyClosed_of_long h, effectiveKeyClosed_of_short (by simp), length_md4Closed]

/-- The padded digest has 64 bytes, so as a key it stays as it is. -/
theorem effectiveKeyClosed_paddedDigest :
    effectiveKeyClosed (md4Closed key ++ zeros 48) = effectiveKeyClosed key := by
  rw [effectiveKeyClosed_of_long h, effectiveKeyClosed_of_short (by simp)]
  simp [zeros, rep]

end

/-- HMAC in closed form reads the effective key and not the key. -/
theorem hmacClosed_congr {key key' : List Byte} (h : effectiveKeyClosed key = effectiveKeyClosed key') (m : List Byte) :
    hmacClosed key m = hmacClosed key' m := by
  rw [hmacClosed, hmacClosed, h]

section
variable {key key' : List Byte} (h : effectiveKey key = effectiveKey key')
include h

/-- `HMAC_INIT` reads the effective key and not the key: both pads come from the effective key. -/
theorem hmacInitOp_congr (k : HmacCtx) : hmacInitOp k key = hmacInitOp k key' := by
  simp only [hmacInitOp, ipadBlock, opadBlock, h]

theorem exec_hmacInit_congr (ctx : BitVec 4) (s : State) : exec (.hmacInit ctx key) s = exec (.hmacInit ctx key') s := by
  simp only [exec, execHmacInit, hmacInitOp_congr h]

theorem exec_hmac_congr (data : List Byte) (s : State) : exec (.hmac key data) s = exec (.hmac key' data) s := by
  rw [exec_hmac_eq, exec_hmac_eq, hmacMd4, hmacMd4, hmacInitOp_congr h]

end

/-- Settles O44: each of the two commands answers the same state under both keys, whether or not the slot exists. -/
theorem keyFoldingEquivalence : Obligations.KeyFoldingEquivalence := by
  intro key m s ctx hlong hlen
  have hfold : effectiveKey key = effectiveKey (md4Closed key) := by
    rw [effectiveKey_eq_closed hlen, effectiveKey_eq_closed (by simp), effectiveKeyClosed_digest hlong]
  refine ⟨hmacClosed_congr (effectiveKeyClosed_paddedDigest hlong).symm m,
    hmacClosed_congr (effectiveKeyClosed_digest hlong).symm m, ?_, ?_⟩
  · rw [exec_hmacInit_congr hfold]
    rcases exec_hmacInit_cases s ctx (md4Closed key) with ⟨-, he⟩ | ⟨k, -, he⟩
    · exact ⟨_, _, he, he, rfl, rfl, rfl, rfl, rfl⟩
    · exact ⟨_, _, he, he, rfl, rfl, rfl, rfl, rfl⟩
  · rw [exec_hmac_congr hfold]
    exact ⟨_, _, exec_hmac_eq s m _, exec_hmac_eq s m _, rfl, rfl, rfl, rfl, rfl⟩

/-! ### What a context with a short message holds, field by field (R16, R20) -/

/-- A count below 2^32 stands in the low word. -/
theorem DigestCtx.words_of_count_lt {c : DigestCtx} {n : Nat} (hc : c.count = n) (hn : n < 2 ^ 32) :
    c.lo = BitVec.ofNat 32 n ∧ c.hi = 0 := by
  have hlo := c.lo.isLt
  rw [DigestCtx.count] at hc
  refine ⟨BitVec.eq_of_toNat_eq ?_, BitVec.eq_of_toNat_eq ?_⟩
  · rw [BitVec.toNat_ofNat]
    omega
  · change c.hi.toNat = 0
    omega

theorem blockChain_one {block : List Byte} (s : Quad) (h : block.length = 64) :
    blockChain 1 s block = compressWords s (blockWord block) := by
  rw [blockChain, blockChain, List.take_of_length_le h.le]

/-- A context that holds one whole block has compressed it and buffers nothing. -/
theorem DigestCtx.Holds.fields_of_block {c : DigestCtx} {block : List Byte} (hc : c.Holds block) (h : block.length = 64) :
    c.h = compressWords initialWords (blockWord block) ∧ c.lo = 64 ∧ c.hi = 0 ∧ c.fill = 0 := by
  obtain ⟨-, hcount, hfill, hh, -⟩ := hc
  rw [h] at hcount hfill hh
  obtain ⟨hlo, hhi⟩ := DigestCtx.words_of_count_lt hcount (by decide)
  exact ⟨hh.trans (blockChain_one _ h), hlo, hhi, BitVec.eq_of_toNat_eq hfill⟩

/-- `FINISH` leaves the last block of the padded message in `BUF` (R164). -/
theorem finishOp_residue_of_holds {c : DigestCtx} {m : List Byte} (hc : c.Holds m) :
    (finishOp c).buf.readBytes 0 64 = (paddedMessage m).drop ((paddedMessage m).length - 64) := by
  obtain ⟨-, hcount, hfill, -, hbuf⟩ := hc
  obtain ⟨-, -, -, -, hlen, -, hresidue⟩ := finishOp_finishesTo c
  have hle : 64 * (m.length / 64) ≤ m.length := Nat.mul_div_le _ _
  have hall : m.drop (64 * (m.length / 64)) ++ [0x80] ++ zeros ((55 + 64 - m.length % 64) % 64) ++ lengthBytes m.length =
      (paddedMessage m).drop (64 * (m.length / 64)) := by
    simp only [paddedMessage, zeroCount, List.append_assoc]
    rw [List.drop_append_of_le_length hle]
  have hblock : 64 ≤ (if c.fill.toNat ≤ 55 then 64 else 128) := by split <;> decide
  rw [← hlen] at hblock
  rw [hfill, hbuf, hcount, lengthBytes_mod, hall] at hblock hresidue
  rw [hresidue, List.drop_drop, List.length_drop]
  rw [List.length_drop] at hblock
  congr 1
  omega

/-! ### What an HMAC context holds (R23, R189) -/

theorem hmacInitOp_holds (h : HmacCtx) {key : List Byte} (hlen : key.length < 2 ^ 32) : (hmacInitOp h key).Holds key [] := by
  refine ⟨?_, by rw [hmacInitOp_opad, opadBlock_eq_closed hlen]⟩
  rw [List.append_nil, hmacInitOp_inner, ← ipadBlock_eq_closed hlen]
  exact updateOp_holds (by simp) (initOp_holds h.inner)

theorem hmacInitOp_inner_phase (h : HmacCtx) (key : List Byte) : (hmacInitOp h key).inner.phase = .active :=
  updateOp_phase (initOp h.inner) (ipadBlock key)

theorem hmacUpdateOp_holds {h : HmacCtx} {key m data : List Byte} (hlen : data.length < 2 ^ 32) (hh : h.Holds key m) :
    (hmacUpdateOp h data).Holds key (m ++ data) := by
  obtain ⟨hinner, hopad⟩ := hh
  refine ⟨?_, by rw [hmacUpdateOp_opad, hopad]⟩
  rw [hmacUpdateOp_inner, ← List.append_assoc]
  exact updateOp_holds hlen hinner

/-! ### The outer message (R188) -/

/-- The context that `HMAC_FINISH` finishes to get the tag: a fresh `OUTER` that has absorbed `OPAD` and the inner digest. -/
def outerFed (h : HmacCtx) : DigestCtx :=
  updateOp (updateOp (initOp h.outer) (h.opad.readBytes 0 64)) (digestOf (finishOp h.inner))

theorem hmacFinishOp_outer_eq (h : HmacCtx) : (hmacFinishOp h).outer = finishOp (outerFed h) := hmacFinishOp_outer h

/-- The outer message: `OPAD || D`, 80 bytes. -/
def outerMessage (h : HmacCtx) : List Byte := h.opad.readBytes 0 64 ++ digestOf (finishOp h.inner)

@[simp] theorem length_outerMessage (h : HmacCtx) : (outerMessage h).length = 80 := by simp [outerMessage]

theorem length_paddedMessage_outerMessage (h : HmacCtx) : (paddedMessage (outerMessage h)).length = 128 := by
  simp [paddedMessage, zeroCount, lengthBytes]

theorem outerFed_holds (h : HmacCtx) : (outerFed h).Holds (outerMessage h) :=
  updateOp_holds (by simp) (updateOp_holds (by simp) (initOp_holds h.outer))

theorem outerFed_words (h : HmacCtx) : (outerFed h).lo = 80 ∧ (outerFed h).hi = 0 := by
  obtain ⟨-, hcount, -⟩ := outerFed_holds h
  rw [length_outerMessage] at hcount
  exact DigestCtx.words_of_count_lt hcount (by decide)

theorem tagOf_hmacFinishOp (h : HmacCtx) : tagOf (hmacFinishOp h) = md4Closed (outerMessage h) := by
  rw [tagOf, hmacFinishOp_outer_eq, digestOf_finishOp_of_holds (outerFed_holds h)]

theorem hmacFinishOp_outer_residue (h : HmacCtx) :
    (hmacFinishOp h).outer.buf.readBytes 0 64 = (paddedMessage (outerMessage h)).drop 64 := by
  rw [hmacFinishOp_outer_eq, finishOp_residue_of_holds (outerFed_holds h), length_paddedMessage_outerMessage]

theorem tagOf_hmacFinishOp_of_holds {h : HmacCtx} {key m : List Byte} (hh : h.Holds key m) :
    tagOf (hmacFinishOp h) = hmacClosed key m := by
  obtain ⟨hinner, hopad⟩ := hh
  rw [tagOf_hmacFinishOp, outerMessage, hopad, digestOf_finishOp_of_holds hinner, hmacClosed]

/-- The body of `HMAC` is the three streaming bodies on a transient context (R190). -/
theorem hmacMd4_eq_hmacClosed {key data : List Byte} (hkey : key.length < 2 ^ 32) (hdata : data.length < 2 ^ 32) :
    hmacMd4 key data = hmacClosed key data :=
  tagOf_hmacFinishOp_of_holds (hmacUpdateOp_holds hdata (hmacInitOp_holds transientHmac hkey))

end Sys2Proof.Machine
end

section
/-!
The HMAC commands on the engine (spec/44_hmac.md): `HMAC_INIT`, `HMAC_UPDATE` and `HMAC_FINISH` by the phase of the slot they name,
`HMAC` on a transient context, and the lifecycle of a slot.
-/

namespace Sys2Proof.Machine

/-! ### The commands, by the phase of their slot -/

section
variable {s : State} {ctx : BitVec 4} {h : HmacCtx} (data : List Byte)

theorem exec_hmacInit_of_slot (key : List Byte) (hh : s.hc[ctx.toNat]? = some h) :
    exec (.hmacInit ctx key) s = .next ((s.setHmac ctx.toNat (hmacInitOp h key)).retireCore.respondOk []) := by
  simp [exec, execHmacInit, hh]

theorem exec_hmacUpdate_of_inactive (hh : s.hc[ctx.toNat]? = some h) (hp : h.inner.phase ≠ .active) :
    exec (.hmacUpdate ctx data) s = .next (s.raise .ctxState) := by
  simp [exec, execHmacUpdate, hh, isActive, hp]

theorem exec_hmacUpdate_of_active (hh : s.hc[ctx.toNat]? = some h) (hp : h.inner.phase = .active) :
    exec (.hmacUpdate ctx data) s =
      .next (((s.setHmac ctx.toNat (hmacUpdateOp h data)).retireCoreIf (compresses h.inner data.length)).respondOk []) := by
  simp [exec, execHmacUpdate, hh, isActive, hp]

theorem exec_hmacFinish_of_inactive (hh : s.hc[ctx.toNat]? = some h) (hp : h.inner.phase ≠ .active) :
    exec (.hmacFinish ctx) s = .next (s.raise .ctxState) := by
  simp [exec, execHmacFinish, hh, isActive, hp]

theorem exec_hmacFinish_of_active (hh : s.hc[ctx.toNat]? = some h) (hp : h.inner.phase = .active) :
    exec (.hmacFinish ctx) s =
      .next ((s.setHmac ctx.toNat (hmacFinishOp h)).retireCore.respondOk (tagOf (hmacFinishOp h))) := by
  simp [exec, execHmacFinish, hh, isActive, hp]

/-- An HMAC slot that the engine has reads back what is written to it. -/
theorem State.setHmac_slot (k : HmacCtx) (hh : s.hc[ctx.toNat]? = some h) :
    (s.setHmac ctx.toNat k).hc[ctx.toNat]? = some k := by
  simp [(List.getElem?_eq_some_iff.mp hh).1]

end

/-- Settles O38: `INNER` holds the inner pad block and nothing else, in whatever phase the slot was. -/
theorem hmacInitCompletes : Obligations.HmacInitCompletes := by
  intro s ctx key h hh hlen
  obtain ⟨hinner, hopad⟩ := hmacInitOp_holds h hlen
  rw [List.append_nil] at hinner
  obtain ⟨hwords, hlo, hhi, hfill⟩ := hinner.fields_of_block (by simp)
  exact ⟨_, hmacInitOp h key, exec_hmacInit_of_slot key hh, hopad, hwords, hlo, hhi, hfill, hinner.1,
    hmacInitOp_outer h key, rfl, rfl, rfl, rfl, State.respondOk_responses_eq _ [], fun _ => rfl⟩

/-- Settles O39: the body is that of `UPDATE` on `INNER`. -/
theorem hmacUpdateCompletes : Obligations.HmacUpdateCompletes := by
  intro s ctx data h hh hlen
  refine ⟨fun hp => ?_, fun hp => ?_⟩
  · refine ⟨_, updateOp h.inner data, exec_hmacUpdate_of_active data hh hp, updateOp_absorbsTo h.inner hlen, ?_, by simp,
      by simp, by simp, by simp [okBytes_eq], State.retireCoreIf_idle (s := s.setHmac ctx.toNat _) _⟩
    simp [hmacUpdateOp]
  · rw [exec_hmacUpdate_of_inactive data hh hp, raise_eq]

/-- Settles O40: `INNER` is finished, and `OUTER` is the finish of a context that holds `OPAD || D`. -/
theorem hmacFinishCompletes : Obligations.HmacFinishCompletes := by
  intro s ctx h hh
  refine ⟨fun hp => ?_, fun hp => ?_⟩
  · obtain ⟨hlo, hhi⟩ := outerFed_words h
    exact ⟨_, hmacFinishOp h, exec_hmacFinish_of_active hh hp, finishOp_finishesTo h.inner, tagOf_hmacFinishOp h,
      (finishOp_lo _).trans hlo, (finishOp_hi _).trans hhi, finishOp_fill _, finishOp_phase _,
      hmacFinishOp_outer_residue h, hmacFinishOp_opad h, rfl, rfl, rfl, rfl, State.respondOk_responses_eq _ _, fun _ => rfl⟩
  · rw [exec_hmacFinish_of_inactive hh hp, raise_eq]

/-- Settles O41: the core is used and the tag answered, and nothing else is written. -/
theorem hmacOneShotCompletes : Obligations.HmacOneShotCompletes := by
  intro s key data hkey hdata
  refine ⟨_, exec_hmac_eq s data key, ?_, rfl, rfl, rfl, rfl, fun _ => rfl⟩
  rw [State.respondOk_responses_eq, hmacMd4_eq_hmacClosed hkey hdata]
  rfl

/-! ### The lifecycle (R192) -/

/-- Settles O45: the three rows of the table, the two inactive ones together. -/
theorem hmacLifecycle : Obligations.HmacLifecycle := by
  intro s ctx data h hh
  refine ⟨?_, fun hp => ⟨?_, ?_⟩, fun hp => ⟨?_, ?_⟩⟩
  · exact ⟨_, hmacInitOp h data, exec_hmacInit_of_slot data hh, State.setHmac_slot _ hh, hmacInitOp_inner_phase h data,
      State.respondOk_responses_eq _ []⟩
  · refine ⟨_, hmacUpdateOp h data, exec_hmacUpdate_of_active data hh hp, ?_, (updateOp_phase h.inner data).trans hp, ?_⟩
    · simpa using State.setHmac_slot (hmacUpdateOp h data) hh
    · simp [okBytes_eq]
  · exact ⟨_, hmacFinishOp h, tagOf (hmacFinishOp h), exec_hmacFinish_of_active hh hp, State.setHmac_slot _ hh,
      finishOp_phase h.inner, State.respondOk_responses_eq _ _, length_tagOf _⟩
  · exact ⟨_, h, exec_hmacUpdate_of_inactive data hh hp, hh, rfl, by rw [raise_eq]⟩
  · exact ⟨_, h, exec_hmacFinish_of_inactive hh hp, hh, rfl, by rw [raise_eq]⟩

end Sys2Proof.Machine
end

section
/-!
Exceptions (spec/60_exceptions.md): which commands answer `ERR_CTX_STATE` (R206), and what a packet that fails, in decoding or by
its slot's phase, does to the engine (R203).
-/

namespace Sys2Proof.Machine

/-! ### `ERR_CTX_STATE` (R206) -/

/-- R70: the low half of the first status byte is 0 for `OK` and the code for an error. -/
theorem okBytes_append_ne_errBytes (fault : Bool) (digest : List Byte) (e : ErrCode) : okBytes fault ++ digest ≠ errBytes e := by
  cases fault <;> cases e <;> simp [okBytes, errBytes]

/-- A command that answers `OK` does not answer an error, whatever it did to the slots and the core. -/
theorem State.respondOk_responses_ne (s : State) (digest : List Byte) (e : ErrCode) :
    (s.respondOk digest).responses ≠ s.responses ++ [errBytes e] := by
  rw [State.respondOk_responses_eq]
  simpa using okBytes_append_ne_errBytes s.fault digest e

theorem State.raise_ctxIndex_responses_ne (s : State) :
    (s.raise .ctxIndex).responses ≠ s.responses ++ [errBytes .ctxState] := by
  simp [raise_eq, errBytes]

/-- Settles O33: an inactive slot is raised, and `INIT`, `HMAC_INIT`, `DIGEST` and `HMAC` answer `OK` or, on a slot that the engine
has not, `ERR_CTX_INDEX`. -/
theorem inactiveSlotRaisesCtxState : Obligations.InactiveSlotRaisesCtxState := by
  refine ⟨fun s ctx data c hc hp => ?_, fun s ctx data h hh hp => ?_, fun s t ctx key data he => ?_⟩
  · rw [exec_update_of_inactive data hc hp, exec_finish_of_inactive hc hp, raise_eq]
    exact ⟨rfl, rfl⟩
  · rw [exec_hmacUpdate_of_inactive data hh hp, exec_hmacFinish_of_inactive hh hp, raise_eq]
    exact ⟨rfl, rfl⟩
  · rcases he with he | he | he | he
    case inl =>
      rcases exec_init_cases s ctx with ⟨-, hx⟩ | ⟨c, -, hx⟩ <;> obtain rfl := Host.Outcome.next.inj (he.symm.trans hx)
      · exact s.raise_ctxIndex_responses_ne
      · exact State.respondOk_responses_ne (s.setDigest _ _) _ _
    case inr.inl =>
      rcases exec_hmacInit_cases s ctx key with ⟨-, hx⟩ | ⟨h, -, hx⟩ <;> obtain rfl := Host.Outcome.next.inj (he.symm.trans hx)
      · exact s.raise_ctxIndex_responses_ne
      · exact State.respondOk_responses_ne (s.setHmac _ _).retireCore _ _
    case inr.inr.inl =>
      obtain rfl := Host.Outcome.next.inj (he.symm.trans (exec_digest_eq s data))
      exact State.respondOk_responses_ne s.retireCore _ _
    case inr.inr.inr =>
      obtain rfl := Host.Outcome.next.inj (he.symm.trans (exec_hmac_eq s data key))
      exact State.respondOk_responses_ne s.retireCore _ _

/-! ### Packets that fail (R203) -/

section
variable {s : State} {p : List Byte} {rest : List HostEvent} (hj : s.job = none) (hr : pendingReset s.inputs = none)
  (hi : s.inputs = .packet p :: rest)
include hj hr hi

theorem step_of_packet_error {e : ErrCode} (hd : decodePacket s.config p = .error e) :
    step s = .next (({ s with inputs := rest } : State).raise e) :=
  (step_of_packet hj hr hi).trans (runPacket_of_error { s with inputs := rest } hd)

theorem step_of_packet_ok {i : Instr} (hd : decodePacket s.config p = .ok i) : step s = exec i { s with inputs := rest } :=
  (step_of_packet hj hr hi).trans (runPacket_of_ok { s with inputs := rest } hd)

end

/-- Settles O47: a decode error is raised on the state without the packet, and there the commands on an inactive slot are those
of R206. -/
theorem failingPacketIsRaised : Obligations.FailingPacketIsRaised := by
  intro s p rest ctx data hj hr hi
  obtain ⟨hdigest, hhmac, -⟩ := inactiveSlotRaisesCtxState
  refine ⟨fun e hd => ?_, fun c hd hc hp => ?_, fun h hd hh hp => ?_⟩
  · rw [step_of_packet_error hj hr hi hd, raise_eq]
  · obtain ⟨hupdate, hfinish⟩ := hdigest { s with inputs := rest } ctx data c hc hp
    rcases hd with hd | hd
    · exact (step_of_packet_ok hj hr hi hd).trans hupdate
    · exact (step_of_packet_ok hj hr hi hd).trans hfinish
  · obtain ⟨hupdate, hfinish⟩ := hhmac { s with inputs := rest } ctx data h hh hp
    rcases hd with hd | hd
    · exact (step_of_packet_ok hj hr hi hd).trans hupdate
    · exact (step_of_packet_ok hj hr hi hd).trans hfinish

end Sys2Proof.Machine
end

section
/-!
The encoding (spec/30_encoding.md sections 1 to 3, 5 and 6): every well-formed instruction is decoded from its encoding, and a
packet that decodes is the encoding of what it decodes to.
-/

namespace Sys2Proof.Machine

/-! ### Packets (R61 to R67) -/

/-- A packet that begins with a command's header decodes to what the command assembles from it. -/
theorem decodePacket_headerBytes_append {cfg : Config} {op : Opcode} {ctx : BitVec 4} {body : List Byte} {i : Instr}
    (hs : SlotNamed cfg (opcodeNumber op).toNat ctx.toNat) (ha : assemble op ctx (headerBytes op ctx ++ body) = some i) :
    decodePacket cfg (headerBytes op ctx ++ body) = .ok i :=
  decodePacket_of_assembled (by simp) (by rw [hdrOp_headerBytes, opcodeOf_opcodeNumber]) (hdrRsvd_headerBytes op ctx body)
    (by rwa [hdrCtx_headerBytes]) (by rwa [hdrCtx_headerBytes])

section
variable (op : Opcode) (ctx : BitVec 4) {key data : List Byte} (hd : data.length < 2 ^ 32)
include hd

/-- A format-B packet gives its operand back (R63, R64). -/
theorem operandB_packetB : operandB (packetB op ctx data) = some data := by
  have h4 : (packetB op ctx data).drop 4 = lenField data ++ data := by
    rw [packetB, List.append_assoc, List.drop_left' (length_headerBytes op ctx)]
  have h8 : (packetB op ctx data).drop 8 = data :=
    List.drop_left' (l₁ := headerBytes op ctx ++ lenField data) (by simp)
  have hlen : (packetB op ctx data).length = 8 + data.length := by simp [packetB]; omega
  rw [operandB, h4, h8, lenField_toNat hd, if_pos ⟨by omega, hlen⟩]

/-- A format-K packet gives both of its operands back (R63, R64). -/
theorem operandsK_packet (hk : key.length < 2 ^ 32) :
    operandsK (headerBytes op ctx ++ lenField key ++ lenField data ++ key ++ data) = some (key, data) := by
  have h4 : (headerBytes op ctx ++ lenField key ++ lenField data ++ key ++ data).drop 4 =
      lenField key ++ (lenField data ++ key ++ data) := by
    simp only [List.append_assoc]
    exact List.drop_left' (length_headerBytes op ctx)
  have h8 : (headerBytes op ctx ++ lenField key ++ lenField data ++ key ++ data).drop 8 = lenField data ++ (key ++ data) := by
    simp only [List.append_assoc]
    exact List.drop_left' (l₁ := headerBytes op ctx ++ lenField key) (by simp)
  have h12 : (headerBytes op ctx ++ lenField key ++ lenField data ++ key ++ data).drop 12 = key ++ data := by
    simp only [List.append_assoc]
    exact List.drop_left' (l₁ := headerBytes op ctx ++ lenField key ++ lenField data) (by simp)
  have hlen : (headerBytes op ctx ++ lenField key ++ lenField data ++ key ++ data).length =
      12 + key.length + data.length := by
    simp
    omega
  simp only [operandsK]
  rw [← List.drop_drop, h4, h8, h12, lenField_toNat hk, lenField_toNat hd, if_pos ⟨by omega, hlen⟩, List.take_left,
    List.drop_left]

end

section
variable {cfg : Config} {op : Opcode}

/-- R62: a command that names a slot may name those it has. -/
theorem slotNamed_of_inRange {ctx : BitVec 4} (hn : namesNoSlot op = false) (hc : ctxInRange cfg op ctx = true) :
    SlotNamed cfg (opcodeNumber op).toNat ctx.toNat :=
  (slotNamed_iff cfg op ctx).mpr ⟨by simp [hn], hc⟩

/-- R62: the `CTX` of a command that names no slot is 0. -/
theorem slotNamed_zero (hc : ctxInRange cfg op 0 = true) : SlotNamed cfg (opcodeNumber op).toNat (0 : BitVec 4).toNat :=
  (slotNamed_iff cfg op 0).mpr ⟨by simp, hc⟩

/-- A format-B packet decodes to the instruction `make` with the operand that it holds. -/
theorem decodePacket_packetB {ctx : BitVec 4} {data : List Byte} (hs : SlotNamed cfg (opcodeNumber op).toNat ctx.toNat)
    (hd : data.length < 2 ^ 32) (make : List Byte → Instr) (ha : ∀ p, assemble op ctx p = (operandB p).map make) :
    decodePacket cfg (packetB op ctx data) = .ok (make data) := by
  have hassembled : assemble op ctx (packetB op ctx data) = some (make data) := by rw [ha, operandB_packetB op ctx hd]; rfl
  rw [packetB, List.append_assoc] at hassembled ⊢
  exact decodePacket_headerBytes_append hs hassembled

/-- The one format-K packet is that of `HMAC`. -/
theorem decodePacket_packetK {key data : List Byte} (hk : key.length < 2 ^ 32) (hd : data.length < 2 ^ 32) :
    decodePacket cfg (headerBytes .hmac 0 ++ lenField key ++ lenField data ++ key ++ data) = .ok (.hmac key data) := by
  have hassembled : assemble .hmac 0 (headerBytes .hmac 0 ++ lenField key ++ lenField data ++ key ++ data) =
      some (.hmac key data) := by
    rw [assemble, operandsK_packet .hmac 0 hd hk]
    rfl
  simp only [List.append_assoc] at hassembled ⊢
  exact decodePacket_headerBytes_append (slotNamed_zero rfl) hassembled

end

/-! ### Step indices (R74) -/

/-- R74, R96: the 48 steps in their order have the indices 0 to 47 in theirs. -/
theorem stepInstrs_map_encode :
    stepInstrs.map encode = (List.range 48).map fun n => Fetched.index (BitVec.ofNat 6 n) := rfl

theorem encode_of_decodeStep {t : BitVec 6} {i : Instr} (h : decodeStep t = some i) : encode i = .index t := by
  have ht : t.toNat < 48 := (List.getElem?_eq_some_iff.mp h).1
  have hencode : (stepInstrs.map encode)[t.toNat]? = some (encode i) := by
    rw [List.getElem?_map]
    exact congrArg (Option.map encode) h
  rw [stepInstrs_map_encode] at hencode
  simpa [ht] using hencode.symm

theorem decodeStep_eq_none_iff (t : BitVec 6) : decodeStep t = none ↔ 48 ≤ t.toNat :=
  List.getElem?_eq_none_iff

/-- Settles O5: the table of the steps has 48 entries, each at the index that it encodes to. -/
theorem stepIndexSelectsItsStep : Obligations.StepIndexSelectsItsStep :=
  fun t => ⟨decodeStep_eq_none_iff t, fun _ => encode_of_decodeStep⟩

/-! ### The two round trips -/

theorem decode_packet_of_ok {cfg : Config} {p : List Byte} {i : Instr} (h : decodePacket cfg p = .ok i) :
    decode cfg (.packet p) = .ok i := by
  simp only [decode, h]

theorem decode_index_of_some (cfg : Config) {t : BitVec 6} {i : Instr} (h : decodeStep t = some i) :
    decode cfg (.index t) = .ok i := by
  simp only [decode, h]

/-- Settles O2: each command's packet by its format, and each step by its index. -/
theorem decodeOfEncodeIsTheInstruction : Obligations.DecodeOfEncodeIsTheInstruction := by
  intro cfg i hwf
  rcases instr_cases i with ⟨ctx, rfl⟩ | ⟨ctx, data, rfl⟩ | ⟨ctx, rfl⟩ | ⟨data, rfl⟩ | ⟨ctx, key, rfl⟩ | ⟨ctx, data, rfl⟩ |
    ⟨ctx, rfl⟩ | ⟨key, data, rfl⟩ | ⟨t, ht⟩
  · exact decode_packet_of_ok (decodePacket_headerBytes (slotNamed_of_inRange rfl hwf) rfl)
  · obtain ⟨hslot, hlen⟩ := Bool.and_eq_true_iff.mp hwf
    have hs : SlotNamed cfg (opcodeNumber .update).toNat ctx.toNat := slotNamed_of_inRange rfl hslot
    exact decode_packet_of_ok (decodePacket_packetB hs (of_decide_eq_true hlen) (.update ctx) fun _ => rfl)
  · exact decode_packet_of_ok (decodePacket_headerBytes (slotNamed_of_inRange rfl hwf) rfl)
  · exact decode_packet_of_ok (decodePacket_packetB (slotNamed_zero rfl) (of_decide_eq_true hwf) .digest fun _ => rfl)
  · obtain ⟨hslot, hlen⟩ := Bool.and_eq_true_iff.mp hwf
    have hs : SlotNamed cfg (opcodeNumber .hmacInit).toNat ctx.toNat := slotNamed_of_inRange rfl hslot
    exact decode_packet_of_ok (decodePacket_packetB hs (of_decide_eq_true hlen) (.hmacInit ctx) fun _ => rfl)
  · obtain ⟨hslot, hlen⟩ := Bool.and_eq_true_iff.mp hwf
    have hs : SlotNamed cfg (opcodeNumber .hmacUpdate).toNat ctx.toNat := slotNamed_of_inRange rfl hslot
    exact decode_packet_of_ok (decodePacket_packetB hs (of_decide_eq_true hlen) (.hmacUpdate ctx) fun _ => rfl)
  · exact decode_packet_of_ok (decodePacket_headerBytes (slotNamed_of_inRange rfl hwf) rfl)
  · obtain ⟨hkey, hlen⟩ := Bool.and_eq_true_iff.mp hwf
    exact decode_packet_of_ok (decodePacket_packetK (of_decide_eq_true hkey) (of_decide_eq_true hlen))
  · rw [encode_of_decodeStep ht]
    exact decode_index_of_some cfg ht

/-- Settles O3: what a packet decodes to was assembled from its own bytes, after every check of R73. -/
theorem encodeOfDecodedIsThePacket : Obligations.EncodeOfDecodedIsThePacket :=
  fun _ _ _ h => ⟨encode_of_decodePacket h, wf_of_decodePacket h⟩

/-- Settles O1: each packet is written out from R61 to R67, and the decoder is run on it. -/
theorem wordsDecodeToTheirInstructions : Obligations.WordsDecodeToTheirInstructions :=
  ⟨rfl, rfl, rfl, rfl, rfl, rfl, rfl, rfl, rfl, rfl, rfl⟩

end Sys2Proof.Machine
end

section
/-!
The bodies' invariants (spec/10_state.md sections 3 and 4): what a context holds from `INIT` to `FINISH`, and from `HMAC_INIT`
to `HMAC_FINISH`.
-/

namespace Sys2Proof.Machine

/-- Settles O29: the three bodies, by the laws of what a context holds. -/
theorem contextHoldsItsMessage : Obligations.ContextHoldsItsMessage :=
  ⟨initOp_holds, fun _ _ _ => updateOp_holds, fun _ _ => digestOf_finishOp_of_holds⟩

/-- Settles O42: the three HMAC bodies, by the laws of what an HMAC context holds. -/
theorem hmacContextHoldsItsMessage : Obligations.HmacContextHoldsItsMessage :=
  ⟨fun h _ => hmacInitOp_holds h, fun _ _ _ _ => hmacUpdateOp_holds, fun _ _ _ => tagOf_hmacFinishOp_of_holds⟩

end Sys2Proof.Machine
end

section
/-!
One step of the machine by what is pending (spec/10_state.md section 2, spec/30_encoding.md sections 5 and 6,
spec/70_reset_and_hazards.md section 1): an equation for each thing that the engine turns to.
-/

namespace Sys2Proof.Machine

/-! ### The turn of the engine (R13, R230, R231) -/

section
variable {s : State}

theorem step_of_reset {rest : List HostEvent} (h : pendingReset s.inputs = some rest) :
    step s = .next (s.resetEvent rest) := by
  simp [step, engineTurn, h]

theorem step_of_job {r : CtxRef} (hr : pendingReset s.inputs = none) (hj : s.job = some r) : step s = runCore r s := by
  simp [step, engineTurn, hr, runEngine, hj]

theorem runCore_of_step {i : Instr} (r : CtxRef) (h : decodeStep s.t = some i) : runCore r s = exec i s := by
  simp [runCore, h]

theorem runCore_of_end {r : CtxRef} {c : DigestCtx} (ht : s.t = 48) (hc : s.ctxAt r = some c) :
    runCore r s = .next (s.setCtxAt r { c with h := feedForward c.h s.x, fill := 0 }).retireCore := by
  have hnone : decodeStep s.t = none := by rw [ht]; rfl
  simp only [runCore, hnone, endCompress, hc]
  exact if_pos (congrArg BitVec.toNat ht)

end

/-- Settles O50: the engine turns to nothing. -/
theorem idleEngineWaits : Obligations.IdleEngineWaits := by
  intro s hj hi
  simp [step, engineTurn, runEngine, hj, hi, pendingReset]

/-- Settles O46: a packet is taken and executed, the core runs the step that `t` selects, and at `t = 48` it ends. -/
theorem stepExecutesTheDecodedInstruction : Obligations.StepExecutesTheDecodedInstruction :=
  ⟨fun _ _ _ _ hj hr hi hd => step_of_packet_ok hj hr hi hd,
    fun _ r _ hj hr hd => (step_of_job hr hj).trans (runCore_of_step r hd),
    fun _ _ _ hj hr ht hc => (step_of_job hr hj).trans (runCore_of_end ht hc)⟩

/-! ### Instructions that find nothing to work on (R12, R205) -/

/-- Settles O12: without a `COMPRESS` there is no block, and every step is a `runStep`. -/
theorem stepsRunOnlyInsideACompress : Obligations.StepsRunOnlyInsideACompress := by
  intro s t i hd hj
  simp [exec_of_decodeStep hd, runStep, State.jobBlock, hj]

section
variable {s : State} {ctx : BitVec 4} (data : List Byte)

theorem exec_init_of_absent (hc : s.dc[ctx.toNat]? = none) : exec (.init ctx) s = .next (s.raise .ctxIndex) := by
  simp [exec, execInit, hc]

theorem exec_finish_of_absent (hc : s.dc[ctx.toNat]? = none) : exec (.finish ctx) s = .next (s.raise .ctxIndex) := by
  simp [exec, execFinish, hc]

theorem exec_hmacInit_of_absent (hh : s.hc[ctx.toNat]? = none) :
    exec (.hmacInit ctx data) s = .next (s.raise .ctxIndex) := by
  simp [exec, execHmacInit, hh]

theorem exec_hmacUpdate_of_absent (hh : s.hc[ctx.toNat]? = none) :
    exec (.hmacUpdate ctx data) s = .next (s.raise .ctxIndex) := by
  simp [exec, execHmacUpdate, hh]

theorem exec_hmacFinish_of_absent (hh : s.hc[ctx.toNat]? = none) :
    exec (.hmacFinish ctx) s = .next (s.raise .ctxIndex) := by
  simp [exec, execHmacFinish, hh]

end

/-- Settles O34: an index that is not below the slot count finds no slot. -/
theorem absentSlotRaisesCtxIndex : Obligations.AbsentSlotRaisesCtxIndex := by
  refine ⟨fun s ctx data h => ?_, fun s ctx data h => ?_⟩ <;> rw [← raise_eq]
  · have hc := List.getElem?_eq_none h
    exact ⟨exec_init_of_absent hc, exec_update_of_absent data hc, exec_finish_of_absent hc⟩
  · have hh := List.getElem?_eq_none h
    exact ⟨exec_hmacInit_of_absent data hh, exec_hmacUpdate_of_absent data hh, exec_hmacFinish_of_absent hh⟩

end Sys2Proof.Machine
end

section
/-!
The commands in one form (spec/10_state.md sections 3 and 4, spec/60_exceptions.md section 1): a command is a body on the slot
that it names, so its effect is an error or a write to that slot, read off at that slot alone; `FAULT`, the streams and the other
slots have no part in it.
-/

namespace Sys2Proof.Machine

/-! ### Effects -/

/-- What a command writes to the slots: at most the one it names (R62). -/
inductive SlotWrite where
  | nothing
  | digest (n : Nat) (c : DigestCtx)
  | hmac (n : Nat) (h : HmacCtx)

/-- The slots after a write. -/
def State.put (s : State) (w : SlotWrite) : State :=
  match w with
  | .nothing => s
  | .digest n c => s.setDigest n c
  | .hmac n h => s.setHmac n h

/-- What a command comes to: an error (R203), or a write, whether it ran `COMPRESS`, and the digest bytes it answers (R68). -/
inductive Effect where
  | error (e : ErrCode)
  | ok (w : SlotWrite) (used : Bool) (digest : List Byte)

/-- The state after a command with this effect. -/
def Effect.apply (f : Effect) (s : State) : State :=
  match f with
  | .error e => s.raise e
  | .ok w used digest => ((s.put w).retireCoreIf used).respondOk digest

/-- The part of an effect in the slots and the core. -/
def Effect.work (f : Effect) (s : State) : State :=
  match f with
  | .error _ => s
  | .ok w used _ => (s.put w).retireCoreIf used

/-- Whether an effect raises `FAULT`. -/
def Effect.fails (f : Effect) : Bool :=
  match f with
  | .error _ => true
  | .ok _ _ _ => false

/-- The response to a command with this effect, given `FAULT` before it (R70). -/
def Effect.reply (f : Effect) (fault : Bool) : List Byte :=
  match f with
  | .error e => errBytes e
  | .ok _ _ digest => okBytes fault ++ digest

/-- The write of an effect. -/
def Effect.write (f : Effect) : SlotWrite :=
  match f with
  | .error _ => .nothing
  | .ok w _ _ => w

/-- The write that puts a Digest Context at a place of the engine (R21, R22). -/
def ctxWrite (hc : List HmacCtx) (r : CtxRef) (c : DigestCtx) : SlotWrite :=
  match r with
  | .digest n => .digest n c
  | .inner n => (hc[n]?).elim .nothing fun h => .hmac n { h with inner := c }
  | .outer n => (hc[n]?).elim .nothing fun h => .hmac n { h with outer := c }

section
variable (s : State) (w : SlotWrite) (u : Bool) (f g : Effect)

theorem State.setCtxAt_eq_put (r : CtxRef) (c : DigestCtx) : s.setCtxAt r c = s.put (ctxWrite s.hc r c) := by
  cases r with
  | digest n => rfl
  | inner n => cases h : s.hc[n]? <;> simp [setCtxAt, ctxWrite, h, put]
  | outer n => cases h : s.hc[n]? <;> simp [setCtxAt, ctxWrite, h, put]

theorem State.put_hostSend (p : List Byte) : (s.hostSend p).put w = (s.put w).hostSend p := by
  cases w <;> rfl

theorem State.put_with (fault : Bool) (responses : List (List Byte)) :
    ({ s with fault := fault, responses := responses } : State).put w =
      { s.put w with fault := fault, responses := responses } := by
  cases w <;> rfl

theorem State.retireCoreIf_with (fault : Bool) (responses : List (List Byte)) :
    ({ s with fault := fault, responses := responses } : State).retireCoreIf u =
      { s.retireCoreIf u with fault := fault, responses := responses } := by
  cases u <;> rfl

@[simp] theorem State.put_fault : (s.put w).fault = s.fault := by cases w <;> rfl
@[simp] theorem State.put_job : (s.put w).job = s.job := by cases w <;> rfl
@[simp] theorem State.put_inputs : (s.put w).inputs = s.inputs := by cases w <;> rfl
@[simp] theorem State.put_responses : (s.put w).responses = s.responses := by cases w <;> rfl

theorem Effect.work_with (fault : Bool) (responses : List (List Byte)) :
    f.work { s with fault := fault, responses := responses } =
      { f.work s with fault := fault, responses := responses } := by
  cases f with
  | error e => rfl
  | ok w used digest => rw [work, State.put_with, State.retireCoreIf_with, work]

/-- An effect is its work, the sticky `FAULT`, and one response. -/
theorem Effect.apply_eq :
    f.apply s = { f.work s with fault := s.fault || f.fails, responses := s.responses ++ [f.reply s.fault] } := by
  cases f with
  | error e => simp [apply, work, fails, reply, raise_eq]
  | ok w used digest => simp [apply, work, fails, reply, State.respondOk, okBytes_eq]

theorem Effect.apply_with_fault (fault : Bool) :
    f.apply { s with fault := fault } =
      { f.work s with fault := fault || f.fails, responses := s.responses ++ [f.reply fault] } := by
  rw [apply_eq, work_with (s := s) (responses := s.responses)]

theorem Effect.apply_apply :
    g.apply (f.apply s) =
      { g.work (f.work s) with
        fault := s.fault || f.fails || g.fails
        responses := s.responses ++ [f.reply s.fault, g.reply (s.fault || f.fails)] } := by
  rw [apply_eq (f := g), apply_eq, work_with]
  simp

@[simp] theorem Effect.apply_dc : (f.apply s).dc = (s.put f.write).dc := by
  cases f with
  | error e => rfl
  | ok w used digest => cases used <;> rfl

@[simp] theorem Effect.apply_hc : (f.apply s).hc = (s.put f.write).hc := by
  cases f with
  | error e => rfl
  | ok w used digest => cases used <;> rfl

/-- What the host sends meanwhile does not show. -/
theorem Effect.apply_hostSend (p : List Byte) : f.apply (s.hostSend p) = (f.apply s).hostSend p := by
  cases f with
  | error e => rfl
  | ok w used digest => cases w <;> cases used <;> rfl

/-- `FAULT` shows in the status word of a response and there not in its code (R70). -/
theorem Effect.reply_code (a b : Bool) : ((f.reply a).getD 0 0).toNat % 16 = ((f.reply b).getD 0 0).toNat % 16 := by
  cases f with
  | error e => rfl
  | ok w used digest => cases a <;> cases b <;> simp [reply, okBytes]

theorem Effect.reply_drop (a b : Bool) (n : Nat) : (f.reply a).drop (n + 1) = (f.reply b).drop (n + 1) := by
  cases f with
  | error e => rfl
  | ok w used digest => cases a <;> cases b <;> rfl

end

/-! ### Commands -/

theorem isActive_iff {c : DigestCtx} : isActive c = true ↔ c.phase = .active := by simp [isActive]

theorem isActive_eq_false {c : DigestCtx} (h : c.phase ≠ .active) : isActive c = false :=
  Bool.eq_false_iff.mpr (mt isActive_iff.mp h)

/-- The body of a command on a slot that holds `σ`: when the slot is ready for it (R206), what it makes of the slot, whether it
runs `COMPRESS`, and the digest bytes it answers. -/
structure Body (σ : Type) where
  ready : σ → Bool
  run : σ → σ
  used : σ → Bool
  digest : σ → List Byte

/-- The effect of a body on a slot that the engine has or has not (R205, R206). -/
def Body.effect {σ : Type} (b : Body σ) (write : σ → SlotWrite) (slot : Option σ) : Effect :=
  match slot with
  | none => .error .ctxIndex
  | some c => if b.ready c then .ok (write (b.run c)) (b.used c) (b.digest c) else .error .ctxState

/-- A command: a body on a Digest slot or an HMAC slot, or an answer on a transient context (R180, R190). -/
inductive Command where
  | onDigest (n : Nat) (b : Body DigestCtx)
  | onHmac (n : Nat) (b : Body HmacCtx)
  | oneShot (digest : List Byte)

def Command.effect (k : Command) (s : State) : Effect :=
  match k with
  | .onDigest n b => b.effect (.digest n) s.dc[n]?
  | .onHmac n b => b.effect (.hmac n) s.hc[n]?
  | .oneShot digest => .ok .nothing true digest

/-- `INIT`, R161. -/
def initBody : Body DigestCtx where
  ready _ := true
  run := initOp
  used _ := false
  digest _ := []

/-- `UPDATE`, R162. -/
def updateBody (data : List Byte) : Body DigestCtx where
  ready := isActive
  run c := updateOp c data
  used c := compresses c data.length
  digest _ := []

/-- `FINISH`, R164. -/
def finishBody : Body DigestCtx where
  ready := isActive
  run := finishOp
  used _ := true
  digest c := digestOf (finishOp c)

/-- `HMAC_INIT`, R186. -/
def hmacInitBody (key : List Byte) : Body HmacCtx where
  ready _ := true
  run h := hmacInitOp h key
  used _ := true
  digest _ := []

/-- `HMAC_UPDATE`, R187. -/
def hmacUpdateBody (data : List Byte) : Body HmacCtx where
  ready h := isActive h.inner
  run h := hmacUpdateOp h data
  used h := compresses h.inner data.length
  digest _ := []

/-- `HMAC_FINISH`, R188. -/
def hmacFinishBody : Body HmacCtx where
  ready h := isActive h.inner
  run := hmacFinishOp
  used _ := true
  digest h := tagOf (hmacFinishOp h)

/-- The command that an instruction is, `none` for a step of the core. -/
def commandOf (i : Instr) : Option Command :=
  match i with
  | .init ctx => some (.onDigest ctx.toNat initBody)
  | .update ctx data => some (.onDigest ctx.toNat (updateBody data))
  | .finish ctx => some (.onDigest ctx.toNat finishBody)
  | .digest data => some (.oneShot (md4 data))
  | .hmacInit ctx key => some (.onHmac ctx.toNat (hmacInitBody key))
  | .hmacUpdate ctx data => some (.onHmac ctx.toNat (hmacUpdateBody data))
  | .hmacFinish ctx => some (.onHmac ctx.toNat hmacFinishBody)
  | .hmac key data => some (.oneShot (hmacMd4 key data))
  | _ => none

theorem command_or_step (i : Instr) : (∃ k, commandOf i = some k) ∨ ∃ t, decodeStep t = some i := by
  rcases instr_cases i with ⟨ctx, rfl⟩ | ⟨ctx, data, rfl⟩ | ⟨ctx, rfl⟩ | ⟨data, rfl⟩ | ⟨ctx, key, rfl⟩ | ⟨ctx, data, rfl⟩ |
    ⟨ctx, rfl⟩ | ⟨key, data, rfl⟩ | ht
  case inr.inr.inr.inr.inr.inr.inr.inr => exact .inr ht
  all_goals exact .inl ⟨_, rfl⟩

/-- A packet that decodes is a command. -/
theorem command_of_decodePacket {cfg : Config} {p : List Byte} {i : Instr} (h : decodePacket cfg p = .ok i) :
    ∃ k, commandOf i = some k :=
  (command_or_step i).resolve_right fun ⟨t, ht⟩ => decodeStep_ne_of_packet h t ht

section
variable {σ : Type} (b : Body σ) (write : σ → SlotWrite) {c : σ}

theorem Body.effect_of_ready (h : b.ready c = true) :
    b.effect write (some c) = .ok (write (b.run c)) (b.used c) (b.digest c) := if_pos h

theorem Body.effect_of_not_ready (h : b.ready c = false) : b.effect write (some c) = .error .ctxState := by
  simp [effect, h]

end

/-- Executing a command is applying its effect. -/
theorem exec_command {i : Instr} {k : Command} (h : commandOf i = some k) (s : State) :
    exec i s = .next ((k.effect s).apply s) := by
  cases i <;> simp only [commandOf, Option.some.injEq, reduceCtorEq] at h <;> subst h
  case digest data => rfl
  case hmac key data => rfl
  case init ctx =>
    rcases exec_init_cases s ctx with ⟨hc, he⟩ | ⟨c, hc, he⟩ <;> rw [he, Command.effect, hc]
    · rfl
    · rfl
  case update ctx data =>
    rcases exec_update_cases s ctx data with ⟨hc, he⟩ | ⟨c, hc, hp, he⟩ | ⟨c, hc, hp, he⟩ <;> rw [he, Command.effect, hc]
    · rfl
    · rw [Body.effect_of_not_ready _ _ (isActive_eq_false hp), Effect.apply]
    · rw [Body.effect_of_ready _ _ (isActive_iff.mpr hp)]
      rfl
  case finish ctx =>
    rcases exec_finish_cases s ctx with ⟨hc, he⟩ | ⟨c, hc, hp, he⟩ | ⟨c, hc, hp, he⟩ <;> rw [he, Command.effect, hc]
    · rfl
    · rw [Body.effect_of_not_ready _ _ (isActive_eq_false hp), Effect.apply]
    · rw [Body.effect_of_ready _ _ (isActive_iff.mpr hp)]
      rfl
  case hmacInit ctx key =>
    rcases exec_hmacInit_cases s ctx key with ⟨hh, he⟩ | ⟨h, hh, he⟩ <;> rw [he, Command.effect, hh]
    · rfl
    · rfl
  case hmacUpdate ctx data =>
    rcases exec_hmacUpdate_cases s ctx data with ⟨hh, he⟩ | ⟨h, hh, hp, he⟩ | ⟨h, hh, hp, he⟩ <;>
      rw [he, Command.effect, hh]
    · rfl
    · rw [Body.effect_of_not_ready _ _ (isActive_eq_false hp), Effect.apply]
    · rw [Body.effect_of_ready _ _ (isActive_iff.mpr hp)]
      rfl
  case hmacFinish ctx =>
    rcases exec_hmacFinish_cases s ctx with ⟨hh, he⟩ | ⟨h, hh, hp, he⟩ | ⟨h, hh, hp, he⟩ <;>
      rw [he, Command.effect, hh]
    · rfl
    · rw [Body.effect_of_not_ready _ _ (isActive_eq_false hp), Effect.apply]
    · rw [Body.effect_of_ready _ _ (isActive_iff.mpr hp)]
      rfl

end Sys2Proof.Machine
end

section
/-!
What an instruction does not read (spec/10_state.md section 5, spec/70_reset_and_hazards.md section 3): the `FAULT` flag and the
packets that wait.
-/

namespace Sys2Proof.Machine

/-! ### A step of the core -/

theorem runStep_of_block (f : (Nat → Word) → Quad → Quad) (n : BitVec 6) {s : State} {block : Memory}
    (h : s.jobBlock = some block) : runStep f n s = .next { s with x := f (msgWord block) s.x, t := n } := by
  simp [runStep, h]

/-- A step of the core that runs has a block, and writes the working registers and the step index (R94). -/
theorem exec_step_next {t : BitVec 6} {i : Instr} {s s' : State} (ht : decodeStep t = some i) (he : exec i s = .next s') :
    ∃ block, s.jobBlock = some block ∧ s' = { s with x := stepFormula t.toNat (msgWord block) s.x, t := t + 1 } := by
  rw [exec_of_decodeStep ht] at he
  rcases runStep_cases (stepFormula t.toNat) (t + 1) s with ⟨-, h⟩ | ⟨block, hb, h⟩
  · cases h.symm.trans he
  · exact ⟨block, hb, (Host.Outcome.next.inj (h.symm.trans he)).symm⟩

theorem exec_step_of_block {t : BitVec 6} {i : Instr} {s : State} {block : Memory} (ht : decodeStep t = some i)
    (hb : s.jobBlock = some block) :
    exec i s = .next { s with x := stepFormula t.toNat (msgWord block) s.x, t := t + 1 } := by
  rw [exec_of_decodeStep ht, runStep_of_block _ _ hb]

/-! ### `FAULT` (R26, R217) -/

/-- A command's effect is read off at the slots. -/
theorem Command.effect_with_fault (k : Command) (s : State) (fault : Bool) :
    k.effect { s with fault := fault } = k.effect s := by
  cases k <;> rfl

theorem exec_command_with_fault {i : Instr} {k : Command} (h : commandOf i = some k) (s : State) (fault : Bool) :
    exec i { s with fault := fault } =
      .next { (k.effect s).work s with
        fault := fault || (k.effect s).fails
        responses := s.responses ++ [(k.effect s).reply fault] } := by
  rw [exec_command h, k.effect_with_fault, Effect.apply_with_fault]

/-- Settles O52: a command applies the same effect, and a step of the core answers nothing. -/
theorem faultFlagChangesNoBehaviour : Obligations.FaultFlagChangesNoBehaviour := by
  intro i s t he
  rcases command_or_step i with ⟨k, hk⟩ | ⟨n, hn⟩
  · obtain rfl := Host.Outcome.next.inj ((exec_command_with_fault hk s false).symm.trans he)
    refine ⟨_, exec_command_with_fault hk s true, rfl, rfl, rfl, rfl, rfl, rfl, rfl, by simp, ?_, fun _ => ?_⟩
    · simpa only [List.getLast?_concat, Option.map_some, Option.some.injEq] using Effect.reply_drop _ _ _ _
    · simpa only [List.getLast?_concat, Option.map_some, Option.some.injEq] using Effect.reply_code _ _ _
  · obtain ⟨block, hb, rfl⟩ := exec_step_next hn he
    refine ⟨_, exec_step_of_block (s := { s with fault := true }) hn hb, rfl, rfl, rfl, rfl, rfl, rfl, rfl, rfl, rfl, ?_⟩
    exact fun h => absurd rfl h

/-! ### The packets that wait (R240) -/

theorem Command.effect_hostSend (k : Command) (s : State) (p : List Byte) : k.effect (s.hostSend p) = k.effect s := by
  cases k <;> rfl

section
variable {s t : State} (p : List Byte)

theorem exec_hostSend {i : Instr} (he : exec i s = .next t) : exec i (s.hostSend p) = .next (t.hostSend p) := by
  rcases command_or_step i with ⟨k, hk⟩ | ⟨n, hn⟩
  · obtain rfl := Host.Outcome.next.inj ((exec_command hk s).symm.trans he)
    rw [exec_command hk, k.effect_hostSend, Effect.apply_hostSend]
  · obtain ⟨block, hb, rfl⟩ := exec_step_next hn he
    exact exec_step_of_block (s := s.hostSend p) hn hb

theorem runPacket_hostSend {q : List Byte} (he : runPacket q s = .next t) :
    runPacket q (s.hostSend p) = .next (t.hostSend p) := by
  cases hd : decodePacket s.config q with
  | error e =>
    obtain rfl := Host.Outcome.next.inj ((runPacket_of_error s hd).symm.trans he)
    exact runPacket_of_error (s.hostSend p) hd
  | ok i => exact (runPacket_of_ok (s.hostSend p) hd).trans (exec_hostSend p ((runPacket_of_ok s hd).symm.trans he))

/-- What the core inside a `COMPRESS` does, if it does anything: the step that `t` selects, or the end of the sequence. -/
theorem runCore_next {r : CtxRef} (he : runCore r s = .next t) :
    (∃ i, decodeStep s.t = some i ∧ exec i s = .next t) ∨
      ∃ c, s.t = 48 ∧ s.ctxAt r = some c ∧
        t = (s.setCtxAt r { c with h := feedForward c.h s.x, fill := 0 }).retireCore := by
  cases hd : decodeStep s.t with
  | some i => exact .inl ⟨i, rfl, (runCore_of_step r hd).symm.trans he⟩
  | none =>
    simp only [runCore, hd] at he
    split at he
    · next h48 =>
      have ht : s.t = 48 := BitVec.eq_of_toNat_eq h48
      cases hc : s.ctxAt r with
      | none => simp [endCompress, hc] at he
      | some c =>
        simp only [endCompress, hc, Host.Outcome.next.injEq] at he
        exact .inr ⟨c, ht, rfl, he.symm⟩
    · cases he

theorem State.setCtxAt_hostSend (r : CtxRef) (c : DigestCtx) :
    (s.hostSend p).setCtxAt r c = (s.setCtxAt r c).hostSend p := by
  rw [State.setCtxAt_eq_put, State.put_hostSend, State.setCtxAt_eq_put]
  rfl

theorem runCore_hostSend {r : CtxRef} (he : runCore r s = .next t) : runCore r (s.hostSend p) = .next (t.hostSend p) := by
  rcases runCore_next he with ⟨i, hd, hi⟩ | ⟨c, ht, hc, rfl⟩
  · exact (runCore_of_step (s := s.hostSend p) r hd).trans (exec_hostSend p hi)
  · have hc' : (s.hostSend p).ctxAt r = some c := by cases r <;> exact hc
    rw [runCore_of_end (s := s.hostSend p) ht hc', State.setCtxAt_hostSend]
    rfl

end

theorem pendingReset_append_of_some {es rest : List HostEvent} (h : pendingReset es = some rest) (later : List HostEvent) :
    pendingReset (es ++ later) = some (rest ++ later) := by
  induction es with
  | nil => cases h
  | cons e es ih =>
    cases e with
    | packet p => exact ih h
    | reset =>
      obtain rfl := Option.some.inj h
      rfl

theorem pendingReset_append_of_none {es : List HostEvent} (h : pendingReset es = none) (later : List HostEvent) :
    pendingReset (es ++ later) = pendingReset later := by
  induction es with
  | nil => rfl
  | cons e es ih =>
    cases e with
    | packet p => exact ih h
    | reset => cases h

/-- A step of an engine that has something to do does not read what the host sends behind it. -/
theorem step_hostSend {s t : State} (p : List Byte) (hbusy : s.job ≠ none ∨ s.inputs ≠ []) (he : step s = .next t) :
    step (s.hostSend p) = .next (t.hostSend p) := by
  have hnone (hr : pendingReset s.inputs = none) : pendingReset (s.hostSend p).inputs = none :=
    pendingReset_append_of_none hr [.packet p]
  rcases step_cases s with ⟨rest, hr, hs⟩ | ⟨hr, r, hj, hs⟩ | ⟨hj, hi, -⟩ | ⟨hr, hj, q, rest, hi, hs⟩
  · obtain rfl := Host.Outcome.next.inj (hs.symm.trans he)
    exact step_of_reset (pendingReset_append_of_some hr [.packet p])
  · exact (step_of_job (hnone hr) hj).trans (runCore_hostSend p (hs.symm.trans he))
  · exact absurd hbusy (by simp [hj, hi])
  · have hi' : (s.hostSend p).inputs = .packet q :: (rest ++ [.packet p]) := by simp [State.hostSend, hi]
    exact (step_of_packet (s := s.hostSend p) hj (hnone hr) hi').trans
      (runPacket_hostSend (s := { s with inputs := rest }) p (hs.symm.trans he))

/-- Settles O60: a step with more packets behind it, and the one field that taking a response changes. -/
theorem sendingAheadChangesNoResult : Obligations.SendingAheadChangesNoResult := by
  refine ⟨fun s t p => step_hostSend p, fun s r hr => ?_⟩
  unfold State.hostReceive at hr ⊢
  split at hr
  · cases hr
  · next first rest hs =>
    obtain rfl := Option.some.inj hr
    exact ⟨hs, rfl⟩

end Sys2Proof.Machine
end

section
/-!
Slots apart (spec/20_memory.md sections 4 and 5): an instruction leaves every slot but its own and, without a `COMPRESS`, the
core; commands on different slots commute.
-/

namespace Sys2Proof.Machine

/-! ### The frame of an instruction -/

/-- Whether a command with this effect runs `COMPRESS`. -/
def Effect.used (f : Effect) : Bool :=
  match f with
  | .error _ => false
  | .ok _ used _ => used

theorem Effect.apply_sameCore {f : Effect} (s : State) (h : f.used = false) : s.SameCore (f.apply s) := by
  cases f with
  | error e => exact ⟨rfl, rfl, rfl, rfl⟩
  | ok w used digest =>
    obtain rfl : used = false := h
    cases w <;> exact ⟨rfl, rfl, rfl, rfl⟩

theorem Body.effect_used_eq_false {σ : Type} (b : Body σ) (write : σ → SlotWrite) {slot : Option σ}
    (h : ∀ c, slot = some c → b.used c = false) : (b.effect write slot).used = false := by
  cases slot with
  | none => rfl
  | some c =>
    cases hc : b.ready c with
    | false => rw [b.effect_of_not_ready write hc, Effect.used]
    | true => rw [b.effect_of_ready write hc, Effect.used, h c rfl]

theorem compresses_eq_false {c : DigestCtx} {n : Nat} (h : c.fill.toNat + n < 64) : compresses c n = false :=
  decide_eq_false (Nat.not_le.mpr h)

/-- A command that runs no `COMPRESS` leaves the core as it is. -/
theorem exec_sameCore {i : Instr} {k : Command} {s t : State} (hk : commandOf i = some k) (he : exec i s = .next t)
    (hu : (k.effect s).used = false) : s.SameCore t := by
  obtain rfl := Host.Outcome.next.inj ((exec_command hk s).symm.trans he)
  exact Effect.apply_sameCore s hu

/-- Settles O53: what an instruction touches, and that a body which completes no block does not use the core. -/
theorem instructionsTouchOnlyTheirSlot : Obligations.InstructionsTouchOnlyTheirSlot := by
  intro i s t he
  obtain ⟨hdc, hhc, hconfig, hinputs, -⟩ := exec_touches he
  refine ⟨hdc, hhc, congrArg Config.nDctx hconfig, congrArg Config.nHctx hconfig, hinputs, ?_, ?_, ?_⟩
  · rintro ctx rfl
    exact exec_sameCore (k := .onDigest ctx.toNat initBody) rfl he (Body.effect_used_eq_false _ _ fun _ _ => rfl)
  · rintro ctx data c rfl hc hroom
    refine exec_sameCore (k := .onDigest ctx.toNat (updateBody data)) rfl he (Body.effect_used_eq_false _ _ fun d hd => ?_)
    obtain rfl := Option.some.inj (hc.symm.trans hd)
    exact compresses_eq_false hroom
  · rintro ctx data h rfl hh hroom
    refine exec_sameCore (k := .onHmac ctx.toNat (hmacUpdateBody data)) rfl he (Body.effect_used_eq_false _ _ fun k hk => ?_)
    obtain rfl := Option.some.inj (hh.symm.trans hk)
    exact compresses_eq_false hroom

/-! ### Commands on different slots (R50) -/

/-- Two writes that do not meet in a slot. -/
def SlotWrite.Apart (w w' : SlotWrite) : Prop :=
  match w, w' with
  | .digest n _, .digest m _ => n ≠ m
  | .hmac n _, .hmac m _ => n ≠ m
  | _, _ => True

theorem State.put_comm (s : State) {w w' : SlotWrite} (h : w.Apart w') : (s.put w).put w' = (s.put w').put w := by
  cases w <;> cases w'
  case digest.digest => simp [put, setDigest, List.set_comm _ _ h]
  case hmac.hmac => simp [put, setHmac, List.set_comm _ _ h]
  all_goals rfl

theorem State.retireCoreIf_put (s : State) (u : Bool) (w : SlotWrite) :
    (s.retireCoreIf u).put w = (s.put w).retireCoreIf u := by
  cases u <;> cases w <;> rfl

theorem State.retireCoreIf_comm (s : State) (u v : Bool) :
    (s.retireCoreIf u).retireCoreIf v = (s.retireCoreIf v).retireCoreIf u := by
  cases u <;> cases v <;> rfl

theorem Effect.work_comm (s : State) {f g : Effect} (h : f.write.Apart g.write) : g.work (f.work s) = f.work (g.work s) := by
  cases f with
  | error e => rfl
  | ok w u d =>
    cases g with
    | error e => rfl
    | ok w' u' d' =>
      simp only [work, State.retireCoreIf_put]
      rw [State.put_comm (w := w) (w' := w') s h, State.retireCoreIf_comm]

/-- The slot that a write changes is one that the instruction names. -/
def SlotWrite.NamedBy (w : SlotWrite) (i : Instr) : Prop :=
  match w with
  | .nothing => True
  | .digest n _ => digestSlotOf i = some n
  | .hmac n _ => hmacSlotOf i = some n

/-- A body writes nothing, or what it makes of a slot that is ready for it. -/
theorem Body.effect_write_cases {σ : Type} (b : Body σ) (write : σ → SlotWrite) (slot : Option σ) :
    (b.effect write slot).write = .nothing ∨
      ∃ c, slot = some c ∧ b.ready c = true ∧ (b.effect write slot).write = write (b.run c) := by
  cases slot with
  | none => exact .inl rfl
  | some c =>
    cases hc : b.ready c with
    | false => exact .inl (by rw [b.effect_of_not_ready write hc, Effect.write])
    | true => exact .inr ⟨c, rfl, hc, by rw [b.effect_of_ready write hc, Effect.write]⟩

/-- The slots that an instruction names are those of its command: a Digest slot, an HMAC slot, or none (R62). -/
theorem slotsOf_command {i : Instr} {k : Command} (h : commandOf i = some k) :
    match k with
    | .onDigest n _ => digestSlotOf i = some n ∧ hmacSlotOf i = none
    | .onHmac n _ => digestSlotOf i = none ∧ hmacSlotOf i = some n
    | .oneShot _ => digestSlotOf i = none ∧ hmacSlotOf i = none := by
  cases i <;> simp only [commandOf, Option.some.injEq, reduceCtorEq] at h <;> subst h <;> exact ⟨rfl, rfl⟩

theorem Command.effect_write_namedBy {i : Instr} {k : Command} (h : commandOf i = some k) (s : State) :
    (k.effect s).write.NamedBy i := by
  have hslots := slotsOf_command h
  cases k with
  | oneShot digest => trivial
  | onDigest n b =>
    rcases b.effect_write_cases (.digest n) s.dc[n]? with hw | ⟨c, -, -, hw⟩ <;> rw [effect, hw]
    · trivial
    · exact hslots.1
  | onHmac n b =>
    rcases b.effect_write_cases (.hmac n) s.hc[n]? with hw | ⟨c, -, -, hw⟩ <;> rw [effect, hw]
    · trivial
    · exact hslots.2

/-- A command's effect is read off at the slots it names. -/
theorem Command.effect_congr {i : Instr} {k : Command} {s t : State} (h : commandOf i = some k)
    (hdc : ∀ n, digestSlotOf i = some n → t.dc[n]? = s.dc[n]?) (hhc : ∀ n, hmacSlotOf i = some n → t.hc[n]? = s.hc[n]?) :
    k.effect t = k.effect s := by
  have hslots := slotsOf_command h
  cases k with
  | oneShot digest => rfl
  | onDigest n b => rw [effect, effect, hdc n hslots.1]
  | onHmac n b => rw [effect, effect, hhc n hslots.2]

/-- No instruction names a Digest slot and an HMAC slot (R62). -/
theorem hmacSlotOf_of_digestSlotOf {i : Instr} {n : Nat} (h : digestSlotOf i = some n) : hmacSlotOf i = none := by
  cases i <;> simp [digestSlotOf] at h <;> rfl

/-- Two instructions that name different slots. -/
def SlotsApart (i j : Instr) : Prop := digestSlotOf i ≠ digestSlotOf j ∨ hmacSlotOf i ≠ hmacSlotOf j

section
variable {i j : Instr} (h : SlotsApart i j)
include h

theorem SlotsApart.digest {n : Nat} (hj : digestSlotOf j = some n) : digestSlotOf i ≠ some n := by
  intro hi
  rcases h with hne | hne
  · exact hne (hi.trans hj.symm)
  · exact hne ((hmacSlotOf_of_digestSlotOf hi).trans (hmacSlotOf_of_digestSlotOf hj).symm)

theorem SlotsApart.hmac {n : Nat} (hj : hmacSlotOf j = some n) : hmacSlotOf i ≠ some n := by
  intro hi
  have hnone {i : Instr} (hh : hmacSlotOf i = some n) : digestSlotOf i = none :=
    Option.eq_none_iff_forall_ne_some.mpr fun m hm => by simp [hmacSlotOf_of_digestSlotOf hm] at hh
  rcases h with hne | hne
  · exact hne ((hnone hi).trans (hnone hj).symm)
  · exact hne (hi.trans hj.symm)

theorem SlotsApart.symm : SlotsApart j i := h.imp Ne.symm Ne.symm

theorem SlotsApart.writes {w w' : SlotWrite} (hw : w.NamedBy i) (hw' : w'.NamedBy j) : w.Apart w' := by
  cases w <;> cases w'
  case digest.digest => rintro rfl; exact h.digest hw' hw
  case hmac.hmac => rintro rfl; exact h.hmac hw' hw
  all_goals trivial

/-- A command's effect is the same after a command on another slot. -/
theorem SlotsApart.effect_after {k l : Command} (hk : commandOf i = some k) (hl : commandOf j = some l) (s : State) :
    l.effect ((k.effect s).apply s) = l.effect s := by
  have htouched := exec_touches (exec_command hk s)
  exact Command.effect_congr hl (fun n hn => htouched.dc n (h.digest hn)) fun n hn => htouched.hc n (h.hmac hn)

/-- Two commands on different slots, one after the other: both effects are those on the state before the two. -/
theorem SlotsApart.execAll {k l : Command} (hk : commandOf i = some k) (hl : commandOf j = some l) (s : State) :
    execAll [i, j] s = .next ((l.effect s).apply ((k.effect s).apply s)) := by
  rw [execAll_cons_of_next (exec_command hk s), execAll_singleton_of_next (exec_command hl _), h.effect_after hk hl]

end

/-- A slot command is a command (R62). -/
theorem command_of_slot {i : Instr} (h : digestSlotOf i ≠ none ∨ hmacSlotOf i ≠ none) : ∃ k, commandOf i = some k := by
  cases i <;> simp [digestSlotOf, hmacSlotOf] at h <;> exact ⟨_, rfl⟩

/-- Settles O54: each order applies the same two effects, whose work commutes; only the `FAULT` bit in a response can tell which
came first. -/
theorem commandsOnDifferentSlotsCommute : Obligations.CommandsOnDifferentSlotsCommute := by
  intro i j s hi hj hne
  have hapart : SlotsApart i j := hne
  obtain ⟨k, hk⟩ := command_of_slot hi
  obtain ⟨l, hl⟩ := command_of_slot hj
  have hij := hapart.execAll hk hl s
  have hji := hapart.symm.execAll hl hk s
  have hwork := Effect.work_comm s (hapart.writes (Command.effect_write_namedBy hk s) (Command.effect_write_namedBy hl s))
  rw [Effect.apply_apply] at hij hji
  rw [← hwork] at hji
  refine ⟨_, _, _, _, _, _, hij, hji, ?_, rfl, rfl, Effect.reply_code _ _ _, Effect.reply_code _ _ _,
    Effect.reply_drop _ _ _ 0, Effect.reply_drop _ _ _ 0, fun hfault => ?_⟩
  · rw [Bool.or_right_comm]
  · have hclear : ∀ a b c : Bool, (a || b || c) = a → (a || b) = a ∧ (a || c) = a := by decide
    obtain ⟨hi', hj'⟩ := hclear _ _ _ hfault
    rw [hi', hj']
    exact ⟨rfl, rfl⟩

end Sys2Proof.Machine
end

section
/-!
The invariant of the engine (spec/10_state.md sections 2 to 4 and 7, spec/30_encoding.md section 4): it holds at reset, every
body, write and step keeps it, and from it a step always answers.
-/

namespace Sys2Proof.Machine

/-! ### The bodies (R20, R24) -/

section
variable {c : DigestCtx} (data : List Byte)

theorem initOp_inv (h : c.buf.wf) : (initOp c).Inv :=
  ⟨initOp_buf_wf h, fun _ => rfl, nofun⟩

/-- The fill count and the low word of the counter advance by the same length. -/
theorem updateOp_inv (hp : c.phase = .active) (h : c.Inv) : (updateOp c data).Inv := by
  obtain ⟨hbuf, hfill, -⟩ := h
  have hphase := (updateOp_phase c data).trans hp
  refine ⟨updateOp_buf_wf data hbuf, fun _ => ?_, fun ht => Phase.noConfusion (hphase.symm.trans ht)⟩
  rw [updateOp_fill, updateOp_lo, hfill hp, BitVec.toNat_add, BitVec.toNat_ofNat]
  omega

theorem finishOp_inv (h : c.buf.wf) : (finishOp c).Inv :=
  ⟨finishOp_buf_wf h, fun hp => Phase.noConfusion ((finishOp_phase c).symm.trans hp), fun _ => finishOp_fill c⟩

variable {h : HmacCtx}

theorem hmacInitOp_inv (key : List Byte) (hh : h.Inv) : (hmacInitOp h key).Inv := by
  obtain ⟨hinner, houter, hopad, hphase⟩ := hh
  refine ⟨?_, houter, hmacInitOp_opad_wf h key hopad, hphase⟩
  exact updateOp_inv _ rfl (initOp_inv hinner.1)

theorem hmacUpdateOp_inv (hp : h.inner.phase = .active) (hh : h.Inv) : (hmacUpdateOp h data).Inv := by
  obtain ⟨hinner, houter⟩ := hh
  exact ⟨updateOp_inv data hp hinner, houter⟩

theorem hmacFinishOp_inv (hh : h.Inv) : (hmacFinishOp h).Inv := by
  obtain ⟨hinner, houter, hopad, -⟩ := hh
  rw [HmacCtx.Inv, hmacFinishOp_inner, hmacFinishOp_opad, hmacFinishOp_outer, finishOp_phase]
  exact ⟨finishOp_inv hinner.1, finishOp_inv (updateOp_buf_wf _ (updateOp_buf_wf _ (initOp_buf_wf houter.1))), hopad, nofun⟩

end

/-! ### Writes and effects -/

/-- What a write puts in a slot meets the invariant of the slot. -/
def SlotWrite.Sound (w : SlotWrite) : Prop :=
  match w with
  | .nothing => True
  | .digest _ c => c.Inv
  | .hmac _ h => h.Inv

/-- The part of the invariant in the slots. -/
def State.SlotsInv (s : State) : Prop := s.config.wf ∧ (∀ c ∈ s.dc, c.Inv) ∧ ∀ h ∈ s.hc, h.Inv

theorem State.Inv.slots {s : State} (h : s.Inv) : s.SlotsInv := ⟨h.1, h.2.1, h.2.2.1⟩

/-- Where no `COMPRESS` is in progress the invariant is that of the slots, the step index and the responses. -/
theorem State.inv_of_idle {s : State} (hs : s.SlotsInv) (ht : s.t.toNat ≤ 48) (hj : s.job = none)
    (hr : ∀ r ∈ s.responses, r.length = 4 ∨ r.length = 20) : s.Inv := by
  obtain ⟨hconfig, hdc, hhc⟩ := hs
  exact ⟨hconfig, hdc, hhc, ht, fun r h => by simp [hj] at h, hr⟩

theorem State.put_slotsInv {s : State} {w : SlotWrite} (hs : s.SlotsInv) (hw : w.Sound) : (s.put w).SlotsInv := by
  obtain ⟨hconfig, hdc, hhc⟩ := hs
  cases w with
  | nothing => exact ⟨hconfig, hdc, hhc⟩
  | digest n c =>
    refine ⟨by simpa [config, put] using hconfig, fun d hd => ?_, hhc⟩
    rcases List.mem_or_eq_of_mem_set hd with hd | rfl
    · exact hdc d hd
    · exact hw
  | hmac n h =>
    refine ⟨by simpa [config, put] using hconfig, hdc, fun k hk => ?_⟩
    rcases List.mem_or_eq_of_mem_set hk with hk | rfl
    · exact hhc k hk
    · exact hw

/-- A sound effect writes soundly and answers the status word with a digest of 16 bytes or none (R68). -/
def Effect.Sound (f : Effect) : Prop :=
  match f with
  | .error _ => True
  | .ok w _ digest => w.Sound ∧ (digest.length = 0 ∨ digest.length = 16)

theorem Effect.length_reply {f : Effect} (hf : f.Sound) (fault : Bool) :
    (f.reply fault).length = 4 ∨ (f.reply fault).length = 20 := by
  cases f with
  | error e => exact .inl (by cases e <;> rfl)
  | ok w used digest =>
    obtain ⟨-, hlen⟩ := hf
    rcases hlen with hlen | hlen <;> simp [reply, okBytes, hlen]

theorem Effect.work_slotsInv {f : Effect} {s : State} (hs : s.SlotsInv) (hf : f.Sound) : (f.work s).SlotsInv := by
  cases f with
  | error e => exact hs
  | ok w used digest =>
    have hput := State.put_slotsInv hs hf.1
    cases used
    · exact hput
    · exact hput

theorem Effect.work_t_le {f : Effect} {s : State} (ht : s.t.toNat ≤ 48) : (f.work s).t.toNat ≤ 48 := by
  cases f with
  | error e => exact ht
  | ok w used digest =>
    cases used
    · cases w <;> exact ht
    · exact State.retireCore_t_le _

theorem Effect.work_idle {f : Effect} {s : State} (hj : s.job = none) : (f.work s).job = none := by
  cases f with
  | error e => exact hj
  | ok w used digest => exact State.retireCoreIf_idle used (by simpa using hj)

theorem Effect.apply_inv {f : Effect} {s : State} (hs : s.Inv) (hj : s.job = none) (hf : f.Sound) : (f.apply s).Inv := by
  have hslots := work_slotsInv hs.slots hf
  obtain ⟨-, -, -, ht, -, hr⟩ := hs
  rw [apply_eq]
  refine State.inv_of_idle hslots (work_t_le ht) (work_idle hj) fun r hmem => ?_
  rcases List.mem_append.mp hmem with hmem | hmem
  · exact hr r hmem
  · rw [List.mem_singleton.mp hmem]
    exact length_reply hf s.fault

/-! ### Commands -/

/-- A body that keeps what holds of a slot, and answers a digest of 16 bytes or none. -/
structure Body.Keeps {σ : Type} (b : Body σ) (P : σ → Prop) : Prop where
  run : ∀ c, P c → b.ready c = true → P (b.run c)
  digest : ∀ c, (b.digest c).length = 0 ∨ (b.digest c).length = 16

theorem Body.Keeps.effect_sound {σ : Type} {b : Body σ} {P : σ → Prop} {write : σ → SlotWrite} {slot : Option σ}
    (h : b.Keeps P) (hw : ∀ c, P c → (write c).Sound) (hs : ∀ c, slot = some c → P c) : (b.effect write slot).Sound := by
  cases slot with
  | none => trivial
  | some c =>
    cases hc : b.ready c with
    | false => rw [b.effect_of_not_ready write hc]; trivial
    | true => rw [b.effect_of_ready write hc]; exact ⟨hw _ (h.run c (hs c rfl) hc), h.digest c⟩

/-- The bodies of the commands keep the invariant of a context (R20, R24). -/
theorem Command.keeps {i : Instr} {k : Command} (h : commandOf i = some k) :
    match k with
    | .onDigest _ b => b.Keeps DigestCtx.Inv
    | .onHmac _ b => b.Keeps HmacCtx.Inv
    | .oneShot digest => digest.length = 16 := by
  cases i <;> simp only [commandOf, Option.some.injEq, reduceCtorEq] at h <;> subst h
  case init ctx => exact ⟨fun c hc _ => initOp_inv hc.1, fun _ => .inl rfl⟩
  case update ctx data => exact ⟨fun c hc hp => updateOp_inv data (isActive_iff.mp hp) hc, fun _ => .inl rfl⟩
  case finish ctx => exact ⟨fun c hc _ => finishOp_inv hc.1, fun c => .inr (length_digestOf _)⟩
  case digest data => exact length_md4 data
  case hmacInit ctx key => exact ⟨fun _ hh _ => hmacInitOp_inv key hh, fun _ => .inl rfl⟩
  case hmacUpdate ctx data => exact ⟨fun _ hh hp => hmacUpdateOp_inv data (isActive_iff.mp hp) hh, fun _ => .inl rfl⟩
  case hmacFinish ctx => exact ⟨fun _ hh _ => hmacFinishOp_inv hh, fun h => .inr (length_tagOf _)⟩
  case hmac key data => exact length_tagOf _

theorem Command.effect_sound {i : Instr} {k : Command} {s : State} (h : commandOf i = some k) (hs : s.SlotsInv) :
    (k.effect s).Sound := by
  obtain ⟨-, hdc, hhc⟩ := hs
  have hkeeps := Command.keeps h
  cases k with
  | onDigest n b => exact Body.Keeps.effect_sound hkeeps (fun _ hc => hc) fun c hc => hdc c (List.mem_of_getElem? hc)
  | onHmac n b => exact Body.Keeps.effect_sound hkeeps (fun _ hh => hh) fun h hh => hhc h (List.mem_of_getElem? hh)
  | oneShot digest => exact ⟨trivial, .inr hkeeps⟩

theorem runPacket_inv {s : State} (p : List Byte) (hs : s.Inv) (hj : s.job = none) :
    ∃ t, runPacket p s = .next t ∧ t.Inv := by
  cases hd : decodePacket s.config p with
  | error e => exact ⟨_, runPacket_of_error s hd, Effect.apply_inv (f := .error e) hs hj trivial⟩
  | ok i =>
    obtain ⟨k, hk⟩ := command_of_decodePacket hd
    exact ⟨_, (runPacket_of_ok s hd).trans (exec_command hk s), Effect.apply_inv hs hj (Command.effect_sound hk hs.slots)⟩

/-! ### The core inside a `COMPRESS` (R13, R18) -/

/-- The context at a place of the engine meets the invariant. -/
theorem State.SlotsInv.ctxAt {s : State} {r : CtxRef} {c : DigestCtx} (hs : s.SlotsInv) (hc : s.ctxAt r = some c) :
    c.Inv := by
  obtain ⟨-, hdc, hhc⟩ := hs
  cases r with
  | digest n => exact hdc c (List.mem_of_getElem? hc)
  | inner n =>
    obtain ⟨h, hh, rfl⟩ := Option.map_eq_some_iff.mp hc
    exact (hhc h (List.mem_of_getElem? hh)).1
  | outer n =>
    obtain ⟨h, hh, rfl⟩ := Option.map_eq_some_iff.mp hc
    exact (hhc h (List.mem_of_getElem? hh)).2.1

/-- A context of the same phase put in its place is a sound write. -/
theorem State.SlotsInv.ctxWrite_sound {s : State} {r : CtxRef} {c d : DigestCtx} (hs : s.SlotsInv)
    (hc : s.ctxAt r = some c) (hd : d.Inv) (hp : d.phase = c.phase) : (ctxWrite s.hc r d).Sound := by
  obtain ⟨-, -, hhc⟩ := hs
  cases r with
  | digest n => exact hd
  | inner n =>
    obtain ⟨h, hh, rfl⟩ := Option.map_eq_some_iff.mp hc
    obtain ⟨-, houter⟩ := hhc h (List.mem_of_getElem? hh)
    rw [ctxWrite, hh]
    exact ⟨hd, houter⟩
  | outer n =>
    obtain ⟨h, hh, rfl⟩ := Option.map_eq_some_iff.mp hc
    obtain ⟨hinner, -, hopad, hphase⟩ := hhc h (List.mem_of_getElem? hh)
    rw [ctxWrite, hh]
    exact ⟨hinner, hd, hopad, hp ▸ hphase⟩

theorem runCore_inv {s : State} {r : CtxRef} (hs : s.Inv) (hj : s.job = some r) : ∃ t, runCore r s = .next t ∧ t.Inv := by
  have hslots := hs.slots
  obtain ⟨hconfig, hdc, hhc, ht, hjob, hr⟩ := hs
  obtain ⟨c, hc, hfill⟩ := hjob r hj
  cases hd : decodeStep s.t with
  | some i =>
    have he := exec_step_of_block hd (State.jobBlock_of_job hj hc)
    refine ⟨_, (runCore_of_step r hd).trans he, hconfig, hdc, hhc, ?_, ?_, hr⟩
    · have hlt : s.t.toNat < 48 := (List.getElem?_eq_some_iff.mp hd).1
      have hone : (1 : BitVec 6).toNat = 1 := rfl
      simp only [BitVec.toNat_add, hone]
      omega
    · intro r' hr'
      exact hjob r' hr'
  | none =>
    have h48 : s.t = 48 := BitVec.eq_of_toNat_eq (Nat.le_antisymm ht ((decodeStep_eq_none_iff s.t).mp hd))
    refine ⟨_, runCore_of_end h48 hc, State.inv_of_idle ?_ (State.retireCore_t_le _) rfl ?_⟩
    · obtain ⟨hbuf, hactive, -⟩ := hslots.ctxAt hc
      rw [State.setCtxAt_eq_put]
      refine State.put_slotsInv (s := s) hslots (hslots.ctxWrite_sound hc ⟨hbuf, fun hp => ?_, fun _ => rfl⟩ rfl)
      rw [← hactive hp, hfill]
    · rw [State.retireCore_responses, State.setCtxAt_eq_put, State.put_responses]
      exact hr

/-! ### Reset (R31, R230) -/

theorem DigestCtx.reset_inv : DigestCtx.reset.Inv := ⟨Memory.wf_nil, nofun, nofun⟩

theorem HmacCtx.reset_inv : HmacCtx.reset.Inv := ⟨DigestCtx.reset_inv, DigestCtx.reset_inv, Memory.wf_nil, nofun⟩

theorem State.resetOf_inv {cfg : Config} (h : cfg.wf) : (State.resetOf cfg).Inv := by
  refine State.inv_of_idle ⟨?_, fun c hc => ?_, fun k hk => ?_⟩ (Nat.zero_le _) rfl nofun
  · simpa [State.config, State.resetOf] using h
  · rw [List.eq_of_mem_replicate hc]
    exact DigestCtx.reset_inv
  · rw [List.eq_of_mem_replicate hk]
    exact HmacCtx.reset_inv

/-- Settles O55: every field that the invariant speaks of is 0 or `UNINIT`. -/
theorem invariantHoldsAtReset : Obligations.InvariantHoldsAtReset :=
  ⟨fun _ => State.resetOf_inv, State.resetOf_inv (cfg := Config.testInstance) (by decide)⟩

/-! ### Steps -/

/-- From a state that meets the invariant a step answers one that does. -/
theorem step_inv {s : State} (hs : s.Inv) : ∃ t, step s = .next t ∧ t.Inv := by
  rcases step_cases s with ⟨rest, -, h⟩ | ⟨-, r, hj, h⟩ | ⟨-, -, h⟩ | ⟨-, hj, p, rest, -, h⟩
  · exact ⟨_, h, State.resetOf_inv hs.1⟩
  · rw [h]
    exact runCore_inv hs hj
  · exact ⟨s, h, hs⟩
  · rw [h]
    exact runPacket_inv p hs hj

/-- Settles O56: the state that a step answers is the one that meets the invariant. -/
theorem everyStepKeepsTheInvariant : Obligations.EveryStepKeepsTheInvariant := by
  intro s t hs he
  obtain ⟨u, hu, hinv⟩ := step_inv hs
  obtain rfl := Host.Outcome.next.inj (hu.symm.trans he)
  exact hinv

/-- Settles O57: a step from the invariant is never a fault or a refusal. -/
theorem engineNeverStops : Obligations.EngineNeverStops := by
  intro s hs
  obtain ⟨t, ht, -⟩ := step_inv hs
  exact ⟨t, ht⟩

end Sys2Proof.Machine
end

section
/-!
Reset and the phases (spec/10_state.md section 7, spec/70_reset_and_hazards.md section 1): what reset leaves, and that no other
step clears `FAULT` or undoes a phase.
-/

namespace Sys2Proof.Machine

/-! ### The state that reset leaves (R31, R230) -/

theorem phase_of_mem_replicate_reset {n : Nat} {c : DigestCtx} (h : c ∈ List.replicate n DigestCtx.reset) :
    c.phase = .uninit := by
  rw [List.eq_of_mem_replicate h]
  rfl

theorem phases_of_mem_replicate_reset {n : Nat} {k : HmacCtx} (h : k ∈ List.replicate n HmacCtx.reset) :
    k.inner.phase = .uninit ∧ k.outer.phase = .uninit := by
  rw [List.eq_of_mem_replicate h]
  exact ⟨rfl, rfl⟩

theorem State.config_resetOf (cfg : Config) : (State.resetOf cfg).config = cfg := by
  simp [config, resetOf]

/-- Settles O49: the table of R31, and the slot counts that the machine starts with. -/
theorem resetStateMeetsTheTable : Obligations.ResetStateMeetsTheTable := by
  refine ⟨fun cfg hcfg => ⟨⟨?_, rfl, fun c => phase_of_mem_replicate_reset, fun k => phases_of_mem_replicate_reset, rfl, rfl,
    rfl⟩, State.config_resetOf cfg⟩, rfl, rfl⟩
  rwa [State.config_resetOf]

/-! ### What a command does to the phases (R19, R24) -/

section
variable {i : Instr} {k : Command} {s t : State} (hk : commandOf i = some k) (he : exec i s = .next t) (n : Nat)
include hk he

theorem exec_command_eq : t = (k.effect s).apply s :=
  Host.Outcome.next.inj (he.symm.trans (exec_command hk s))

theorem fault_of_command (h : s.fault = true) : t.fault = true := by
  rw [exec_command_eq hk he, Effect.apply_eq, h]
  rfl

/-- A command leaves a Digest slot, or its body ran on it. -/
theorem digestSlot_of_command :
    t.dc[n]? = s.dc[n]? ∨ ∃ b c, k = .onDigest n b ∧ s.dc[n]? = some c ∧ t.dc[n]? = some (b.run c) := by
  rw [exec_command_eq hk he, Effect.apply_dc]
  cases k with
  | oneShot digest => exact .inl rfl
  | onHmac m b =>
    rcases b.effect_write_cases (.hmac m) s.hc[m]? with hw | ⟨h, -, -, hw⟩ <;> rw [Command.effect, hw] <;> exact .inl rfl
  | onDigest m b =>
    rcases b.effect_write_cases (.digest m) s.dc[m]? with hw | ⟨c, hc, -, hw⟩ <;> rw [Command.effect, hw]
    · exact .inl rfl
    · by_cases hmn : m = n
      · subst hmn
        exact .inr ⟨b, c, rfl, hc, by simp [State.put, (List.getElem?_eq_some_iff.mp hc).1]⟩
      · exact .inl (List.getElem?_set_ne hmn)

/-- A command leaves an HMAC slot, or its body ran on it. -/
theorem hmacSlot_of_command :
    t.hc[n]? = s.hc[n]? ∨ ∃ b h, k = .onHmac n b ∧ s.hc[n]? = some h ∧ t.hc[n]? = some (b.run h) := by
  rw [exec_command_eq hk he, Effect.apply_hc]
  cases k with
  | oneShot digest => exact .inl rfl
  | onDigest m b =>
    rcases b.effect_write_cases (.digest m) s.dc[m]? with hw | ⟨c, -, -, hw⟩ <;> rw [Command.effect, hw] <;> exact .inl rfl
  | onHmac m b =>
    rcases b.effect_write_cases (.hmac m) s.hc[m]? with hw | ⟨h, hh, -, hw⟩ <;> rw [Command.effect, hw]
    · exact .inl rfl
    · by_cases hmn : m = n
      · subst hmn
        exact .inr ⟨b, h, rfl, hh, by simp [State.put, (List.getElem?_eq_some_iff.mp hh).1]⟩
      · exact .inl (List.getElem?_set_ne hmn)

/-- R171: a phase that a command changes becomes `TERMINAL`, unless the command is `INIT` of the slot. -/
theorem digestPhase_of_command {c d : DigestCtx} (hc : s.dc[n]? = some c) (hd : t.dc[n]? = some d) (hp : d.phase ≠ c.phase) :
    d.phase = .terminal ∨ ∃ ctx, i = .init ctx ∧ ctx.toNat = n := by
  rcases digestSlot_of_command hk he n with hsame | ⟨b, c', rfl, hc', hd'⟩
  · obtain rfl := Option.some.inj (hd.symm.trans (hsame.trans hc))
    exact absurd rfl hp
  · obtain rfl := Option.some.inj (hc.symm.trans hc')
    obtain rfl := Option.some.inj (hd.symm.trans hd')
    cases i <;> simp only [commandOf, Option.some.injEq, Command.onDigest.injEq, reduceCtorEq] at hk
    case init ctx => exact .inr ⟨ctx, rfl, hk.1⟩
    case update ctx data =>
      obtain ⟨-, rfl⟩ := hk
      exact absurd (updateOp_phase c data) hp
    case finish ctx =>
      obtain ⟨-, rfl⟩ := hk
      exact .inl (finishOp_phase c)

/-- R192: likewise for `INNER` and `HMAC_INIT`, and `OUTER` only becomes `TERMINAL`. -/
theorem hmacPhases_of_command {h h' : HmacCtx} (hh : s.hc[n]? = some h) (hh' : t.hc[n]? = some h') :
    (h'.inner.phase ≠ h.inner.phase → h'.inner.phase = .terminal ∨ ∃ ctx key, i = .hmacInit ctx key ∧ ctx.toNat = n) ∧
      (h'.outer.phase ≠ h.outer.phase → h'.outer.phase = .terminal) := by
  rcases hmacSlot_of_command hk he n with hsame | ⟨b, k', rfl, hk', hd'⟩
  · obtain rfl := Option.some.inj (hh'.symm.trans (hsame.trans hh))
    exact ⟨fun hp => absurd rfl hp, fun hp => absurd rfl hp⟩
  · obtain rfl := Option.some.inj (hh.symm.trans hk')
    obtain rfl := Option.some.inj (hh'.symm.trans hd')
    cases i <;> simp only [commandOf, Option.some.injEq, Command.onHmac.injEq, reduceCtorEq] at hk
    case hmacInit ctx key =>
      obtain ⟨hn, rfl⟩ := hk
      exact ⟨fun _ => .inr ⟨ctx, key, rfl, hn⟩, fun hp => absurd rfl hp⟩
    case hmacUpdate ctx data =>
      obtain ⟨-, rfl⟩ := hk
      exact ⟨fun hp => absurd (updateOp_phase h.inner data) hp, fun hp => absurd rfl hp⟩
    case hmacFinish ctx =>
      obtain ⟨-, rfl⟩ := hk
      exact ⟨fun _ => .inl (finishOp_phase h.inner), fun _ => finishOp_phase (outerFed h)⟩

end

/-! ### What the core inside a `COMPRESS` does to the phases -/

/-- The phases of the engine's contexts: Digest, and `INNER` and `OUTER` (R19, R22). -/
def State.phases (s : State) : List Phase × List (Phase × Phase) :=
  (s.dc.map fun c => c.phase, s.hc.map fun h => (h.inner.phase, h.outer.phase))

/-- A list keeps what a function says of its entries when one is replaced by another of which it says the same. -/
theorem map_set_of_eq {α β : Type} (f : α → β) {l : List α} {n : Nat} {a b : α} (ha : l[n]? = some a) (hf : f b = f a) :
    (l.set n b).map f = l.map f := by
  obtain ⟨hn, rfl⟩ := List.getElem?_eq_some_iff.mp ha
  rw [List.map_set, hf, ← List.getElem_map f (h := by simpa using hn), List.set_getElem_self]

theorem State.setCtxAt_phases {s : State} {r : CtxRef} {c d : DigestCtx} (hc : s.ctxAt r = some c) (hp : d.phase = c.phase) :
    (s.setCtxAt r d).phases = s.phases := by
  rw [setCtxAt_eq_put]
  cases r with
  | digest n => simp [phases, put, ctxWrite, map_set_of_eq (fun c => c.phase) hc hp]
  | inner n =>
    obtain ⟨h, hh, rfl⟩ := Option.map_eq_some_iff.mp hc
    simp [phases, put, ctxWrite, hh, map_set_of_eq (fun h => (h.inner.phase, h.outer.phase)) (b := { h with inner := d }) hh
      (by rw [hp])]
  | outer n =>
    obtain ⟨h, hh, rfl⟩ := Option.map_eq_some_iff.mp hc
    simp [phases, put, ctxWrite, hh, map_set_of_eq (fun h => (h.inner.phase, h.outer.phase)) (b := { h with outer := d }) hh
      (by rw [hp])]

/-- The core inside a `COMPRESS` changes no phase and leaves `FAULT`. -/
theorem runCore_phases {r : CtxRef} {s t : State} (he : runCore r s = .next t) :
    t.phases = s.phases ∧ t.fault = s.fault := by
  rcases runCore_next he with ⟨i, hd, hi⟩ | ⟨c, -, hc, rfl⟩
  · obtain ⟨block, -, rfl⟩ := exec_step_next hd hi
    exact ⟨rfl, rfl⟩
  · refine ⟨State.setCtxAt_phases hc rfl, ?_⟩
    rw [State.retireCore_fault, State.setCtxAt_eq_put, State.put_fault]

section
variable {s t : State} (h : t.phases = s.phases) {n : Nat}
include h

theorem State.digestPhase_of_phases {c d : DigestCtx} (hc : s.dc[n]? = some c) (hd : t.dc[n]? = some d) :
    d.phase = c.phase := by
  have hn := congrArg (fun l => l[n]?) (Prod.mk.inj h).1
  simpa [hc, hd] using hn

theorem State.hmacPhases_of_phases {k k' : HmacCtx} (hk : s.hc[n]? = some k) (hk' : t.hc[n]? = some k') :
    k'.inner.phase = k.inner.phase ∧ k'.outer.phase = k.outer.phase := by
  have hn := congrArg (fun l => l[n]?) (Prod.mk.inj h).2
  simpa [hk, hk'] using hn

end

/-! ### What a step does to `FAULT` and the phases -/

/-- A step other than a reset is that of a command that a packet decodes to, or leaves every phase and `FAULT` if it is set. -/
theorem step_phases_or_command {s t : State} (hr : pendingReset s.inputs = none) (he : step s = .next t) :
    (t.phases = s.phases ∧ (s.fault = true → t.fault = true)) ∨
      ∃ p rest i k, s.inputs = .packet p :: rest ∧ decodePacket s.config p = .ok i ∧ commandOf i = some k ∧
        exec i { s with inputs := rest } = .next t := by
  rcases step_cases s with ⟨rest, hp, -⟩ | ⟨-, r, hj, h⟩ | ⟨-, -, h⟩ | ⟨-, hj, p, rest, hi, h⟩
  · simp [hr] at hp
  · obtain ⟨hphases, hfault⟩ := runCore_phases (h.symm.trans he)
    exact .inl ⟨hphases, hfault.trans⟩
  · obtain rfl := Host.Outcome.next.inj (h.symm.trans he)
    exact .inl ⟨rfl, id⟩
  · cases hd : decodePacket s.config p with
    | error e =>
      obtain rfl := Host.Outcome.next.inj ((h.trans (runPacket_of_error _ hd)).symm.trans he)
      exact .inl ⟨rfl, fun _ => rfl⟩
    | ok i =>
      obtain ⟨k, hk⟩ := command_of_decodePacket hd
      exact .inr ⟨p, rest, i, k, hi, hd, hk, (h.trans (runPacket_of_ok { s with inputs := rest } hd)).symm.trans he⟩

/-- Settles O48: a reset is obeyed whatever waits before it; any other step is a command's, or changes no phase. -/
theorem resetIsTheOnlyWayBack : Obligations.ResetIsTheOnlyWayBack := by
  refine ⟨fun s later hr => ?_, fun s t hr he => ?_⟩
  · have hpending : pendingReset (s.inputs ++ [.reset] ++ later) = some later := by
      rw [List.append_assoc, pendingReset_append_of_none hr]
      rfl
    exact ⟨_, step_of_reset (s := { s.hostReset with inputs := s.hostReset.inputs ++ later }) hpending, rfl, rfl, rfl, rfl,
      List.length_replicate, List.length_replicate, fun c => phase_of_mem_replicate_reset,
      fun k => phases_of_mem_replicate_reset⟩
  · rcases step_phases_or_command hr he with ⟨hphases, hfault⟩ | ⟨p, rest, i, k, hi, hd, hk, hexec⟩
    · refine ⟨hfault, fun n c d hc hd hp => absurd (State.digestPhase_of_phases hphases hc hd) hp, fun n h h' hh hh' => ?_⟩
      obtain ⟨hinner, houter⟩ := State.hmacPhases_of_phases hphases hh hh'
      exact ⟨fun hp => absurd hinner hp, fun hp => absurd houter hp⟩
    · refine ⟨fault_of_command (s := { s with inputs := rest }) hk hexec, fun n c d hc hd' hp => ?_, fun n h h' hh hh' => ?_⟩
      · refine (digestPhase_of_command (s := { s with inputs := rest }) hk hexec n hc hd' hp).imp_right ?_
        rintro ⟨ctx, rfl, hn⟩
        exact ⟨p, rest, ctx, hi, hd, hn⟩
      · obtain ⟨hinner, houter⟩ := hmacPhases_of_command (s := { s with inputs := rest }) hk hexec n hh hh'
        refine ⟨fun hp => (hinner hp).imp_right ?_, houter⟩
        rintro ⟨ctx, key, rfl, hn⟩
        exact ⟨p, rest, ctx, key, hi, hd, hn⟩

end Sys2Proof.Machine
end

section
/-!
What the host can tell apart (spec/10_state.md sections 6 and 7, spec/70_reset_and_hazards.md section 5,
spec/93_implementation_defined.md part 1): two idle engines that agree on what commands read stay so, step by step.
-/

namespace Sys2Proof.Machine

/-! ### The bodies -/

section
variable {c d : DigestCtx} (data : List Byte)

/-- `INIT` writes everything that a later command reads (R29). -/
theorem initOp_same (c d : DigestCtx) : (initOp c).Same (initOp d) :=
  ⟨rfl, fun _ => ⟨rfl, rfl, rfl, rfl, rfl⟩⟩

theorem DigestCtx.Same.count_eq (h : c.Same d) (hp : c.phase = .active) : c.count = d.count := by
  obtain ⟨-, hlo, hhi, -⟩ := h.2 hp
  rw [count, count, hlo, hhi]

theorem DigestCtx.Same.isActive_eq (h : c.Same d) : isActive c = isActive d := by
  rw [isActive, isActive, h.1]

theorem updateOp_same (h : c.Same d) (hp : c.phase = .active) : (updateOp c data).Same (updateOp d data) := by
  obtain ⟨hphase, hread⟩ := h
  obtain ⟨hh, hlo, hhi, hfill, hbuf⟩ := hread hp
  obtain ⟨hhc, hbufc⟩ := absorbAll_chain (addLength c (BitVec.ofNat 32 data.length)) data
  obtain ⟨hhd, hbufd⟩ := absorbAll_chain (addLength d (BitVec.ofNat 32 data.length)) data
  rw [addLength_h, addLength_fill, addLength_buf] at hhc hhd
  rw [addLength_fill, addLength_buf] at hbufc hbufd
  refine ⟨by rw [updateOp_phase, updateOp_phase, hphase], fun _ => ⟨?_, ?_, ?_, ?_, ?_⟩⟩
  · rw [updateOp, updateOp, hhc, hhd, hh, hbuf, hfill]
  · rw [updateOp_lo, updateOp_lo, hlo]
  · rw [updateOp, updateOp, absorbAll_hi, absorbAll_hi, addLength_hi, addLength_hi, hlo, hhi]
  · exact BitVec.eq_of_toNat_eq (by rw [updateOp_fill, updateOp_fill, hfill])
  · rw [updateOp_fill, updateOp, updateOp, hbufc, hfill, hbufd, ← hfill, hbuf]

theorem finishOp_same (c d : DigestCtx) : (finishOp c).Same (finishOp d) :=
  ⟨rfl, fun hp => Phase.noConfusion ((finishOp_phase c).symm.trans hp)⟩

/-- The digest reads what `Same` compares and nothing else (R164). -/
theorem digestOf_finishOp_eq_of_same (h : c.Same d) (hp : c.phase = .active) :
    digestOf (finishOp c) = digestOf (finishOp d) := by
  have hcount := h.count_eq hp
  obtain ⟨hh, -, -, hfill, hbuf⟩ := h.2 hp
  obtain ⟨-, -, -, -, -, hhc, -⟩ := finishOp_finishesTo c
  obtain ⟨-, -, -, -, -, hhd, -⟩ := finishOp_finishesTo d
  rw [digestOf, digestOf, hhc, hhd, hcount, hbuf, hh, hfill]

variable {h k : HmacCtx}

/-- `HMAC_INIT` writes everything of a slot that a later command reads (R29). -/
theorem hmacInitOp_same (h k : HmacCtx) (key : List Byte) : (hmacInitOp h key).Same (hmacInitOp k key) :=
  ⟨updateOp_same _ (initOp_same _ _) rfl, fun _ => (hmacInitOp_opad h key).trans (hmacInitOp_opad k key).symm⟩

theorem hmacUpdateOp_same (hs : h.Same k) (hp : h.inner.phase = .active) :
    (hmacUpdateOp h data).Same (hmacUpdateOp k data) :=
  ⟨updateOp_same data hs.1 hp, fun _ => hs.2 hp⟩

theorem hmacFinishOp_same (h k : HmacCtx) : (hmacFinishOp h).Same (hmacFinishOp k) :=
  ⟨finishOp_same _ _, fun hp => Phase.noConfusion ((finishOp_phase h.inner).symm.trans hp)⟩

/-- `OUTER` is initialised before it is read (R24, R188). -/
theorem tagOf_hmacFinishOp_eq_of_same (hs : h.Same k) (hp : h.inner.phase = .active) :
    tagOf (hmacFinishOp h) = tagOf (hmacFinishOp k) := by
  rw [tagOf_hmacFinishOp, tagOf_hmacFinishOp, outerMessage, outerMessage, hs.2 hp, digestOf_finishOp_eq_of_same hs.1 hp]

end

/-! ### Lists of slots -/

section
variable {α : Type} {R : α → α → Prop} {l l' : List α}

theorem forall₂_of_forall_mem (hlen : l.length = l'.length) (h : ∀ a ∈ l, ∀ b ∈ l', R a b) : List.Forall₂ R l l' :=
  List.forall₂_iff_get.mpr ⟨hlen, fun _ _ _ => h _ (List.getElem_mem _) _ (List.getElem_mem _)⟩

theorem forall₂_getElem? (h : List.Forall₂ R l l') (n : Nat) : Option.Rel R l[n]? l'[n]? := by
  induction h generalizing n with
  | nil => exact .none
  | cons hr _ ih =>
    cases n with
    | zero => exact .some hr
    | succ n => exact ih n

theorem forall₂_set {a b : α} (h : List.Forall₂ R l l') (n : Nat) (hr : R a b) : List.Forall₂ R (l.set n a) (l'.set n b) := by
  induction h generalizing n with
  | nil => exact .nil
  | cons hr' ht ih =>
    cases n with
    | zero => exact .cons hr ht
    | succ n => exact .cons hr' (ih n)

end

/-! ### Effects -/

/-- Two writes of contexts that no later command can tell apart, to the same slot. -/
inductive SlotWrite.Same : SlotWrite → SlotWrite → Prop
  | nothing : Same .nothing .nothing
  | digest (n : Nat) {c d : DigestCtx} (h : c.Same d) : Same (.digest n c) (.digest n d)
  | hmac (n : Nat) {h k : HmacCtx} (hs : h.Same k) : Same (.hmac n h) (.hmac n k)

/-- Two effects that answer alike, and write what no later command can tell apart; the core is not compared. -/
inductive Effect.Same : Effect → Effect → Prop
  | error (e : ErrCode) : Same (.error e) (.error e)
  | ok {w w' : SlotWrite} (u u' : Bool) (digest : List Byte) (h : w.Same w') : Same (.ok w u digest) (.ok w' u' digest)

section
variable {f g : Effect} {s t : State}

theorem Effect.Same.fails_eq (h : f.Same g) : f.fails = g.fails := by cases h <;> rfl

theorem Effect.Same.reply_eq (h : f.Same g) (fault : Bool) : f.reply fault = g.reply fault := by cases h <;> rfl

theorem SlotWrite.Same.slots {w w' : SlotWrite} (h : w.Same w') (hdc : List.Forall₂ DigestCtx.Same s.dc t.dc)
    (hhc : List.Forall₂ HmacCtx.Same s.hc t.hc) :
    List.Forall₂ DigestCtx.Same (s.put w).dc (t.put w').dc ∧ List.Forall₂ HmacCtx.Same (s.put w).hc (t.put w').hc := by
  cases h with
  | nothing => exact ⟨hdc, hhc⟩
  | digest n h => exact ⟨forall₂_set hdc n h, hhc⟩
  | hmac n h => exact ⟨hdc, forall₂_set hhc n h⟩

theorem Effect.Same.write (h : f.Same g) : f.write.Same g.write := by
  cases h with
  | error e => exact .nothing
  | ok u u' digest h => exact h

@[simp] theorem Effect.apply_inputs (f : Effect) (s : State) : (f.apply s).inputs = s.inputs := by
  cases f <;> simp [apply]

theorem Effect.apply_idle (f : Effect) (h : s.job = none) : (f.apply s).job = none := by
  rw [apply_eq]
  exact work_idle h

theorem Effect.Same.apply (h : f.Same g) (hs : s.Same t) : (f.apply s).Same (g.apply t) := by
  obtain ⟨hdc, hhc, hfault, hjs, hjt, hinputs, hresponses⟩ := hs
  obtain ⟨hdc', hhc'⟩ := h.write.slots hdc hhc
  refine ⟨by simpa using hdc', by simpa using hhc', ?_, f.apply_idle hjs, g.apply_idle hjt, by simpa using hinputs, ?_⟩
  · rw [apply_eq, apply_eq, hfault, h.fails_eq]
  · rw [apply_eq, apply_eq, hfault, hresponses, h.reply_eq]

end

/-! ### Commands -/

/-- A body that reads of a slot only what `R` compares. -/
structure Body.Respects {σ : Type} (b : Body σ) (R : σ → σ → Prop) : Prop where
  ready : ∀ c d, R c d → b.ready c = b.ready d
  run : ∀ c d, R c d → b.ready c = true → R (b.run c) (b.run d)
  digest : ∀ c d, R c d → b.ready c = true → b.digest c = b.digest d

theorem Body.Respects.effect_same {σ : Type} {b : Body σ} {R : σ → σ → Prop} {write : σ → SlotWrite} {slot slot' : Option σ}
    (h : b.Respects R) (hw : ∀ c d, R c d → (write c).Same (write d)) (hs : Option.Rel R slot slot') :
    (b.effect write slot).Same (b.effect write slot') := by
  cases hs with
  | none => exact .error .ctxIndex
  | @some c d hcd =>
    have hready := h.ready c d hcd
    cases hc : b.ready c with
    | false =>
      rw [b.effect_of_not_ready write hc, b.effect_of_not_ready write (hready.symm.trans hc)]
      exact .error .ctxState
    | true =>
      rw [b.effect_of_ready write hc, b.effect_of_ready write (hready.symm.trans hc), h.digest c d hcd hc]
      exact .ok _ _ _ (hw _ _ (h.run c d hcd hc))

/-- The bodies of the commands read of a context only what the host can tell apart (R29, R30). -/
theorem Command.respects {i : Instr} {k : Command} (h : commandOf i = some k) :
    match k with
    | .onDigest _ b => b.Respects DigestCtx.Same
    | .onHmac _ b => b.Respects HmacCtx.Same
    | .oneShot _ => True := by
  cases i <;> simp only [commandOf, Option.some.injEq, reduceCtorEq] at h <;> subst h
  case init ctx => exact ⟨fun _ _ _ => rfl, fun c d _ _ => initOp_same c d, fun _ _ _ _ => rfl⟩
  case update ctx data =>
    exact ⟨fun _ _ hs => hs.isActive_eq, fun _ _ hs hp => updateOp_same data hs (isActive_iff.mp hp), fun _ _ _ _ => rfl⟩
  case finish ctx =>
    exact ⟨fun _ _ hs => hs.isActive_eq, fun c d _ _ => finishOp_same c d,
      fun _ _ hs hp => digestOf_finishOp_eq_of_same hs (isActive_iff.mp hp)⟩
  case digest data => trivial
  case hmacInit ctx key => exact ⟨fun _ _ _ => rfl, fun h k _ _ => hmacInitOp_same h k key, fun _ _ _ _ => rfl⟩
  case hmacUpdate ctx data =>
    exact ⟨fun _ _ hs => hs.1.isActive_eq, fun _ _ hs hp => hmacUpdateOp_same data hs (isActive_iff.mp hp),
      fun _ _ _ _ => rfl⟩
  case hmacFinish ctx =>
    exact ⟨fun _ _ hs => hs.1.isActive_eq, fun h k _ _ => hmacFinishOp_same h k,
      fun _ _ hs hp => tagOf_hmacFinishOp_eq_of_same hs (isActive_iff.mp hp)⟩
  case hmac key data => trivial

section
variable {s t : State}

theorem Command.effect_same {i : Instr} {k : Command} (h : commandOf i = some k) (hs : s.Same t) :
    (k.effect s).Same (k.effect t) := by
  have hrespects := Command.respects h
  obtain ⟨hdc, hhc, -⟩ := hs
  cases k with
  | onDigest n b => exact Body.Respects.effect_same hrespects (fun _ _ h => .digest n h) (forall₂_getElem? hdc n)
  | onHmac n b => exact Body.Respects.effect_same hrespects (fun _ _ h => .hmac n h) (forall₂_getElem? hhc n)
  | oneShot digest => exact .ok true true digest .nothing

theorem State.Same.config_eq (hs : s.Same t) : s.config = t.config := by
  obtain ⟨hdc, hhc, -⟩ := hs
  rw [config, config, hdc.length_eq, hhc.length_eq]

/-- What reset leaves, whatever the slot counts and the command stream (R31). -/
structure State.Fresh (s : State) : Prop where
  fault : s.fault = false
  digest : ∀ c ∈ s.dc, c.phase = .uninit
  hmac : ∀ h ∈ s.hc, h.inner.phase = .uninit
  idle : s.job = none
  responses : s.responses = []

/-- Two engines with the same slot counts, as reset leaves them, look the same whatever else they hold. -/
theorem State.Fresh.same (hs : s.Fresh) (ht : t.Fresh) (hc : s.config = t.config) (hi : s.inputs = t.inputs) : s.Same t := by
  refine ⟨forall₂_of_forall_mem (congrArg Config.nDctx hc) fun c hcs d hdt => ?_,
    forall₂_of_forall_mem (congrArg Config.nHctx hc) fun h hhs k hkt => ⟨?_, fun hp => ?_⟩,
    hs.fault.trans ht.fault.symm, hs.idle, ht.idle, hi, hs.responses.trans ht.responses.symm⟩
  · exact ⟨(hs.digest c hcs).trans (ht.digest d hdt).symm, fun hp => Phase.noConfusion ((hs.digest c hcs).symm.trans hp)⟩
  · exact ⟨(hs.hmac h hhs).trans (ht.hmac k hkt).symm, fun hp => Phase.noConfusion ((hs.hmac h hhs).symm.trans hp)⟩
  · exact Phase.noConfusion ((hs.hmac h hhs).symm.trans hp)

theorem State.AfterReset.fresh (hs : s.AfterReset) (events : List HostEvent) :
    ({ s with inputs := events } : State).Fresh := by
  obtain ⟨-, hfault, hdigest, hhmac, hidle, -, hresponses⟩ := hs
  exact ⟨hfault, hdigest, fun h hh => (hhmac h hh).1, hidle, hresponses⟩

theorem State.resetEvent_fresh (s : State) (rest : List HostEvent) : (s.resetEvent rest).Fresh where
  fault := rfl
  digest _ := phase_of_mem_replicate_reset
  hmac _ hk := (phases_of_mem_replicate_reset hk).1
  idle := rfl
  responses := rfl

@[simp] theorem State.resetEvent_config (s : State) (rest : List HostEvent) : (s.resetEvent rest).config = s.config :=
  State.config_resetOf s.config

theorem runPacket_same (p : List Byte) (hs : s.Same t) :
    ∃ s' t', runPacket p s = .next s' ∧ runPacket p t = .next t' ∧ s'.Same t' := by
  have hconfig := hs.config_eq
  cases hd : decodePacket s.config p with
  | error e => exact ⟨_, _, runPacket_of_error s hd, runPacket_of_error t (hconfig ▸ hd), (Effect.Same.error e).apply hs⟩
  | ok i =>
    obtain ⟨k, hk⟩ := command_of_decodePacket hd
    exact ⟨_, _, (runPacket_of_ok s hd).trans (exec_command hk s), (runPacket_of_ok t (hconfig ▸ hd)).trans (exec_command hk t),
      (Command.effect_same hk hs).apply hs⟩

/-- Both engines do the same thing next, and look the same after it. -/
theorem step_same (hs : s.Same t) : ∃ s' t', step s = .next s' ∧ step t = .next t' ∧ s'.Same t' := by
  have hconfig := hs.config_eq
  have hsame := hs
  obtain ⟨hdc, hhc, hfault, hjs, hjt, hinputs, hresponses⟩ := hs
  rcases step_cases s with ⟨rest, hr, h⟩ | ⟨-, r, hj, -⟩ | ⟨-, hi, h⟩ | ⟨hr, -, p, rest, hi, h⟩
  · exact ⟨_, _, h, step_of_reset (hinputs ▸ hr),
      (s.resetEvent_fresh rest).same (t.resetEvent_fresh rest) (by simpa using hconfig) rfl⟩
  · simp [hjs] at hj
  · exact ⟨s, t, h, idleEngineWaits t hjt (hinputs ▸ hi), hsame⟩
  · rw [h, step_of_packet hjt (hinputs ▸ hr) (hinputs ▸ hi)]
    exact runPacket_same p ⟨hdc, hhc, hfault, hjs, hjt, rfl, hresponses⟩

theorem run_same (hs : s.Same t) (n : Nat) :
    ∃ s' t' : State, Host.Core.run Sys2Proof.core n s = .next s' ∧ Host.Core.run Sys2Proof.core n t = .next t' ∧
      s'.Same t' := by
  induction n generalizing s t with
  | zero => exact ⟨s, t, rfl, rfl, hs⟩
  | succ n ih =>
    obtain ⟨s₁, t₁, hs₁, ht₁, hsame⟩ := step_same hs
    obtain ⟨s', t', hs', ht', hsame'⟩ := ih hsame
    refine ⟨s', t', ?_, ?_, hsame'⟩ <;> rw [Nat.add_comm]
    · exact (run_add Sys2Proof.core _ _ _ _ (run_one hs₁)).trans hs'
    · exact (run_add Sys2Proof.core _ _ _ _ (run_one ht₁)).trans ht'

end

/-- Settles O58: a step of either engine is a step of both. -/
theorem sameEnginesStaySame : Obligations.SameEnginesStaySame := by
  intro s t s' hs he
  obtain ⟨s'', t', hs'', ht', hsame⟩ := step_same hs
  obtain rfl := Host.Outcome.next.inj (hs''.symm.trans he)
  exact ⟨t', ht', hsame⟩

/-- Settles O59: both engines look the same after reset, so they do after every number of steps. -/
theorem unspecifiedResetValuesAreNeverObserved : Obligations.UnspecifiedResetValuesAreNeverObserved := by
  intro s t events n hs ht hc
  obtain ⟨s', t', hs', ht', hdc, hhc, hfault, hjs, hjt, hinputs, hresponses⟩ :=
    run_same ((hs.fresh events).same (ht.fresh events) hc rfl) n
  exact ⟨s', t', hs', ht', hresponses, hfault⟩

end Sys2Proof.Machine
end

section
/-!
The compression core (spec/00_scope.md section 5, spec/40_compression_core.md sections 2 and 3): rotation bit by bit, the form of
R93 that rotates the roles, what `COMPRESS` reads, and the machine of steps that runs it.
-/

namespace Sys2Proof.Machine

/-! ### Rotation -/

/-- Settles O7: a bit that stays inside the word is shifted left, and one that leaves it comes back from the right. -/
theorem rotationMovesEveryBit : Obligations.RotationMovesEveryBit := by
  intro v s i h1 h31 hi
  rw [rotl32, BitVec.getLsbD_or, BitVec.getLsbD_shiftLeft, BitVec.getLsbD_ushiftRight]
  by_cases hin : i + s < 32
  · have hout : v.getLsbD (32 - s + (i + s)) = false := BitVec.getLsbD_of_ge _ _ (by omega)
    simp [Nat.mod_eq_of_lt hin, hout, hin]
  · have hwrap : (i + s) % 32 = i + s - 32 := by omega
    have hback : 32 - s + (i + s - 32) = i := by omega
    simp [hwrap, hback, show i + s - 32 < s by omega]

/-! ### The roles of R93 -/

/-- The registers read from register `i` on, as the four roles of R93. -/
def Quad.rolesFrom (q : Quad) (i : Nat) : Quad :=
  { a := q.reg i, b := q.reg ((i + 1) % 4), c := q.reg ((i + 2) % 4), d := q.reg ((i + 3) % 4) }

theorem Quad.rolesFrom_zero (q : Quad) : q.rolesFrom 0 = q := rfl

/-- The destination moves by one register down, modulo 4, from step to step (R94). -/
theorem destReg_succ (t : Nat) : destReg (t + 1) = (destReg t + 3) % 4 := by
  simp only [destReg]
  omega

/-- Rotating the roles after a step is reading the registers from the next destination on. -/
theorem roleStep_rolesFrom (t : Nat) (X : Nat → Word) (q : Quad) :
    roleStep t X (q.rolesFrom (destReg t)) = (stepFormula t X q).rolesFrom (destReg (t + 1)) := by
  have hlt : destReg t < 4 := Nat.mod_lt _ (by decide)
  rw [destReg_succ, roleStep, stepFormula]
  generalize destReg t = i at hlt
  interval_cases i <;> rfl

theorem firstSteps_roleStep (X : Nat → Word) (x : Quad) (n : Nat) :
    firstSteps roleStep n X x = (firstSteps stepFormula n X x).rolesFrom (destReg n) := by
  induction n with
  | zero => rfl
  | succ n ih => rw [firstSteps, ih, roleStep_rolesFrom, firstSteps]

/-- Settles O14: by induction on the number of steps; after 48 the first role is register 0 again. -/
theorem roleRotationEqualsStepFormula : Obligations.RoleRotationEqualsStepFormula :=
  fun X x n _ => ⟨firstSteps_roleStep X x n, (firstSteps_roleStep X x 48).trans (Quad.rolesFrom_zero _)⟩

/-! ### What `COMPRESS` reads (R97, R98) -/

/-- Settles O17: the message words are made of the bytes 0 to 63. -/
theorem compressReadsOnlyItsArguments : Obligations.CompressReadsOnlyItsArguments := by
  intro S B B' h
  have hbytes : B.readBytes 0 64 = B'.readBytes 0 64 :=
    (Memory.readBytes_eq_iff B B' 0 64).mpr fun i hi => by rw [Nat.zero_add, h i hi]
  exact compressWords_congr S fun _ hk => msgWord_congr hbytes hk

/-! ### The machine of steps (R13, R97) -/

/-- The engine after `n` steps of the `COMPRESS` for the context `c` at `r`. -/
def State.insideCompress (s : State) (r : CtxRef) (c : DigestCtx) (n : Nat) : State :=
  { s with x := firstSteps stepFormula n (msgWord c.buf) c.h, t := BitVec.ofNat 6 n, job := some r }

theorem State.retireCore_setCtxAt_insideCompress (s : State) (r : CtxRef) (c d : DigestCtx) (n : Nat) :
    ((s.insideCompress r c n).setCtxAt r d).retireCore = (s.setCtxAt r d).retireCore := by
  have hhc : (s.insideCompress r c n).hc = s.hc := rfl
  rw [setCtxAt_eq_put, setCtxAt_eq_put, hhc]
  cases ctxWrite s.hc r d <;> rfl

section
variable {s : State} {r : CtxRef} {c : DigestCtx} (hc : s.ctxAt r = some c)
include hc

theorem State.beginCompress_eq : s.beginCompress r = s.insideCompress r c 0 := by
  simp only [beginCompress, hc]
  rfl

theorem State.ctxAt_insideCompress (n : Nat) : (s.insideCompress r c n).ctxAt r = some c :=
  (State.ctxAt_core s _ _ _ r).trans hc

variable (hr : pendingReset s.inputs = none)
include hr

theorem step_insideCompress {n : Nat} (hn : n < 48) :
    step (s.insideCompress r c n) = .next (s.insideCompress r c (n + 1)) := by
  obtain ⟨hd, he⟩ := stepAt_runs (s := s.insideCompress r c n) rfl (State.ctxAt_insideCompress hc n) ⟨n, hn⟩
  have hf : coreSteps[n]'hn = stepFormula n := by simp [coreSteps_eq_stepFormula]
  have hnext : BitVec.ofNat 6 (⟨n, hn⟩ : Fin 48) + 1 = BitVec.ofNat 6 (n + 1) := (BitVec.ofNat_add n 1).symm
  have hcore := (runCore_of_step (s := s.insideCompress r c n) r hd).trans he
  rw [hf, hnext] at hcore
  exact (step_of_job (s := s.insideCompress r c n) hr rfl).trans hcore

theorem run_insideCompress {n : Nat} (hn : n ≤ 48) :
    Host.Core.run Sys2Proof.core n (s.insideCompress r c 0) = .next (s.insideCompress r c n) := by
  induction n with
  | zero => rfl
  | succ n ih => exact (run_add Sys2Proof.core _ _ _ _ (ih (by omega))).trans (run_one (step_insideCompress hc hr hn))

/-- The step after the last ends the `COMPRESS`, and the free values cover what the core held (R12, R13). -/
theorem step_endCompress {n : Nat} (hn : n = 48) :
    step (s.insideCompress r c n) =
      .next (s.setCtxAt r
        { c with h := feedForward c.h (firstSteps stepFormula n (msgWord c.buf) c.h), fill := 0 }).retireCore := by
  have ht : (s.insideCompress r c n).t = 48 := congrArg (BitVec.ofNat 6) hn
  rw [step_of_job (s := s.insideCompress r c n) hr rfl, runCore_of_end ht (State.ctxAt_insideCompress hc n),
    State.retireCore_setCtxAt_insideCompress]
  rfl

end

/-- Settles O16: 48 steps of the formula and the feed-forward are `COMPRESS`. -/
theorem stepMachineRunsCompress : Obligations.StepMachineRunsCompress := by
  intro s r c hr hc
  rw [State.beginCompress_eq hc, compressIsFortyEightStepsAndFeedForward]
  exact (run_add Sys2Proof.core 48 1 _ _ (run_insideCompress hc hr le_rfl)).trans (run_one (step_endCompress hc hr rfl))

end Sys2Proof.Machine
end

section
/-!
Stores and digest bytes (spec/20_memory.md sections 1 and 2): the canonical form of a store is determined by the bytes that it
reads as, and the digest by the bytes of the four words.
-/

namespace Sys2Proof.Machine

/-! ### The canonical form of a store -/

/-- A store whose cells rise reads every cell of its own. -/
theorem Memory.read_of_mem {m : Memory} (hp : m.Pairwise fun p q => p.1 < q.1) {cell : Host.Cell} (h : cell ∈ m) :
    m.read cell.1 = cell.2 := by
  induction m with
  | nil => cases h
  | cons first rest ih =>
    obtain ⟨hfirst, hrest⟩ := List.pairwise_cons.mp hp
    rcases List.mem_cons.mp h with rfl | h
    · simp [Memory.read]
    · rw [Memory.read, if_neg (hfirst cell h).ne, ih hrest h]

/-- A byte that does not read as an unlisted one is listed. -/
theorem Memory.mem_of_read_ne {m : Memory} {a : Nat} (h : m.read a ≠ Memory.unlisted) : (a, m.read a) ∈ m := by
  induction m with
  | nil => exact absurd rfl h
  | cons first rest ih =>
    by_cases hf : first.1 = a
    · rw [Memory.read, if_pos hf, ← hf]
      exact List.mem_cons_self
    · rw [Memory.read, if_neg hf] at h ⊢
      exact List.mem_cons_of_mem _ (ih h)

theorem Memory.wf.mem_iff {m : Memory} (h : m.wf) {cell : Host.Cell} :
    cell ∈ m ↔ cell.1 < 64 ∧ cell.2 ≠ Memory.unlisted ∧ m.read cell.1 = cell.2 := by
  obtain ⟨hp, hcells⟩ := h
  constructor
  · intro hc
    obtain ⟨hlt, hne⟩ := hcells cell hc
    exact ⟨hlt, hne, Memory.read_of_mem hp hc⟩
  · rintro ⟨-, hne, hread⟩
    rw [← hread] at hne
    have hc := Memory.mem_of_read_ne hne
    rwa [hread] at hc

theorem Memory.wf.eq_of_read_eq {m m' : Memory} (h : m.wf) (h' : m'.wf) (hread : ∀ a, a < 64 → m.read a = m'.read a) :
    m = m' := by
  have hirrefl : Std.Irrefl fun p q : Host.Cell => p.1 < q.1 := ⟨fun p => lt_irrefl p.1⟩
  have hantisymm : Std.Antisymm fun p q : Host.Cell => p.1 < q.1 := ⟨fun _ _ hpq hqp => absurd hqp hpq.asymm⟩
  refine List.Pairwise.eq_of_mem_iff h.1 h'.1 fun cell => ?_
  rw [h.mem_iff, h'.mem_iff]
  exact and_congr_right fun hlt => by rw [hread cell.1 hlt]

/-- Settles O19: a canonical store lists exactly the bytes that do not read as an unlisted one. -/
theorem canonicalStoresWithEqualBytesAreEqual : Obligations.CanonicalStoresWithEqualBytesAreEqual :=
  ⟨fun _ _ v => Memory.wf_write v, fun _ _ h h' => h.eq_of_read_eq h'⟩

/-! ### The digest bytes (R43) -/

theorem byteOf_eq_ofNat (v : Word) (i : Nat) : byteOf v i = BitVec.ofNat 8 (v.toNat / 2 ^ (8 * i)) :=
  BitVec.eq_of_toNat_eq (byteOf_toNat v i)

/-- Settles O21: byte `i` of each word, in the order of the words. -/
theorem digestBytesAreLittleEndian : Obligations.DigestBytesAreLittleEndian := by
  intro h i hi
  simp only [← byteOf_eq_ofNat]
  interval_cases i <;> exact ⟨rfl, rfl, rfl, rfl, rfl⟩

end Sys2Proof.Machine
end

section
/-!
Streams on one slot (spec/42_accumulator.md section 5, spec/44_hmac.md section 3): what a sequence of commands leaves alone, and
the answers to `INIT`, `UPDATE`s, `FINISH` and to their HMAC forms.
-/

namespace Sys2Proof.Machine

/-! ### The frame of a sequence of commands -/

theorem execAll_cons_next {i : Instr} {is : List Instr} {s t : State} (h : execAll (i :: is) s = .next t) :
    ∃ u, exec i s = .next u ∧ execAll is u = .next t := by
  rw [execAll] at h
  split at h
  · next u he => exact ⟨u, he, h⟩
  · cases h
  · cases h

section
variable {is : List Instr} {s t : State} (h : execAll is s = .next t) {n : Nat}
include h

theorem execAll_dc_other (hn : ∀ i ∈ is, digestSlotOf i ≠ some n) : t.dc[n]? = s.dc[n]? := by
  induction is generalizing s with
  | nil => rw [Host.Outcome.next.inj h]
  | cons i rest ih =>
    rw [List.forall_mem_cons] at hn
    obtain ⟨u, he, hrest⟩ := execAll_cons_next h
    rw [ih hrest hn.2, (exec_touches he).dc n hn.1]

theorem execAll_hc_other (hn : ∀ i ∈ is, hmacSlotOf i ≠ some n) : t.hc[n]? = s.hc[n]? := by
  induction is generalizing s with
  | nil => rw [Host.Outcome.next.inj h]
  | cons i rest ih =>
    rw [List.forall_mem_cons] at hn
    obtain ⟨u, he, hrest⟩ := execAll_cons_next h
    rw [ih hrest hn.2, (exec_touches he).hc n hn.1]

end

/-- Every command of a stream satisfies what its first, its `UPDATE`s and its last do. -/
theorem forall_mem_stream {chunks : List (List Byte)} {P : Instr → Prop} {first last : Instr}
    {update : List Byte → Instr} (hfirst : P first) (hupdate : ∀ data, P (update data)) (hlast : P last) : ∀ i ∈ first :: (chunks.map update ++ [last]), P i := by
  rw [List.forall_mem_cons, List.forall_mem_append, List.forall_mem_map, List.forall_mem_singleton]
  exact ⟨hfirst, fun data _ => hupdate data, hlast⟩

/-- Settles O30: the answers are those of a stream on the slot, and no command of it names another slot. -/
theorem streamingDigestIsMd4 : Obligations.StreamingDigestIsMd4 := by
  intro s ctx chunks hlt hlen
  obtain ⟨t, d, hrun, -, -, -, hfault, hanswered⟩ := execAll_init_updates_finish hlt hlen
  refine ⟨t, hrun, hanswered, hfault, List.ext_getElem? fun n => execAll_hc_other hrun ?_,
    fun n hn => execAll_dc_other hrun ?_⟩
  · exact forall_mem_stream nofun (fun _ => nofun) nofun
  · have hother : some ctx.toNat ≠ some n := fun h => hn (Option.some.inj h).symm
    exact forall_mem_stream hother (fun _ => hother) hother

/-! ### HMAC streams (R189) -/

section
variable {s : State} {ctx : BitVec 4} {key : List Byte} {chunks : List (List Byte)}

/-- `HMAC_UPDATE`s of a slot that holds a message are answered one by one, and the slot then holds their operands too. -/
theorem execAll_hmacUpdates_of_holds (later : List Instr) {h : HmacCtx} {m : List Byte}
    (hlen : ∀ d ∈ chunks, d.length < 2 ^ 32) (hh : s.hc[ctx.toNat]? = some h) (hm : h.Holds key m) :
    ∃ (t : State) (k : HmacCtx), execAll (chunks.map (Instr.hmacUpdate ctx) ++ later) s = execAll later t ∧
      t.hc[ctx.toNat]? = some k ∧ k.Holds key (m ++ chunks.flatten) ∧ t.fault = s.fault ∧
      t.responses = s.responses ++ List.replicate chunks.length (okBytes s.fault) := by
  induction chunks generalizing s h m with
  | nil => exact ⟨s, h, rfl, hh, by rwa [List.flatten_nil, List.append_nil], rfl, (List.append_nil _).symm⟩
  | cons data rest ih =>
    rw [List.forall_mem_cons] at hlen
    have hactive := hm.1.1
    obtain ⟨t, k, hrun, hk, hheld, hfault, hanswered⟩ :=
      ih (s := ((s.setHmac ctx.toNat (hmacUpdateOp h data)).retireCoreIf (compresses h.inner data.length)).respondOk [])
        hlen.2 (by simpa using State.setHmac_slot (hmacUpdateOp h data) hh) (hmacUpdateOp_holds hlen.1 hm)
    refine ⟨t, k, (execAll_cons_of_next (exec_hmacUpdate_of_active data hh hactive)).trans hrun, hk, ?_, ?_, ?_⟩
    · rwa [List.flatten_cons, ← List.append_assoc]
    · simpa using hfault
    · simpa [okBytes_eq, List.replicate_succ] using hanswered

/-- `HMAC_INIT`, `HMAC_UPDATE`s and `HMAC_FINISH` of one slot: every command is answered, the last with the tag. -/
theorem execAll_hmacInit_updates_finish (hlt : ctx.toNat < s.hc.length) (hkey : key.length < 2 ^ 32)
    (hlen : ∀ d ∈ chunks, d.length < 2 ^ 32) :
    ∃ t : State, execAll (.hmacInit ctx key :: (chunks.map (Instr.hmacUpdate ctx) ++ [.hmacFinish ctx])) s = .next t ∧
      t.responses = s.responses ++ List.replicate (chunks.length + 1) (okBytes s.fault) ++
        [okBytes s.fault ++ hmacClosed key chunks.flatten] ∧
      t.fault = s.fault := by
  have hh := List.getElem?_eq_getElem hlt
  obtain ⟨t, k, hrun, hk, hheld, hfault, hanswered⟩ :=
    execAll_hmacUpdates_of_holds (chunks := chunks) [.hmacFinish ctx] hlen
      (s := (s.setHmac ctx.toNat (hmacInitOp s.hc[ctx.toNat] key)).retireCore.respondOk []) (State.setHmac_slot _ hh)
      (hmacInitOp_holds _ hkey)
  refine ⟨_, (execAll_cons_of_next (exec_hmacInit_of_slot key hh)).trans
    (hrun.trans (execAll_singleton_of_next (exec_hmacFinish_of_active hk hheld.1.1))), ?_, hfault⟩
  rw [State.respondOk_responses_eq, tagOf_hmacFinishOp_of_holds hheld]
  simp [hanswered, hfault, okBytes_eq, List.replicate_succ]

end

/-- Settles O43: the answers are those of an HMAC stream on the slot, and no command of it names another slot. -/
theorem hmacStreamingIsHmacMd4 : Obligations.HmacStreamingIsHmacMd4 := by
  intro s ctx key chunks hlt hkey hlen
  obtain ⟨t, hrun, hanswered, hfault⟩ := execAll_hmacInit_updates_finish hlt hkey hlen
  refine ⟨t, hrun, hanswered, hfault, List.ext_getElem? fun n => execAll_dc_other hrun ?_,
    fun n hn => execAll_hc_other hrun ?_⟩
  · exact forall_mem_stream nofun (fun _ => nofun) nofun
  · have hother : some ctx.toNat ≠ some n := fun h => hn (Option.some.inj h).symm
    exact forall_mem_stream hother (fun _ => hother) hother

end Sys2Proof.Machine
end
